-- ==== Sys2Proof/Word.lean ====
section
/-! DEFINITION. The bit-vector widths the spec gives to bytes, samples and DAC codes (`spec/00_scope.md` R7, R8;
`spec/20_memory.md` R46). -/

namespace Sys2Proof

/-- A byte of the Link, of `rx_buf` and of an argument: 8 bits (R8). -/
abbrev Byte := BitVec 8

/-- A sample of `cap`: 16 bits (`spec/10_state.md` R27). -/
abbrev Sample := BitVec 16

/-- A DAC code, an entry of `ramp`: 12 bits (`spec/10_state.md` R19). -/
abbrev DacCode := BitVec 12

end Sys2Proof
end

