-- ==== Sys2Proof/Syntax.lean ====
section
/-! DEFINITION. The instructions of `spec/opcode_table.json` (`Instr`), the record DECODE produces (`Instruction`), the
named codes of the spec, and the events: one atomic step of one agent each (`spec/00_scope.md` R6). -/

namespace Sys2Proof

/-- CurveKind (`spec/10_state.md` R16): `VCE` = 0, `VBE` = 1. -/
inductive CurveKind where
  | vce
  | vbe
deriving DecidableEq, Repr, Inhabited

/-- The code of `req_kind` (R16). -/
def CurveKind.code : CurveKind → BitVec 1
  | .vce => 0
  | .vbe => 1

/-- A Bias Output channel (`spec/60_exceptions.md` R210): `ch` in {0, 1}. -/
inductive Channel where
  | ch0
  | ch1
deriving DecidableEq, Repr, Inhabited

/-- StatusEvent (`spec/10_state.md` R29), in the order of its codes. -/
inductive StatusEvent where
  | ok
  | errorGeneric
  | transmit
  | receive
  | timeout
  | overflow
  | errorReceive
  | disconnect
deriving DecidableEq, Repr, Inhabited

/-- The 3-bit code of a StatusEvent (R29). -/
def StatusEvent.code : StatusEvent → BitVec 3
  | .ok => 0
  | .errorGeneric => 1
  | .transmit => 2
  | .receive => 3
  | .timeout => 4
  | .overflow => 5
  | .errorReceive => 6
  | .disconnect => 7

/-- The StatusEvent reports no failure: `Ok`, `Transmit` and `Receive` (`spec/60_exceptions.md` R194). -/
def StatusEvent.isInfo : StatusEvent → Bool
  | .ok => true
  | .errorGeneric => false
  | .transmit => true
  | .receive => true
  | .timeout => false
  | .overflow => false
  | .errorReceive => false
  | .disconnect => false

/-- SweepState (`spec/10_state.md` R25). `Running(k)` is `running` with `step_index = k`. -/
inductive SweepState where
  | idle
  | arming
  | running
  | draining
  | complete
  | faulted
deriving DecidableEq, Repr, Inhabited

/-- The 3-bit code of a SweepState (R25); codes 6 and 7 are never produced. -/
def SweepState.code : SweepState → BitVec 3
  | .idle => 0
  | .arming => 1
  | .running => 2
  | .draining => 3
  | .complete => 4
  | .faulted => 5

/-- The record DECODE produces (`spec/00_scope.md` R10, `spec/10_state.md` R14). `arg` is `arg[0..arg_len)`. -/
structure Instruction where
  cmd : Byte
  arg : List Byte
deriving DecidableEq, Repr, Inhabited

/-- DecodeError (R10), in the order in which DECODE tests for them (`spec/60_exceptions.md` R192). -/
inductive DecodeError where
  | badHeader
  | badLength
  | unterminated
  | lengthMismatch
  | emptyBody
  | argTooLong
deriving DecidableEq, Repr, Inhabited

/-- The ordinal of a DecodeError (R192). -/
def DecodeError.ordinal : DecodeError → Nat
  | .badHeader => 0
  | .badLength => 1
  | .unterminated => 2
  | .lengthMismatch => 3
  | .emptyBody => 4
  | .argTooLong => 5

/-- Why a wire byte string of either direction is no instruction: a DecodeError of the block's DECODE, or the check
of the outbound format (`spec/30_encoding.md` R72) that fails. -/
inductive Rejection where
  | inbound (e : DecodeError)
  | outboundLength
  | outboundTerminator
deriving DecidableEq, Repr, Inhabited

/-- A pending transmit request (`spec/10_state.md` R30). -/
inductive TxRequest where
  | heartbeat
  | status (ev : StatusEvent)
  | text (s : List Byte)
  | sweep
deriving DecidableEq, Repr, Inhabited

/-- The answer to an ARM (`spec/42_acquisition_fsm.md` R146). -/
inductive ArmResult where
  | ready
  | hwFail
  | timerFail
deriving DecidableEq, Repr, Inhabited

/-- The instructions: one constructor per row of the opcode table. Inbound rows carry the argument bytes of their frame
(`spec/30_encoding.md` R71), sweep frames the samples they send (`spec/40_frame_codec.md` R121), a text frame its text. -/
inductive Instr where
  | hbAck (arg : List Byte)
  | loadVce (arg : List Byte)
  | loadVbe (arg : List Byte)
  | start (arg : List Byte)
  | unrecognized (cmd : Byte) (arg : List Byte)
  | txHeartbeat
  | txStatusOk
  | txStatusErrorGeneric
  | txStatusTransmit
  | txStatusReceive
  | txStatusTimeout
  | txStatusOverflow
  | txStatusErrorReceive
  | txStatusDisconnect
  | txSweepVce (samples : List Sample)
  | txSweepVbe (samples : List Sample)
  | txText (text : List Byte)
deriving DecidableEq, Repr, Inhabited

/-- The samples that the DMA writes inside one STEP (`spec/20_memory.md` R63): CAP_WRITE may fall between two actions of a
STEP where `dma_armed` and `adc_run` are 1. Of the points between the actions of `spec/42_acquisition_fsm.md` R148, these
three are those at which both can be 1 (log 14). -/
structure InnerCaptures where
  /-- Between action 1, the DAC write, and the next one. -/
  afterCode : List Sample := []
  /-- At tick 0, between action 2e, the ADC's start, and action 3. -/
  afterStart : List Sample := []
  /-- Between action 3, the new step index, and action 4. -/
  afterIndex : List Sample := []
deriving DecidableEq, Repr, Inhabited

/-- One atomic step of one agent, with the draw it takes from the environment (R6, R9). The comment names the operation
and the rule. -/
inductive Event where
  /-- LINK_RX: the far end's byte is ready at the Link (`spec/60_exceptions.md` R214). -/
  | linkRx (b : Byte)
  /-- RECEIVER, RX_BYTE (`spec/40_frame_codec.md` R101). -/
  | rxByte
  /-- RECEIVER, RX_FRAME (R102). -/
  | rxFrame
  /-- RECEIVER, RX_TIMEOUT (`spec/60_exceptions.md` R196). -/
  | rxExpire
  /-- DISPATCHER, DISPATCH (`spec/43_command_dispatch.md` R170). -/
  | dispatch
  /-- DISPATCHER with FRONT_END's answer, ARM_RESULT (`spec/42_acquisition_fsm.md` R146). -/
  | armResult (r : ArmResult)
  /-- The step timer, TICK, which runs STEP (`spec/60_exceptions.md` R200), with the captures that fall inside it. -/
  | tick (c : InnerCaptures)
  /-- DMA, CAP_WRITE with the ADC's sample (`spec/20_memory.md` R60). -/
  | capWrite (v : Sample)
  /-- DISPATCHER, DRAIN (`spec/42_acquisition_fsm.md` R153). -/
  | drain
  /-- SERIALIZER, TX_BEGIN, choosing the k-th pending request (`spec/40_frame_codec.md` R123). -/
  | txBegin (k : Nat)
  /-- SERIALIZER: the Link accepts one byte of the frame (R124, R125). -/
  | txByte
  /-- SERIALIZER, TX_DONE (R124). -/
  | txDone
  /-- HEARTBEAT, HB_SEND (`spec/60_exceptions.md` R219). -/
  | hbKick
  /-- HEARTBEAT, HB_TAKE (R220). -/
  | hbTake
  /-- HEARTBEAT, HB_TIMEOUT (R221). -/
  | hbExpire
  /-- A producer outside the block presents a text on `text_req` (`spec/40_frame_codec.md` R118). -/
  | textReq (s : List Byte)
  /-- The status consumer presents an event on `status_req` (R120). -/
  | statusReq (ev : StatusEvent)
  /-- A post of `Ok`, `Transmit` or `Receive`, in a configuration that has them (`spec/93_implementation_defined.md` U8). -/
  | infoPost (ev : StatusEvent)
  /-- The reset input (`spec/70_reset_and_hazards.md` R230). -/
  | rst
deriving DecidableEq, Repr, Inhabited

/-- The event is a tick. -/
def Event.isTick : Event → Bool
  | .linkRx _ => false
  | .rxByte => false
  | .rxFrame => false
  | .rxExpire => false
  | .dispatch => false
  | .armResult _ => false
  | .tick _ => true
  | .capWrite _ => false
  | .drain => false
  | .txBegin _ => false
  | .txByte => false
  | .txDone => false
  | .hbKick => false
  | .hbTake => false
  | .hbExpire => false
  | .textReq _ => false
  | .statusReq _ => false
  | .infoPost _ => false
  | .rst => false

/-- One transfer on a port of `spec/10_state.md` R32, for the model's history of them. -/
inductive PortCall where
  | dacWr (ch : Channel) (code : DacCode)
  | gainWr (v : Byte)
  | dmaStop
  | dmaDrain
  | dmaArm (len : Nat)
  | adcStart
  | adcStop
  | capWr (i : Nat) (v : Sample)
deriving DecidableEq, Repr, Inhabited

/-- The transfer is a capture write of the DMA, and no output of the block. -/
def PortCall.isCapture : PortCall → Bool
  | .dacWr _ _ => false
  | .gainWr _ => false
  | .dmaStop => false
  | .dmaDrain => false
  | .dmaArm _ => false
  | .adcStart => false
  | .adcStop => false
  | .capWr _ _ => true

end Sys2Proof
end

