-- ==== Sys2Proof/Config.lean ====
section
/-! DEFINITION. The parameters of `spec/00_scope.md` R4 and of `spec/93_implementation_defined.md`: those with a value
(`GivenParams`) and the OPEN ones (`OpenParams`) as records, what makes a configuration legal, the check that refuses an illegal
one, and the free values of the model. -/

namespace Sys2Proof.Config

/-- The largest `sample_count`: it is a byte (`spec/30_encoding.md` R76). -/
def countMax : Nat := 255

/-! ## The parameters -/

/-- The names of the StatusEvents in status texts, a parameter (`spec/93_implementation_defined.md` U6). The defaults are the
spellings of `spec/30_encoding.md` R77; that of `Timeout` is the source's and no parameter (`statusName`). -/
structure StatusNames where
  /-- `Ok`. -/
  ok : List Byte := [0x4F, 0x6B]
  /-- `ErrorGeneric`. -/
  errorGeneric : List Byte := [0x45, 0x72, 0x72, 0x6F, 0x72, 0x47, 0x65, 0x6E, 0x65, 0x72, 0x69, 0x63]
  /-- `Transmit`. -/
  transmit : List Byte := [0x54, 0x72, 0x61, 0x6E, 0x73, 0x6D, 0x69, 0x74]
  /-- `Receive`. -/
  receive : List Byte := [0x52, 0x65, 0x63, 0x65, 0x69, 0x76, 0x65]
  /-- `Overflow`. -/
  overflow : List Byte := [0x4F, 0x76, 0x65, 0x72, 0x66, 0x6C, 0x6F, 0x77]
  /-- `ErrorReceive`. -/
  errorReceive : List Byte := [0x45, 0x72, 0x72, 0x6F, 0x72, 0x52, 0x65, 0x63, 0x65, 0x69, 0x76, 0x65]
  /-- `Disconnect`. -/
  disconnect : List Byte := [0x44, 0x69, 0x73, 0x63, 0x6F, 0x6E, 0x6E, 0x65, 0x63, 0x74]
deriving DecidableEq, Repr, Inhabited

/-- The parameters to which R4, or `spec/93_implementation_defined.md` (the last four), gives a value, which is the default
of the field. -/
structure GivenParams where
  /-- `FRAME_CAP`, inbound frame buffer capacity in bytes. -/
  frameCap : Nat := 50
  /-- `ARG_CAP`, argument capacity in bytes. -/
  argCap : Nat := 40
  /-- `HDR_IN`, the inbound header, `QT:`. -/
  hdrIn : List Byte := [0x51, 0x54, 0x3A]
  /-- `SEP`, the separator between length and body, `;`. -/
  sep : Byte := 0x3B
  /-- `TERM_IN`, the inbound terminator, `.`. -/
  termIn : Byte := 0x2E
  /-- `HDR_OUT`, the outbound header, `RP:`. -/
  hdrOut : List Byte := [0x52, 0x50, 0x3A]
  /-- `TERM_OUT`, the outbound terminator, `end`. -/
  termOut : List Byte := [0x65, 0x6E, 0x64]
  /-- `ARG_DELIM`, the delimiter inside the `a` argument, `-`. -/
  argDelim : Byte := 0x2D
  /-- `SWEEP_US`, sweep duration in microseconds. -/
  sweepUs : Nat := 40000
  /-- `STEP_US`, step interval in microseconds. -/
  stepUs : Nat := 200
  /-- `DAC_MAX`, DAC full-scale code. -/
  dacMax : Nat := 4095
  /-- `VFS_MV`, the bias voltage of `DAC_MAX` in millivolts (`spec/90_conflicts.md` C2). -/
  vfsMv : Nat := 5000
  /-- `GAIN_OFF`, the disabled value of the Gain Selector. -/
  gainOff : Byte := 255
  /-- `CH_VCE`, the DAC channel of a VCE sweep. -/
  chVce : Channel := .ch0
  /-- `CH_VBE`, the DAC channel of a VBE sweep. -/
  chVbe : Channel := .ch1
  /-- `HB_MISS_N`, missed windows before `Disconnect` (`spec/90_conflicts.md` C6). -/
  hbMissN : Nat := 1
  /-- The names in status texts (U6). -/
  names : StatusNames := {}
  /-- The codes `k` to which the Sweep Planner rounds the exact value `k + 1/2`; it rounds the other halves up. A rounding to a
  nearest natural is free at the halves alone (U4). -/
  halvesDown : List Nat := []
  /-- An idle Link with no partial frame posts `Timeout` (U7). -/
  idleTimeout : Bool := false
  /-- `Ok`, `Transmit` and `Receive` are posted (U8). -/
  infoPosts : Bool := false
deriving DecidableEq, Repr, Inhabited

/-- R4's values, and the defaults of U4, U6, U7 and U8. -/
def given : GivenParams := {}

/-- `RAMP_LEN = SWEEP_US / STEP_US + 1` (R4). -/
def GivenParams.rampLen (p : GivenParams) : Nat := p.sweepUs / p.stepUs + 1

/-- `S = RAMP_LEN - 1`, the number of step intervals of a sweep (`spec/41_sweep_planner.md` R132); the index of the last
entry of the table. -/
def GivenParams.rampSteps (p : GivenParams) : Nat := p.sweepUs / p.stepUs

/-- `AMP_MAX = VFS_MV / 100`, the largest accepted amplitude in tenths of a volt (R4). -/
def GivenParams.ampMax (p : GivenParams) : Nat := p.vfsMv / 100

/-- The parameters the source leaves OPEN (R4). The values here are only what a record needs to exist (log 1). -/
structure OpenParams where
  capLen : Nat := 2
  vbeTargetMv : Nat := 0
  gainTable : List Byte := [0]
  relayVce : Bool := false
  relayVbe : Bool := false
  gswVce : Bool := false
  gswVbe : Bool := false
  iqDepth : Nat := 1
deriving DecidableEq, Repr, Inhabited

/-- `GAIN_COUNT` (R4): the length of the table. -/
def OpenParams.gainCount (p : OpenParams) : Nat := p.gainTable.length

/-- The constraints of R4, and those that the registers' widths and the ramp function put on the values (log 30). -/
structure Legal (g : GivenParams) (o : OpenParams) : Prop where
  frameCap_min : 7 ≤ g.frameCap
  argCap_fits : g.argCap + 8 ≤ g.frameCap
  hdrIn_length : g.hdrIn.length = 3
  stepUs_pos : 0 < g.stepUs
  sweepUs_multiple : g.sweepUs % g.stepUs = 0
  rampLen_max : g.rampLen ≤ 255
  hbMissN_min : 1 ≤ g.hbMissN
  capLen_even : o.capLen % 2 = 0
  capLen_min : 2 ≤ o.capLen
  vbeTarget_le : o.vbeTargetMv ≤ g.vfsMv
  gainCount_min : 1 ≤ o.gainCount
  gainCount_max : o.gainCount ≤ 256
  iqDepth_min : 1 ≤ o.iqDepth
  /-- `rx_len` is a 6-bit counter (`spec/10_state.md` R13). -/
  frameCap_max : g.frameCap ≤ 63
  /-- The ramp function divides by `S` (`spec/41_sweep_planner.md` R132). -/
  rampSteps_pos : 1 ≤ g.rampSteps
  /-- A DAC code has 12 bits (`spec/10_state.md` R19, R26). -/
  dacMax_max : g.dacMax ≤ 4095
  /-- The ramp function divides by `VFS_MV` (R132). -/
  vfsMv_pos : 1 ≤ g.vfsMv
  /-- `req_amp` has 6 bits (`spec/10_state.md` R16). -/
  ampMax_max : g.ampMax ≤ 63

/-- A configuration: a value for every parameter, legal by construction. -/
structure Params extends GivenParams, OpenParams where
  legal : Legal toGivenParams toOpenParams := by constructor <;> decide
deriving DecidableEq, Repr, Inhabited

/-! ## The check of a configuration -/

/-- A configuration as numbers, before any check; a parameter for which every value is legal, as it is. -/
structure RawParams where
  frameCap : Nat := 50
  argCap : Nat := 40
  hdrIn : List Nat := [0x51, 0x54, 0x3A]
  sep : Nat := 0x3B
  termIn : Nat := 0x2E
  hdrOut : List Nat := [0x52, 0x50, 0x3A]
  termOut : List Nat := [0x65, 0x6E, 0x64]
  argDelim : Nat := 0x2D
  sweepUs : Nat := 40000
  stepUs : Nat := 200
  dacMax : Nat := 4095
  vfsMv : Nat := 5000
  gainOff : Nat := 255
  chVce : Nat := 0
  chVbe : Nat := 1
  hbMissN : Nat := 1
  names : StatusNames := {}
  halvesDown : List Nat := []
  idleTimeout : Bool := false
  infoPosts : Bool := false
  capLen : Nat
  vbeTargetMv : Nat
  gainTable : List Nat
  relayVce : Nat
  relayVbe : Nat
  gswVce : Nat
  gswVbe : Nat
  iqDepth : Nat
deriving DecidableEq, Repr, Inhabited

/-- The constraint that a refused configuration breaks: R4's own, then those of log 30. -/
inductive ConfigError where
  | frameCap
  | argCap
  | hdrIn
  | byteValue
  | sweepUs
  | rampLen
  | hbMissN
  | capLen
  | vbeTarget
  | gainCount
  | gainValue
  | gainOff
  | channel
  | oneBit
  | iqDepth
  | frameCapWidth
  | rampSteps
  | dacMaxWidth
  | vfsMv
  | ampMaxWidth
deriving DecidableEq, Repr, Inhabited

/-- The channel of a number: 0 or 1 (R4). -/
def channelOf (n : Nat) : Channel := if n = 0 then .ch0 else .ch1

/-- The parameters with a value, of a configuration as numbers. -/
def RawParams.givenParams (r : RawParams) : GivenParams :=
  { frameCap := r.frameCap, argCap := r.argCap, hdrIn := r.hdrIn.map (BitVec.ofNat 8), sep := BitVec.ofNat 8 r.sep,
    termIn := BitVec.ofNat 8 r.termIn, hdrOut := r.hdrOut.map (BitVec.ofNat 8),
    termOut := r.termOut.map (BitVec.ofNat 8), argDelim := BitVec.ofNat 8 r.argDelim, sweepUs := r.sweepUs,
    stepUs := r.stepUs, dacMax := r.dacMax, vfsMv := r.vfsMv, gainOff := BitVec.ofNat 8 r.gainOff,
    chVce := channelOf r.chVce, chVbe := channelOf r.chVbe, hbMissN := r.hbMissN, names := r.names,
    halvesDown := r.halvesDown, idleTimeout := r.idleTimeout, infoPosts := r.infoPosts }

/-- The OPEN parameters, of a configuration as numbers. -/
def RawParams.openParams (r : RawParams) : OpenParams :=
  { capLen := r.capLen, vbeTargetMv := r.vbeTargetMv, gainTable := r.gainTable.map (BitVec.ofNat 8),
    relayVce := r.relayVce == 1, relayVbe := r.relayVbe == 1, gswVce := r.gswVce == 1, gswVbe := r.gswVbe == 1,
    iqDepth := r.iqDepth }

/-- The bytes of the wire format among the numbers. -/
def RawParams.wireBytes (r : RawParams) : List Nat :=
  r.hdrIn ++ [r.sep, r.termIn] ++ r.hdrOut ++ r.termOut ++ [r.argDelim]

/-- The numbers that a field of its own width could not hold: bytes of the wire format, gain values, `GAIN_OFF`, channels and
one-bit values. -/
def RawParams.rangeError (r : RawParams) : Option ConfigError :=
  if r.wireBytes.any (fun v => decide (255 < v)) then some .byteValue
  else if r.gainTable.any (fun v => decide (255 < v)) then some .gainValue
  else if 255 < r.gainOff then some .gainOff
  else if 1 < r.chVce ∨ 1 < r.chVbe then some .channel
  else if 1 < r.relayVce ∨ 1 < r.relayVbe ∨ 1 < r.gswVce ∨ 1 < r.gswVbe then some .oneBit
  else none

/-- Every constraint on the values, with the name of what is wrong where it does not hold. -/
def constraints (g : GivenParams) (o : OpenParams) : List (Bool × ConfigError) :=
  [(decide (7 ≤ g.frameCap), .frameCap), (decide (g.argCap + 8 ≤ g.frameCap), .argCap),
   (decide (g.hdrIn.length = 3), .hdrIn),
   (decide (0 < g.stepUs), .sweepUs), (decide (g.sweepUs % g.stepUs = 0), .sweepUs),
   (decide (g.rampLen ≤ 255), .rampLen), (decide (1 ≤ g.hbMissN), .hbMissN),
   (decide (o.capLen % 2 = 0), .capLen), (decide (2 ≤ o.capLen), .capLen),
   (decide (o.vbeTargetMv ≤ g.vfsMv), .vbeTarget), (decide (1 ≤ o.gainCount), .gainCount),
   (decide (o.gainCount ≤ 256), .gainCount), (decide (1 ≤ o.iqDepth), .iqDepth),
   (decide (g.frameCap ≤ 63), .frameCapWidth), (decide (1 ≤ g.rampSteps), .rampSteps),
   (decide (g.dacMax ≤ 4095), .dacMaxWidth), (decide (1 ≤ g.vfsMv), .vfsMv),
   (decide (g.ampMax ≤ 63), .ampMaxWidth)]

/-- Values that meet every constraint are legal. -/
theorem legal_of_constraints {g : GivenParams} {o : OpenParams}
    (h : (constraints g o).find? (fun c => !c.1) = none) : Legal g o := by
  rw [List.find?_eq_none] at h
  simp only [constraints, List.forall_mem_cons, Bool.not_eq_true, Bool.not_eq_false', decide_eq_true_eq] at h
  obtain ⟨h1, h2, h3, h4, h5, h6, h7, h8, h9, h10, h11, h12, h13, h14, h15, h16, h17, h18, -⟩ := h
  exact ⟨h1, h2, h3, h4, h5, h6, h7, h8, h9, h10, h11, h12, h13, h14, h15, h16, h17, h18⟩

/-- The check before reset: a configuration that breaks a constraint is refused, by name
(`spec/93_implementation_defined.md` U19). -/
def Params.ofRaw (r : RawParams) : Except ConfigError Params :=
  match r.rangeError with
  | some e => .error e
  | none =>
    match h : (constraints r.givenParams r.openParams).find? (fun c => !c.1) with
    | some c => .error c.2
    | none => .ok { toGivenParams := r.givenParams, toOpenParams := r.openParams, legal := legal_of_constraints h }

/-! ## The board, and the free values -/

/-- The OPEN parameters of a board whose other parameters have the values given. -/
structure Board where
  values : OpenParams := {}
  legal : Legal given values := by constructor <;> decide
deriving Inhabited

/-- The board the model stands for. DESIGN CHOICE (log 1): the source gives no value of the OPEN parameters, so nothing can
be proved of them but that they are legal. -/
opaque board : Board

/-- The configuration at `State.reset`: the values given, and the board's OPEN parameters. -/
def boot : Params := { toGivenParams := given, toOpenParams := board.values, legal := board.legal }

/-- FREE VALUE (log 10): the sample that entry `i` of `cap` holds when nothing has been written to it since the reset
number `epoch` (`spec/10_state.md` R34, `spec/93_implementation_defined.md` U2). -/
opaque freeSample (epoch i : Nat) : Sample

/-- FREE VALUE (log 3): the agent's step taken at the `n`-th free choice. The spec lets the agents interleave in any
order and the environment draw any value (`spec/00_scope.md` R6, `spec/60_exceptions.md` R201). -/
opaque freeEvent (n : Nat) : Event

end Sys2Proof.Config
end

