-- ==== Sys2Proof/Decode.lean ====
section
/-! DEFINITION. The wire format: decimal numbers, the inbound frame and DECODE, the outbound frame, packing of samples,
the decoder of both directions, the encoder, and the opcode-table words (`spec/30_encoding.md`,
`spec/40_frame_codec.md` parts B and C). -/

namespace Sys2Proof

open Config

/-! ## Decimal numbers (`spec/00_scope.md` R8) -/

/-- `is_digit(b)` (R8). -/
def isDigit (b : Byte) : Bool := decide (0x30 ≤ b.toNat) && decide (b.toNat ≤ 0x39)

/-- `parse_dec(s)` (R8): the value of a digit string, most significant digit first, unbounded. -/
def parseDec (s : List Byte) : Nat := s.foldl (fun n b => n * 10 + (b.toNat - 0x30)) 0

/-- A non-empty string of digits, as the declared length (`spec/30_encoding.md` R75) and the fields of the `a`
argument (R76) must be. -/
def isNumber (s : List Byte) : Bool := !s.isEmpty && s.all isDigit

/-- The digit of value `d`, for `d < 10`. -/
def digit (d : Nat) : Byte := BitVec.ofNat 8 (0x30 + d)

/-- The digits of `n` in front of `acc`, at most `fuel` of them. -/
def decDigits : Nat → Nat → List Byte → List Byte
  | 0, _, acc => acc
  | fuel + 1, n, acc =>
    if n / 10 = 0 then digit (n % 10) :: acc else decDigits fuel (n / 10) (digit (n % 10) :: acc)

/-- `dec(n)` (R8): the shortest digit string of value `n`, with `dec(0)` = `0`. -/
def dec (n : Nat) : List Byte := decDigits (n + 1) n []

/-- The bytes before and after the first `b`: the scan of `find(s, b, from)` (R8) with the two slices it delimits. -/
def cutAt (b : Byte) : List Byte → Option (List Byte × List Byte)
  | [] => none
  | x :: xs =>
    if x = b then some ([], xs)
    else match cutAt b xs with
      | none => none
      | some (u, v) => some (x :: u, v)

/-! ## Inbound frames -/

/-- Checks (d) and (e) of DECODE (`spec/40_frame_codec.md` R109, R111) on the body. -/
def decodeBody (p : GivenParams) : List Byte → Except DecodeError Instruction
  | [] => .error .emptyBody
  | cmd :: arg => if p.argCap < arg.length then .error .argTooLong else .ok { cmd := cmd, arg := arg }

/-- The terminator search (R107) and check (c) (R108): `n` is the declared length, `r` the bytes after the separator. -/
def decodeTail (p : GivenParams) (n : Nat) (r : List Byte) : Except DecodeError Instruction :=
  match cutAt p.termIn r with
  | none => .error .unterminated
  | some (body, _) => if body.length ≠ n then .error .lengthMismatch else decodeBody p body

/-- DECODE (R104): the checks in order, the first that fails names the error. R104 gives a result for strings of up to
`FRAME_CAP` bytes, and R87's grammar stops there too; that a longer string is put through the same checks is the model's
DESIGN CHOICE (log 31). RECEIVER never has one (`spec/40_frame_codec.md` R101). -/
def decodeFrame (p : GivenParams) (f : List Byte) : Except DecodeError Instruction :=
  if f.take p.hdrIn.length ≠ p.hdrIn then .error .badHeader
  else match cutAt p.sep (f.drop p.hdrIn.length) with
    | none => .error .badLength
    | some (d, r) => if isNumber d then decodeTail p (parseDec d) r else .error .badLength

/-- The command is selected by `cmd` alone (`spec/30_encoding.md` R79, R81; `spec/43_command_dispatch.md` R170). -/
def commandInstr (i : Instruction) : Instr :=
  if i.cmd = 0x30 then .hbAck i.arg
  else if i.cmd = 0x61 then .loadVce i.arg
  else if i.cmd = 0x62 then .loadVbe i.arg
  else if i.cmd = 0x63 then .start i.arg
  else .unrecognized i.cmd i.arg

/-- The inbound frame of a command (`spec/30_encoding.md` R71) with its declared length in the shortest form. -/
def inboundFrame (p : GivenParams) (cmd : Byte) (arg : List Byte) : List Byte :=
  p.hdrIn ++ dec (arg.length + 1) ++ [p.sep] ++ (cmd :: arg) ++ [p.termIn]

/-! ## Outbound frames -/

/-- ENCODE (`spec/40_frame_codec.md` R115): the declared length is the payload's. -/
def encodeFrame (p : GivenParams) (payload : List Byte) : List Byte :=
  p.hdrOut ++ dec payload.length ++ [p.sep] ++ payload ++ p.termOut

/-- `name : StatusEvent -> byte string` (`spec/93_implementation_defined.md` U6): `Timeout` as the source spells it
(`spec/30_encoding.md` R77), the other names as the configuration does. -/
def statusName (p : GivenParams) : StatusEvent → List Byte
  | .ok => p.names.ok
  | .errorGeneric => p.names.errorGeneric
  | .transmit => p.names.transmit
  | .receive => p.names.receive
  | .timeout => [0x54, 0x69, 0x6D, 0x65, 0x6F, 0x75, 0x74]
  | .overflow => p.names.overflow
  | .errorReceive => p.names.errorReceive
  | .disconnect => p.names.disconnect

/-- The payload of a status message: `c,` and the name (R77). -/
def statusPayload (p : GivenParams) (ev : StatusEvent) : List Byte := 0x63 :: 0x2C :: statusName p ev

/-- The payload of a liveness frame: `c,0` (R77). -/
def heartbeatPayload : List Byte := [0x63, 0x2C, 0x30]

/-- The kind character of a sweep payload: `e` for VCE, `f` for VBE (R78). -/
def kindByte : CurveKind → Byte
  | .vce => 0x65
  | .vbe => 0x66

/-- The three bytes of a pair of samples (`spec/20_memory.md` R51): bits 15 to 12 of each are dropped. -/
def packPair (x y : Sample) : List Byte :=
  [x.extractLsb' 4 8, x.extractLsb' 0 4 ++ y.extractLsb' 8 4, y.extractLsb' 0 8]

/-- PACK (`spec/40_frame_codec.md` R122): the sequence has an even length (R53). -/
def pack : List Sample → List Byte
  | x :: y :: rest => packPair x y ++ pack rest
  | _ => []

/-- The samples of packed bytes, as the far end recovers them (R122); `none` where the bytes are no whole number of
threes. -/
def unpack : List Byte → Option (List Sample)
  | [] => some []
  | b0 :: b1 :: b2 :: rest =>
    match unpack rest with
    | none => none
    | some l =>
      some ((0#4 ++ b0 ++ b1.extractLsb' 4 4 : BitVec 16) :: (0#4 ++ b1.extractLsb' 0 4 ++ b2 : BitVec 16) :: l)
  | _ => none

/-- The sweep payload: the kind character and the packed samples (`spec/30_encoding.md` R78). -/
def sweepPayload (k : CurveKind) (samples : List Sample) : List Byte := kindByte k :: pack samples

/-- The instruction that reports `ev` (`spec/40_frame_codec.md` R120). -/
def statusInstr : StatusEvent → Instr
  | .ok => .txStatusOk
  | .errorGeneric => .txStatusErrorGeneric
  | .transmit => .txStatusTransmit
  | .receive => .txStatusReceive
  | .timeout => .txStatusTimeout
  | .overflow => .txStatusOverflow
  | .errorReceive => .txStatusErrorReceive
  | .disconnect => .txStatusDisconnect

/-- The StatusEvents, in the order of their codes. -/
def statusEvents : List StatusEvent :=
  [.ok, .errorGeneric, .transmit, .receive, .timeout, .overflow, .errorReceive, .disconnect]

/-- The StatusEvent whose message the payload `l` is, if it is one. -/
def statusOf (p : GivenParams) (l : List Byte) : Option StatusEvent := statusEvents.find? (fun ev => statusPayload p ev == l)

/-- The samples a sweep payload of kind `k` carries: at least one pair, after the kind character (R89). -/
def sweepOf (k : CurveKind) : List Byte → Option (List Sample)
  | [] => none
  | b :: packed => if b = kindByte k ∧ packed ≠ [] then unpack packed else none

/-- The message kind of a payload (`spec/30_encoding.md` R80): the fixed payloads, the sweep payloads, else a text. -/
def payloadInstr (p : GivenParams) (payload : List Byte) : Instr :=
  if payload = heartbeatPayload then .txHeartbeat
  else match statusOf p payload with
    | some ev => statusInstr ev
    | none => match sweepOf .vce payload with
      | some l => .txSweepVce l
      | none => match sweepOf .vbe payload with
        | some l => .txSweepVbe l
        | none => .txText payload

/-- The payload of an outbound frame, read as the far end must read it: exactly the declared number of bytes after the
first separator, then the terminator (R85, R72). The declared length has no leading zero (R89). -/
def outboundPayload (p : GivenParams) (f : List Byte) : Except Rejection (List Byte) :=
  match cutAt p.sep (f.drop p.hdrOut.length) with
  | none => .error .outboundLength
  | some (d, r) =>
    if d = dec (parseDec d) then
      if parseDec d ≤ r.length ∧ r.drop (parseDec d) = p.termOut then .ok (r.take (parseDec d))
      else .error .outboundTerminator
    else .error .outboundLength

/-! ## Both directions -/

/-- The instruction of a wire byte string: one with the outbound header is read by its declared length
(R85), every other byte string by DECODE (R104; an outbound frame is no inbound frame, R73). Total; a rejection is named. -/
def decode (p : GivenParams) (f : List Byte) : Except Rejection Instr :=
  if f.take p.hdrOut.length = p.hdrOut then
    match outboundPayload p f with
    | .ok payload => .ok (payloadInstr p payload)
    | .error e => .error e
  else
    match decodeFrame p f with
    | .ok i => .ok (commandInstr i)
    | .error e => .error (.inbound e)

/-- The frame of an instruction. -/
def encode (p : GivenParams) : Instr → List Byte
  | .hbAck arg => inboundFrame p 0x30 arg
  | .loadVce arg => inboundFrame p 0x61 arg
  | .loadVbe arg => inboundFrame p 0x62 arg
  | .start arg => inboundFrame p 0x63 arg
  | .unrecognized cmd arg => inboundFrame p cmd arg
  | .txHeartbeat => encodeFrame p heartbeatPayload
  | .txStatusOk => encodeFrame p (statusPayload p .ok)
  | .txStatusErrorGeneric => encodeFrame p (statusPayload p .errorGeneric)
  | .txStatusTransmit => encodeFrame p (statusPayload p .transmit)
  | .txStatusReceive => encodeFrame p (statusPayload p .receive)
  | .txStatusTimeout => encodeFrame p (statusPayload p .timeout)
  | .txStatusOverflow => encodeFrame p (statusPayload p .overflow)
  | .txStatusErrorReceive => encodeFrame p (statusPayload p .errorReceive)
  | .txStatusDisconnect => encodeFrame p (statusPayload p .disconnect)
  | .txSweepVce samples => encodeFrame p (sweepPayload .vce samples)
  | .txSweepVbe samples => encodeFrame p (sweepPayload .vbe samples)
  | .txText text => encodeFrame p text

/-! ## Opcode-table words

The table gives a row the eight bits of its selector: the command byte of an inbound frame, the first payload byte of an
outbound one. -/

/-- The shortest frame with selector `b`. The inbound rows come first in the table; `e` and `f` select the sweep rows, the
only rows with these fixed bits. DESIGN CHOICE (log 15): a selector alone does not say its direction. -/
def selectorFrame (p : GivenParams) (b : Byte) : List Byte :=
  if b = kindByte .vce ∨ b = kindByte .vbe then encodeFrame p [b, 0, 0, 0] else inboundFrame p b []

/-- The `n` bytes of `w`, the first in its lowest eight bits. -/
def bytesOf : Nat → Nat → List Byte
  | 0, _ => []
  | n + 1, w => BitVec.ofNat 8 w :: bytesOf n (w / 256)

/-- The instruction of an opcode-table word: of its selector for a word of one byte, of the whole frame for a longer
word; the parameters are those given. -/
def decodeTableWord (nbits w : Nat) : Option Instr :=
  match decode given (if nbits ≤ 8 then selectorFrame given (BitVec.ofNat 8 w) else bytesOf ((nbits + 7) / 8) w) with
  | .ok i => some i
  | .error _ => none

end Sys2Proof
end

