-- ==== Sys2Proof/WellFormed.lean ====
section
/-! DEFINITION. Which instructions have an encoding of their own: an inbound body fits and holds no terminator
(`spec/30_encoding.md` R87), an unrecognized command is none of the four, a sweep frame carries pairs of 12-bit
samples, and a text is not the payload of another row; and which wire formats can be read back. -/

namespace Sys2Proof

open Config

/-- The fixed payloads differ: those of the StatusEvents from one another and from the heartbeat's. -/
def namesApart (p : GivenParams) : Bool := decide (heartbeatPayload :: statusEvents.map (statusPayload p)).Nodup

/-- A configuration makes a format that can be read back: the separator is no digit, no frame of one direction begins with
the header of the other, and no two fixed payloads are the same. So it is with R4's characters (`spec/30_encoding.md` R73,
R75) and R77's names; the spec asks it of no others, and DECODE is total without it (log 2). -/
def readable (p : GivenParams) : Bool :=
  !isDigit p.sep && !p.hdrIn.isPrefixOf p.hdrOut && !p.hdrOut.isPrefixOf p.hdrIn && namesApart p

/-- A body DECODE can accept: an argument of at most `ARG_CAP` bytes, and no terminator in the body (R87). -/
def bodyOk (p : GivenParams) (cmd : Byte) (arg : List Byte) : Bool :=
  decide (arg.length ≤ p.argCap) && (cmd :: arg).all (fun b => b != p.termIn)

/-- An unrecognized command byte: none of the four (`spec/30_encoding.md` R81). -/
def unrecognizedOk (cmd : Byte) : Bool :=
  cmd != 0x30 && cmd != 0x61 && cmd != 0x62 && cmd != 0x63

/-- Samples a packed payload gives back: one or more pairs (`spec/20_memory.md` R53), bits 15 to 12 zero (R51). -/
def samplesOk (samples : List Sample) : Bool :=
  decide (2 ≤ samples.length) && decide (samples.length % 2 = 0) && samples.all (fun v => decide (v.toNat < 4096))

/-- A payload with the form of a sweep's (R89): `e` or `f` and one or more groups of three bytes. -/
def sweepShaped : List Byte → Bool
  | [] => false
  | b :: packed => (b == kindByte .vce || b == kindByte .vbe) && !packed.isEmpty && decide (packed.length % 3 = 0)

/-- A text whose frame is read as a text: it is no other row's payload (`spec/30_encoding.md` R80). The block sends
every text a producer asks for (`spec/40_frame_codec.md` R118), well-formed or not. -/
def textOk (p : GivenParams) (text : List Byte) : Bool :=
  text != heartbeatPayload && statusEvents.all (fun ev => statusPayload p ev != text) && !sweepShaped text

/-- The check of an instruction's operands. -/
def wellFormed (p : GivenParams) : Instr → Bool
  | .hbAck arg => bodyOk p 0x30 arg
  | .loadVce arg => bodyOk p 0x61 arg
  | .loadVbe arg => bodyOk p 0x62 arg
  | .start arg => bodyOk p 0x63 arg
  | .unrecognized cmd arg => unrecognizedOk cmd && bodyOk p cmd arg
  | .txHeartbeat => true
  | .txStatusOk => true
  | .txStatusErrorGeneric => true
  | .txStatusTransmit => true
  | .txStatusReceive => true
  | .txStatusTimeout => true
  | .txStatusOverflow => true
  | .txStatusErrorReceive => true
  | .txStatusDisconnect => true
  | .txSweepVce samples => samplesOk samples
  | .txSweepVbe samples => samplesOk samples
  | .txText text => textOk p text

end Sys2Proof
end

