-- ==== Sys2Proof/Machine/State.lean ====
section
/-! DEFINITION. The state of the block (`spec/10_state.md`), the faults and refusals of a step, and the machine after
reset (R33). Field comments name the spec's element and rule; fields that are the model's own say so. -/

namespace Sys2Proof.Machine

/-- A memory of `w`-bit elements: the elements that hold a value, by rising index. An index that is not listed reads as
no value: nothing has been written to it since reset (`spec/10_state.md` R34). -/
abbrev Mem (w : Nat) := List (Nat × BitVec w)

/-- Why the machine stops. Every one is the model's own (`spec/00_scope.md` R9, `spec/10_state.md` R34); no run from
reset reaches one. -/
inductive Fault where
  /-- Raised by RX_BYTE, RX_FRAME and RX_TIMEOUT for an access at `FRAME_CAP` or above: an index outside `rx_buf` (R9,
  R48). Safe. -/
  | rxBufIndex
  /-- Raised by RX_BYTE, RX_FRAME and RX_TIMEOUT for a read of a byte of `rx_buf` that holds no value (R34). Safe. -/
  | rxBufUnspecified
  /-- Raised by STEP for a read at `RAMP_LEN` or above: an index outside `ramp` (R9, R48). Safe. -/
  | rampIndex
  /-- Raised by STEP for a read of an entry of `ramp` that holds no value (R34). Safe. -/
  | rampUnspecified
  /-- Raised by STEP at tick 0 for a `req_gain` outside the gain table (R9, R16). Safe. -/
  | gainIndex
deriving DecidableEq, Repr

/-- Why the machine has no next step for an instruction. -/
inductive Refusal where
  /-- Raised by an arm of `exec` for an instruction without a meaning; no arm raises it. Safe. -/
  | notModelled (mnemonic : String)
deriving DecidableEq, Repr

/-- The state of the block. -/
structure State where
  /-- MODEL: the configuration (`spec/00_scope.md` R4). No step writes it. -/
  cfg : Config.Params
  /-- Bytes the Link holds and RECEIVER has not polled, first first (R31 (d)); outside the block. -/
  linkRx : List Byte
  /-- `rx_buf` (R13). -/
  rxBuf : Mem 8
  /-- `rx_len` (R13). -/
  rxLen : BitVec 6
  /-- `iq`, head first (R15). -/
  iq : List Instruction
  /-- `req_valid` (R16). -/
  reqValid : Bool
  /-- `req_kind` (R16). -/
  reqKind : CurveKind
  /-- `req_amp` (R16). -/
  reqAmp : BitVec 6
  /-- `req_gain` (R16). -/
  reqGain : BitVec 8
  /-- `req_samples` (R16). -/
  reqSamples : BitVec 8
  /-- `ramp` (R19). -/
  ramp : Mem 12
  /-- `step_index` (R20). -/
  stepIndex : BitVec 8
  /-- `done` (R22). -/
  done : Bool
  /-- `dma_armed` (R22). -/
  dmaArmed : Bool
  /-- `adc_run` (R22). -/
  adcRun : Bool
  /-- `timer_run` (R22). -/
  timerRun : Bool
  /-- `connected` (R22). -/
  connected : Bool
  /-- `hb_ack` (R22). -/
  hbAck : Bool
  /-- `hb_waiting` (R22). -/
  hbWaiting : Bool
  /-- `hb_miss` (R22). -/
  hbMiss : Nat
  /-- `tx_busy` (R22). -/
  txBusy : Bool
  /-- `sweep_state` (R25). -/
  sweepState : SweepState
  /-- `dac_code[0]` (R26). -/
  dacCode0 : DacCode
  /-- `dac_code[1]` (R26). -/
  dacCode1 : DacCode
  /-- `amp_en` (R26). -/
  ampEn : Bool
  /-- `relay` (R26). -/
  relay : Bool
  /-- `gain_sw` (R26). -/
  gainSw : Bool
  /-- `gain_val` (R26). -/
  gainVal : Byte
  /-- `cap` (R27). -/
  cap : Mem 16
  /-- `dma_wr_idx` (R28). -/
  dmaWrIdx : Nat
  /-- `status_out`, oldest first (R29). -/
  statusOut : List StatusEvent
  /-- `txq`, in the order the requests were made (R30, R66; log 12), equal requests each for itself (log 32). -/
  txq : List TxRequest
  /-- The request whose frame is being sent (R31 (e)); `none` while SERIALIZER is idle. -/
  txCur : Option TxRequest
  /-- The bytes of that frame the Link has not accepted yet (R31 (e)). -/
  txRest : List Byte
  /-- `tx_out`, oldest first (R30). -/
  txOut : List Byte
  /-- MODEL: history of the transfers on the output ports and of the captures (R32), oldest first. -/
  ports : List PortCall
  /-- MODEL: number of resets, so that unspecified contents of `cap` are drawn anew after each. -/
  capEpoch : Nat
  /-- MODEL: the agents' steps already chosen, first first. -/
  sched : List Event
  /-- MODEL: number of free choices taken. -/
  draws : Nat
deriving DecidableEq, Repr

/-- The values of `spec/10_state.md` R33 for a configuration. `req_kind`, `req_amp`, `req_gain`, `req_samples` (DESIGN
CHOICE, log 7), `relay` and `gain_sw` (DESIGN CHOICE, log 8) have no value there. -/
def State.resetWith (cfg : Config.Params) : State where
  cfg := cfg
  linkRx := []
  rxBuf := []
  rxLen := 0
  iq := []
  reqValid := false
  reqKind := .vce
  reqAmp := 0
  reqGain := 0
  reqSamples := 0
  ramp := []
  stepIndex := 0
  done := false
  dmaArmed := false
  adcRun := false
  timerRun := false
  connected := true
  hbAck := false
  hbWaiting := false
  hbMiss := 0
  txBusy := false
  sweepState := .idle
  dacCode0 := 0
  dacCode1 := 0
  ampEn := false
  relay := false
  gainSw := false
  gainVal := cfg.gainOff
  cap := []
  dmaWrIdx := 0
  statusOut := []
  txq := []
  txCur := none
  txRest := []
  txOut := []
  ports := []
  capEpoch := 0
  sched := []
  draws := 0

/-- The machine right after reset (`spec/10_state.md` R33, R35). -/
def State.reset : State := State.resetWith Config.boot

end Sys2Proof.Machine
end

