-- ==== Sys2Proof/Machine/Memory.lean ====
section
/-! DEFINITION. The operations over a memory (`spec/00_scope.md` R9, `spec/20_memory.md` R54): read and write one
element, also with its index checked, read a run of elements, fill a memory from index 0, and the one canonical form a
memory is kept in. -/

namespace Sys2Proof.Machine

/-- `MemRead(M, a)` (R9): `none` where nothing has been written. -/
def Mem.read {w : Nat} : Mem w → Nat → Option (BitVec w)
  | [], _ => none
  | (b, v) :: m, a => if a = b then some v else Mem.read m a

/-- `MemWrite(M, a, v)` (R9), keeping the indices rising. -/
def Mem.write {w : Nat} : Mem w → Nat → BitVec w → Mem w
  | [], a, v => [(a, v)]
  | (b, u) :: m, a, v =>
    if a < b then (a, v) :: (b, u) :: m
    else if a = b then (a, v) :: m
    else (b, u) :: Mem.write m a v

/-- `M[a]` of a memory of `size` elements: an index outside its range is the fault `outside` (R9), an element that holds no
value is the fault `unset` (`spec/10_state.md` R34). -/
def Mem.get {w : Nat} (size : Nat) (outside unset : Fault) (m : Mem w) (a : Nat) : Except Fault (BitVec w) :=
  if a < size then
    match Mem.read m a with
    | some v => .ok v
    | none => .error unset
  else .error outside

/-- `M[a] <- v` in a memory of `size` elements: an index outside its range is the fault `outside` (R9). -/
def Mem.put {w : Nat} (size : Nat) (outside : Fault) (m : Mem w) (a : Nat) (v : BitVec w) : Except Fault (Mem w) :=
  if a < size then .ok (Mem.write m a v) else .error outside

/-- The `n` elements from index `a` (R8's slice `M[a .. a+n)`), each read as `Mem.get` reads it. -/
def Mem.getRun {w : Nat} (size : Nat) (outside unset : Fault) (m : Mem w) : Nat → Nat → Except Fault (List (BitVec w))
  | _, 0 => .ok []
  | a, n + 1 =>
    match Mem.get size outside unset m a with
    | .error f => .error f
    | .ok v => match Mem.getRun size outside unset m (a + 1) n with
      | .error f => .error f
      | .ok vs => .ok (v :: vs)

/-- The memory that holds `vs` at the indices from `a`, and nothing else. -/
def Mem.fillFrom {w : Nat} : Nat → List (BitVec w) → Mem w
  | _, [] => []
  | a, v :: vs => (a, v) :: Mem.fillFrom (a + 1) vs

/-- All entries of a memory replaced: `M[i] <- vs[i]` for every `i` (`spec/41_sweep_planner.md` R139). -/
def Mem.fill {w : Nat} (vs : List (BitVec w)) : Mem w := Mem.fillFrom 0 vs

/-- The indices rise strictly. -/
def Mem.rising {w : Nat} : Mem w → Bool
  | [] => true
  | [_] => true
  | (a, _) :: (b, v) :: m => decide (a < b) && Mem.rising ((b, v) :: m)

/-- The canonical form of a memory of `size` elements: rising indices, all inside the memory (`spec/20_memory.md` R48).
An unlisted index reads as no value, which no entry equals. -/
def Mem.wf {w : Nat} (size : Nat) (m : Mem w) : Bool := Mem.rising m && m.all (fun c => decide (c.1 < size))

end Sys2Proof.Machine
end

