-- ==== Sys2Proof/Machine/Operands.lean ====
section
/-! DEFINITION. Operands: what a rule reads from the request registers, the configuration, the memories and an argument. -/

namespace Sys2Proof.Machine

open Config

/-- `active_ch` (`spec/10_state.md` R18). -/
def State.activeCh (s : State) : Channel :=
  match s.reqKind with
  | .vce => s.cfg.chVce
  | .vbe => s.cfg.chVbe

/-- The relay state of the loaded CurveKind (`spec/42_acquisition_fsm.md` R144, R145). -/
def State.relayOf (s : State) : Bool :=
  match s.reqKind with
  | .vce => s.cfg.relayVce
  | .vbe => s.cfg.relayVbe

/-- The gain-switch state of the loaded CurveKind (R144, R145). -/
def State.gainSwOf (s : State) : Bool :=
  match s.reqKind with
  | .vce => s.cfg.gswVce
  | .vbe => s.cfg.gswVbe

/-- `ramp[step_index]`, the operand of STEP (R148): an index outside `ramp` and an entry without a value are faults
(`spec/00_scope.md` R9, `spec/10_state.md` R34). -/
def State.rampEntry (s : State) : Except Fault DacCode :=
  Mem.get s.cfg.rampLen .rampIndex .rampUnspecified s.ramp s.stepIndex.toNat

/-- `GAIN_TABLE[req_gain]`, the operand of STEP at tick 0 (R148). -/
def State.gainEntry (s : State) : Except Fault Byte :=
  match s.cfg.gainTable[s.reqGain.toNat]? with
  | some g => .ok g
  | none => .error .gainIndex

/-- The sample a read of `cap[i]` gives: an entry without a value is a free value (`spec/10_state.md` R34). -/
def State.capEntry (s : State) (i : Nat) : Sample :=
  match Mem.read s.cap i with
  | some v => v
  | none => freeSample s.capEpoch i

/-- All `CAP_LEN` samples, in index order: the operand of a sweep frame (`spec/40_frame_codec.md` R121). -/
def State.capSamples (s : State) : List Sample := (List.range s.cfg.capLen).map s.capEntry

/-- The last byte stored in `rx_buf`, `rx_buf[rx_len - 1]`; `none` while no byte is held (`rx_len = 0`). The read faults at
an index outside `rx_buf` (`spec/00_scope.md` R9) and at a byte that holds no value (`spec/10_state.md` R34). -/
def State.lastByte (s : State) : Except Fault (Option Byte) :=
  if s.rxLen = 0 then .ok none
  else match Mem.get s.cfg.frameCap .rxBufIndex .rxBufUnspecified s.rxBuf (s.rxLen.toNat - 1) with
    | .ok b => .ok (some b)
    | .error f => .error f

/-- The read of the last byte faults. -/
def State.lastByteFaults (s : State) : Bool :=
  match s.lastByte with
  | .ok _ => false
  | .error _ => true

/-- A complete frame is pending: `rx_len >= 1` and `rx_buf[rx_len - 1]` is the terminator (`spec/40_frame_codec.md` R102). -/
def State.frameComplete (s : State) : Bool :=
  match s.lastByte with
  | .ok (some b) => b == s.cfg.termIn
  | .ok none => false
  | .error _ => false

/-- The bytes `rx_buf[0 .. rx_len)`; a read of one faults as that of the last byte does. -/
def State.frameBytes (s : State) : Except Fault (List Byte) :=
  Mem.getRun s.cfg.frameCap .rxBufIndex .rxBufUnspecified s.rxBuf 0 s.rxLen.toNat

/-- `arg` split at every delimiter (`spec/30_encoding.md` R76). -/
def splitFields (delim : Byte) : List Byte → List (List Byte)
  | [] => [[]]
  | b :: bs =>
    if b = delim then [] :: splitFields delim bs
    else match splitFields delim bs with
      | [] => [[b]]
      | f :: fs => (b :: f) :: fs

/-- A field of the `a` argument with the largest value it may have (R76). -/
def parseField (most : Nat) (f : List Byte) : Option Nat :=
  if isNumber f ∧ parseDec f ≤ most then some (parseDec f) else none

/-- The `a` argument (R76, R88): exactly three fields, in range; `none` is an argument error. -/
def parseVceArg (delim : Byte) (ampMax gainCount : Nat) (arg : List Byte) : Option (Nat × Nat × Nat) :=
  match splitFields delim arg with
  | [f0, f1, f2] =>
    match parseField ampMax f0, parseField (gainCount - 1) f1, parseField countMax f2 with
    | some a, some g, some c => some (a, g, c)
    | _, _, _ => none
  | _ => none

end Sys2Proof.Machine
end

