-- ==== Sys2Proof/Machine/Flags.lean ====
section
/-! DEFINITION. The eight one-bit flags and the counter `hb_miss` (`spec/10_state.md` R22, R23): what sets and what
clears each. `dma_armed` and `adc_run` are written by the Capture Transport's calls, in Machine/Ops.lean. -/

namespace Sys2Proof.Machine

/-- `done <- 1`: the completion signal of STEP's last tick (R22, R23). -/
def State.signalDone (s : State) : State := { s with done := true }

/-- `done <- 0`: taken by DRAIN (R22). -/
def State.takeDone (s : State) : State := { s with done := false }

/-- `timer_run <- 1`: ARM_RESULT `Ready` (R22). -/
def State.startTimer (s : State) : State := { s with timerRun := true }

/-- `timer_run <- 0`: STEP's last tick (R22). -/
def State.stopTimer (s : State) : State := { s with timerRun := false }

/-- `hb_ack <- 1; connected <- 1`: HB_ACK (`spec/43_command_dispatch.md` R171). `hb_ack` is binary (R23). -/
def State.acknowledge (s : State) : State := { s with hbAck := true, connected := true }

/-- `hb_ack <- 0; hb_waiting <- 0; hb_miss <- 0`: HB_TAKE (`spec/60_exceptions.md` R220). -/
def State.takeAck (s : State) : State := { s with hbAck := false, hbWaiting := false, hbMiss := 0 }

/-- `hb_waiting <- 1`: HB_SEND (R219). -/
def State.openWindow (s : State) : State := { s with hbWaiting := true }

/-- `hb_waiting <- 0; hb_miss <- hb_miss + 1`: HB_TIMEOUT (R221). -/
def State.missWindow (s : State) : State := { s with hbWaiting := false, hbMiss := s.hbMiss + 1 }

/-- `connected <- 0; hb_miss <- 0`: HB_TIMEOUT as it posts `Disconnect` (R221). -/
def State.disconnect (s : State) : State := { s with connected := false, hbMiss := 0 }

end Sys2Proof.Machine
end

