-- ==== Sys2Proof/Machine/Ops.lean ====
section
/-! DEFINITION. The shared operations: calls to the collaborators (`spec/60_exceptions.md` R210 to R214), the report of
a failure, the return from the interrupt, transmit requests and the start of a frame, and the reset. -/

namespace Sys2Proof.Machine

open Config

/-- An agent's step as an outcome of the machine. -/
def outcome : Except Fault State → Host.Outcome State Fault Refusal
  | .ok s => .next s
  | .error f => .fault f

/-! ## Collaborators -/

/-- `emit_dac(ch, code)` (R210): a Bias Output write, recorded in `dac_code[ch]`. -/
def State.emitDac (ch : Channel) (code : DacCode) (s : State) : State :=
  match ch with
  | .ch0 => { s with dacCode0 := code, ports := s.ports ++ [.dacWr .ch0 code] }
  | .ch1 => { s with dacCode1 := code, ports := s.ports ++ [.dacWr .ch1 code] }

/-- `gain_wr(v)` (R212): a Gain Selector write, recorded in `gain_val`. -/
def State.gainWrite (v : Byte) (s : State) : State := { s with gainVal := v, ports := s.ports ++ [.gainWr v] }

/-- `amp_en <- b`, an output of the Front-End Gate (R211). -/
def State.setAmp (b : Bool) (s : State) : State := { s with ampEn := b }

/-- `dma_stop; adc_run <- 0` (`spec/42_acquisition_fsm.md` R148, 2a). -/
def State.dmaStop (s : State) : State := { s with adcRun := false, ports := s.ports ++ [.dmaStop] }

/-- `dma_drain; dma_armed <- 0` (R148; `spec/20_memory.md` R58): no transfer is in flight afterwards. -/
def State.dmaDrain (s : State) : State := { s with dmaArmed := false, ports := s.ports ++ [.dmaDrain] }

/-- `dma_arm(CAP_LEN)` (R148, 2d; `spec/20_memory.md` R59). -/
def State.dmaArm (s : State) : State :=
  { s with dmaWrIdx := 0, dmaArmed := true, ports := s.ports ++ [.dmaArm s.cfg.capLen] }

/-- `adc_start` (R148, 2e). -/
def State.adcStart (s : State) : State := { s with adcRun := true, ports := s.ports ++ [.adcStart] }

/-- `adc_stop` (R148, 4a). -/
def State.adcStop (s : State) : State := { s with adcRun := false, ports := s.ports ++ [.adcStop] }

/-- The DMA takes samples: `dma_armed`, `adc_run`, and room in `cap` (`spec/20_memory.md` R60). -/
def State.capturing (s : State) : Bool := s.dmaArmed && s.adcRun && decide (s.dmaWrIdx < s.cfg.capLen)

/-- CAP_WRITE's effect (R60): the sample `v` is written to `cap[dma_wr_idx]`. -/
def State.capture (v : Sample) (s : State) : State :=
  { s with
    cap := Mem.write s.cap s.dmaWrIdx v, dmaWrIdx := s.dmaWrIdx + 1, ports := s.ports ++ [.capWr s.dmaWrIdx v] }

/-- The CAP_WRITE steps that fall at one point inside a STEP (R63): each where the DMA takes samples at that point, and
none where it does not. -/
def State.captures : List Sample → State → State
  | [], s => s
  | v :: vs, s => if s.capturing then State.captures vs (s.capture v) else s

/-- GATE_OFF (R152): `emit_dac(active_ch, 0); amp_en <- 0`. -/
def State.gateOff (s : State) : State := (s.emitDac s.activeCh 0).setAmp false

/-! ## Failures and the interrupt -/

/-- `post(ev)` (`spec/00_scope.md` R9, `spec/10_state.md` R29). A failure is reported by exactly one post and by nothing
else: no handler runs and no state is saved (`spec/60_exceptions.md` R190). -/
def State.post (ev : StatusEvent) (s : State) : State := { s with statusOut := s.statusOut ++ [ev] }

/-- RECEIVER's return to its idle point: the received bytes are discarded (R205). -/
def State.dropFrame (s : State) : State := { s with rxLen := 0 }

/-- A receive failure (R191): the post, and the buffer discarded. -/
def State.receiveFailure (ev : StatusEvent) (s : State) : State := (s.post ev).dropFrame

/-- An ARM failure (R191, `spec/42_acquisition_fsm.md` R146): GATE_OFF, the state it leaves, the post. -/
def State.armFailure (st : SweepState) (s : State) : State :=
  ({ s.gateOff with sweepState := st } : State).post .errorGeneric

/-- What STEP returns to the step timer (R204). -/
inductive TickReturn where
  | continueTimer
  | stopTimer
deriving DecidableEq, Repr

/-- The return from the interrupt (R204): "stop timer" clears `timer_run`, "continue" changes nothing. STEP has saved
nothing and nothing is restored (R203). -/
def interruptReturn : TickReturn → State → State
  | .continueTimer, s => s
  | .stopTimer, s => s.stopTimer

/-! ## Transmission -/

/-- `txq <- txq + {q}` (`spec/10_state.md` R30). DESIGN CHOICE (log 32): R30 calls `txq` a set and does not say whether a
request equal to a pending one merges with it; here it does not, so both stay pending and each is served by a frame. -/
def State.addRequest (q : TxRequest) (s : State) : State := { s with txq := s.txq ++ [q] }

/-- `tx_busy <- 1` and the frame of the request at its byte 0 (`spec/40_frame_codec.md` R123). -/
def State.beginFrame (q : TxRequest) (frame : List Byte) (s : State) : State :=
  { s with txBusy := true, txCur := some q, txRest := frame }

/-! ## Reset -/

/-- Reset in any state (`spec/70_reset_and_hazards.md` R230, R232): every element takes its value of
`spec/10_state.md` R33. The configuration (R234), the far end's bytes at the Link (R31 (d)) and the model's schedule are
not elements of the block; `cap` becomes unspecified anew. -/
def State.applyReset (s : State) : State :=
  { State.resetWith s.cfg with
    linkRx := s.linkRx, capEpoch := s.capEpoch + 1, sched := s.sched, draws := s.draws }

end Sys2Proof.Machine
end

