-- ==== Sys2Proof/Machine/Planner.lean ====
section
/-! DEFINITION. The Sweep Planner (`spec/41_sweep_planner.md`): the ramp function and PLAN. -/

namespace Sys2Proof.Machine

open Config

/-- The natural nearest to `a / (2 * b)`, halves up but for those that the configuration rounds down
(`spec/93_implementation_defined.md` U4). -/
def roundHalf (p : GivenParams) (a b : Nat) : Nat :=
  let q := (a + b) / (2 * b)
  if (a + b) % (2 * b) = 0 ∧ q - 1 ∈ p.halvesDown then q - 1 else q

/-- `RAMP(M)[i]` (R132): `M / VFS_MV × i / S × DAC_MAX` to the nearest integer, in exact arithmetic. -/
def rampCode (p : GivenParams) (m i : Nat) : Nat := roundHalf p (2 * m * i * p.dacMax) (p.vfsMv * p.rampSteps)

/-- The RampTable of a target of `m` millivolts: `RAMP_LEN` DAC codes (R130). -/
def rampTable (p : GivenParams) (m : Nat) : List DacCode :=
  (List.range p.rampLen).map (fun i => BitVec.ofNat 12 (rampCode p m i))

/-- PLAN for a target of `m` millivolts: all entries of `ramp` are replaced (R130, R139). -/
def State.plan (m : Nat) (s : State) : State := { s with ramp := Mem.fill (rampTable s.cfg.toGivenParams m) }

/-- PLAN for `VCE` (R133). -/
def State.planVce (tenths : Nat) (s : State) : State := s.plan (100 * tenths)

/-- PLAN for `VBE` (R134). -/
def State.planVbe (s : State) : State := s.plan s.cfg.vbeTargetMv

end Sys2Proof.Machine
end

