-- ==== Sys2Proof/Machine/Sequencer.lean ====
section
/-! DEFINITION. The Acquisition State Machine (`spec/42_acquisition_fsm.md`): ARM, ARM_RESULT, STEP with its first and
last tick, DRAIN; and the capture write of the DMA (`spec/20_memory.md` R60). -/

namespace Sys2Proof.Machine

open Config

/-- ARM (R144). The settle delays are timing only (`spec/00_scope.md` R5). -/
def State.arm (s : State) : State :=
  let s1 : State := { s with stepIndex := 0 }
  let s2 := s1.setAmp true
  let s3 : State := { s2 with relay := s2.relayOf, gainSw := s2.gainSwOf }
  let s4 := match s3.reqKind with
    | .vce => s3
    | .vbe => s3.emitDac s3.cfg.chVbe 0
  { s4 with sweepState := .arming }

/-- ARM_RESULT (R146). -/
def armResult : ArmResult → State → State
  | .ready, s => { s.startTimer with sweepState := .running }
  | .hwFail, s => s.armFailure .faulted
  | .timerFail, s => s.armFailure .idle

/-- STEP's part 2b (R148): the gain value of the request, for `VCE` only. -/
def State.applyGain (s : State) : Except Fault State :=
  match s.reqKind with
  | .vbe => .ok s
  | .vce => match s.gainEntry with
    | .ok g => .ok (s.gainWrite g)
    | .error f => .error f

/-- STEP's part 2 (R148, R149): stop and drain stale DMA state, apply the gain, arm the Capture Transport, start the
ADC. -/
def State.openCapture (s : State) : Except Fault State :=
  match s.dmaStop.dmaDrain.applyGain with
  | .ok s' => .ok s'.dmaArm.adcStart
  | .error f => .error f

/-- STEP's part 4 at the last tick, a to f (R148, R151), but for the timer, which the return stops. -/
def State.closeCapture (s : State) : State :=
  let s1 := s.adcStop.dmaDrain.gateOff
  let s2 := match s1.reqKind with
    | .vce => s1.gainWrite s1.cfg.gainOff
    | .vbe => s1
  { s2.signalDone with sweepState := .draining }

/-- STEP's parts 3 and 4 (R148): advance, with the captures `vs` that fall between them, and end the sweep when the index
reaches `RAMP_LEN`. -/
def State.advance (vs : List Sample) (s : State) : State × TickReturn :=
  let s1 := State.captures vs { s with stepIndex := s.stepIndex + 1 }
  if s1.stepIndex = BitVec.ofNat 8 s1.cfg.rampLen then (s1.closeCapture, .stopTimer) else (s1, .continueTimer)

/-- STEP (R148) with the captures `c` between its actions (`spec/20_memory.md` R63), and what it returns to the timer. -/
def seqStep (c : InnerCaptures) (s : State) : Except Fault (State × TickReturn) :=
  match s.rampEntry with
  | .error f => .error f
  | .ok code =>
    let s1 := State.captures c.afterCode (s.emitDac s.activeCh code)
    if s.stepIndex = 0 then
      match s1.openCapture with
      | .error f => .error f
      | .ok s2 => .ok ((State.captures c.afterStart s2).advance c.afterIndex)
    else .ok (s1.advance c.afterIndex)

/-- TICK (`spec/60_exceptions.md` R200, R203, R204): the interrupt runs STEP to its end and returns. No task moves meanwhile
(`spec/20_memory.md` R63). -/
def tick (c : InnerCaptures) (s : State) : Except Fault State :=
  match seqStep c s with
  | .error f => .error f
  | .ok (s', r) => .ok (interruptReturn r s')

/-- DRAIN (R153). -/
def drain (s : State) : State := ({ s.takeDone with sweepState := .complete } : State).addRequest .sweep

/-- CAP_WRITE (`spec/20_memory.md` R60) of the sample `v`. -/
def capWrite (v : Sample) (s : State) : State := s.capture v

end Sys2Proof.Machine
end

