-- ==== Sys2Proof/Machine/Commands.lean ====
section
/-! DEFINITION. The inbound commands (`spec/43_command_dispatch.md` R171 to R178): the meaning of each inbound row of the
opcode table, in the state from which DISPATCH has removed the Instruction. -/

namespace Sys2Proof.Machine

/-- `sweep_state` in {Idle, Faulted}: the states in which a LOAD or a START is accepted (R176). -/
def State.acceptsSweep (s : State) : Bool := s.sweepState == .idle || s.sweepState == .faulted

/-- HB_ACK, command `0` (R171). The argument is ignored. -/
def execHbAck (_arg : List Byte) (s : State) : Host.Outcome State Fault Refusal := .next s.acknowledge

/-- The request registers and the table of an accepted `a` command (R172, lines 3 to 5). -/
def State.loadVce (a g c : Nat) (s : State) : State :=
  { ({ s with reqKind := .vce, reqAmp := BitVec.ofNat 6 a, reqGain := BitVec.ofNat 8 g,
              reqSamples := BitVec.ofNat 8 c } : State).planVce a with reqValid := true }

/-- LOAD_VCE, command `a` (R172): the rejection for an active sweep comes before the parse. -/
def execLoadVce (arg : List Byte) (s : State) : Host.Outcome State Fault Refusal :=
  if s.acceptsSweep then
    match parseVceArg s.cfg.argDelim s.cfg.ampMax s.cfg.gainCount arg with
    | none => .next (s.post .errorReceive)
    | some (a, g, c) => .next (s.loadVce a g c)
  else .next s

/-- LOAD_VBE, command `b` (R173). The argument is ignored; `req_amp`, `req_gain` and `req_samples` keep their values. -/
def execLoadVbe (_arg : List Byte) (s : State) : Host.Outcome State Fault Refusal :=
  if s.acceptsSweep then .next { ({ s with reqKind := .vbe } : State).planVbe with reqValid := true }
  else .next s

/-- START, command `c` (R174): the three silent rejections (R176, R177), then ARM. The argument is ignored. -/
def execStart (_arg : List Byte) (s : State) : Host.Outcome State Fault Refusal :=
  if s.acceptsSweep ∧ s.reqValid ∧ s.connected then .next s.arm else .next s

/-- An unrecognized command (R175): dropped with no effect. -/
def execUnrecognized (_cmd : Byte) (_arg : List Byte) (s : State) : Host.Outcome State Fault Refusal := .next s

end Sys2Proof.Machine
end

