-- ==== Sys2Proof/Machine/Transmit.lean ====
section
/-! DEFINITION. The outbound rows of the opcode table (`spec/40_frame_codec.md` R118 to R121): what SERIALIZER does when it
serves the request, in the state from which TX_BEGIN (R123) has removed it. The frame is then sent byte by byte. -/

namespace Sys2Proof.Machine

/-- SERIALIZER starts the frame of a status message (R120). -/
def State.sendStatus (ev : StatusEvent) (s : State) : State :=
  s.beginFrame (.status ev) (encodeFrame s.cfg.toGivenParams (statusPayload s.cfg.toGivenParams ev))

/-- SERIALIZER starts a sweep frame of kind `k` (R121). -/
def State.sendSweep (k : CurveKind) (samples : List Sample) (s : State) : State :=
  s.beginFrame .sweep (encodeFrame s.cfg.toGivenParams (sweepPayload k samples))

/-- TX_HEARTBEAT (R119): the frame of `c,0`. -/
def execTxHeartbeat (s : State) : Host.Outcome State Fault Refusal :=
  .next (s.beginFrame .heartbeat (encodeFrame s.cfg.toGivenParams heartbeatPayload))

/-- TX_STATUS_OK (R120). -/
def execTxStatusOk (s : State) : Host.Outcome State Fault Refusal := .next (s.sendStatus .ok)

/-- TX_STATUS_ERRORGENERIC (R120). -/
def execTxStatusErrorGeneric (s : State) : Host.Outcome State Fault Refusal := .next (s.sendStatus .errorGeneric)

/-- TX_STATUS_TRANSMIT (R120). -/
def execTxStatusTransmit (s : State) : Host.Outcome State Fault Refusal := .next (s.sendStatus .transmit)

/-- TX_STATUS_RECEIVE (R120). -/
def execTxStatusReceive (s : State) : Host.Outcome State Fault Refusal := .next (s.sendStatus .receive)

/-- TX_STATUS_TIMEOUT (R120). -/
def execTxStatusTimeout (s : State) : Host.Outcome State Fault Refusal := .next (s.sendStatus .timeout)

/-- TX_STATUS_OVERFLOW (R120). -/
def execTxStatusOverflow (s : State) : Host.Outcome State Fault Refusal := .next (s.sendStatus .overflow)

/-- TX_STATUS_ERRORRECEIVE (R120). -/
def execTxStatusErrorReceive (s : State) : Host.Outcome State Fault Refusal := .next (s.sendStatus .errorReceive)

/-- TX_STATUS_DISCONNECT (R120). -/
def execTxStatusDisconnect (s : State) : Host.Outcome State Fault Refusal := .next (s.sendStatus .disconnect)

/-- TX_SWEEP_VCE (R121): kind character `e`, then the packed samples. -/
def execTxSweepVce (samples : List Sample) (s : State) : Host.Outcome State Fault Refusal :=
  .next (s.sendSweep .vce samples)

/-- TX_SWEEP_VBE (R121): kind character `f`, then the packed samples. -/
def execTxSweepVbe (samples : List Sample) (s : State) : Host.Outcome State Fault Refusal :=
  .next (s.sendSweep .vbe samples)

/-- TX_TEXT (R118): the frame of the text, of any length and any bytes. -/
def execTxText (text : List Byte) (s : State) : Host.Outcome State Fault Refusal :=
  .next (s.beginFrame (.text text) (encodeFrame s.cfg.toGivenParams text))

end Sys2Proof.Machine
end

