-- ==== Sys2Proof/Machine/Dispatch.lean ====
section
/-! DEFINITION. One arm per instruction: the meaning it has. -/

namespace Sys2Proof.Machine

def exec (i : Instr) (s : State) : Host.Outcome State Fault Refusal :=
  match i with
  | .hbAck arg => Sys2Proof.Machine.execHbAck arg s
  | .loadVce arg => Sys2Proof.Machine.execLoadVce arg s
  | .loadVbe arg => Sys2Proof.Machine.execLoadVbe arg s
  | .start arg => Sys2Proof.Machine.execStart arg s
  | .unrecognized cmd arg => Sys2Proof.Machine.execUnrecognized cmd arg s
  | .txHeartbeat => Sys2Proof.Machine.execTxHeartbeat s
  | .txStatusOk => Sys2Proof.Machine.execTxStatusOk s
  | .txStatusErrorGeneric => Sys2Proof.Machine.execTxStatusErrorGeneric s
  | .txStatusTransmit => Sys2Proof.Machine.execTxStatusTransmit s
  | .txStatusReceive => Sys2Proof.Machine.execTxStatusReceive s
  | .txStatusTimeout => Sys2Proof.Machine.execTxStatusTimeout s
  | .txStatusOverflow => Sys2Proof.Machine.execTxStatusOverflow s
  | .txStatusErrorReceive => Sys2Proof.Machine.execTxStatusErrorReceive s
  | .txStatusDisconnect => Sys2Proof.Machine.execTxStatusDisconnect s
  | .txSweepVce samples => Sys2Proof.Machine.execTxSweepVce samples s
  | .txSweepVbe samples => Sys2Proof.Machine.execTxSweepVbe samples s
  | .txText text => Sys2Proof.Machine.execTxText text s

end Sys2Proof.Machine
end

