-- ==== Sys2Proof/Machine/Heartbeat.lean ====
section
/-! DEFINITION. HEARTBEAT (`spec/60_exceptions.md` R219 to R221). -/

namespace Sys2Proof.Machine

/-- HB_SEND (R219): the liveness frame is requested and its window opens. `hb_ack` is not cleared. -/
def hbSend (s : State) : State := (s.addRequest .heartbeat).openWindow

/-- HB_TAKE (R220). -/
def hbTake (s : State) : State := s.takeAck

/-- HB_TIMEOUT (R221). -/
def hbTimeout (s : State) : State :=
  let s1 := s.missWindow
  if s1.cfg.hbMissN ≤ s1.hbMiss then (s1.post .disconnect).disconnect else s1

end Sys2Proof.Machine
end

