-- ==== Sys2Proof/Machine/Receiver.lean ====
section
/-! DEFINITION. RECEIVER (`spec/40_frame_codec.md` part A, `spec/60_exceptions.md` R196): RX_BYTE, RX_FRAME, RX_TIMEOUT, and
the far end's byte at the Link. -/

namespace Sys2Proof.Machine

open Config

/-- LINK_RX: the Link holds bytes in order until RECEIVER polls them; none is lost (`spec/60_exceptions.md` R214). -/
def linkDeliver (b : Byte) (s : State) : State := { s with linkRx := s.linkRx ++ [b] }

/-- RX_BYTE of the byte `b` (R101): stored at index `rx_len`. -/
def storeByte (b : Byte) (s : State) : Except Fault State :=
  match Mem.put s.cfg.frameCap .rxBufIndex s.rxBuf s.rxLen.toNat b with
  | .error f => .error f
  | .ok m =>
    let s1 : State := { s with rxBuf := m, rxLen := s.rxLen + 1 }
    .ok (if b ≠ s1.cfg.termIn ∧ s1.rxLen.toNat = s1.cfg.frameCap then s1.receiveFailure .overflow else s1)

/-- RX_BYTE (R101): the last byte, which its enabling condition reads, is no terminator, and the head of the Link is stored. -/
def rxByte (s : State) : Except Fault State :=
  match s.lastByte with
  | .error f => .error f
  | .ok _ => match s.linkRx with
    | [] => .ok s
    | b :: rest => storeByte b { s with linkRx := rest }

/-- RX_FRAME (R102): DECODE of the buffer; every DecodeError is reported as `ErrorReceive`. -/
def rxFrame (s : State) : Except Fault State :=
  match s.frameBytes with
  | .error f => .error f
  | .ok f =>
    match decodeFrame s.cfg.toGivenParams f with
    | .ok i => .ok { s.dropFrame with iq := s.iq ++ [i] }
    | .error _ => .ok (s.receiveFailure .errorReceive)

/-- RX_TIMEOUT (R196): its enabling condition reads the last byte. -/
def rxTimeout (s : State) : Except Fault State :=
  match s.lastByte with
  | .error f => .error f
  | .ok _ => .ok (s.receiveFailure .timeout)

end Sys2Proof.Machine
end

