-- ==== Sys2Proof/Machine/Agents.lean ====
section
/-! DEFINITION. The agents' steps: when each event is enabled, what it does, and that a disabled one does nothing
(`spec/00_scope.md` R6; the enabling conditions are the rules' own). -/

namespace Sys2Proof.Machine

open Config

/-! ## SERIALIZER (`spec/40_frame_codec.md` part D) -/

/-- Who makes a request (`spec/20_memory.md` R66): one requester per kind (log 12). -/
inductive Requester where
  | heartbeat
  | statusConsumer
  | textProducer
  | dispatcher
deriving DecidableEq, Repr

/-- The requester of a request: HEARTBEAT (R119), the status consumer (R120), another producer (R118), DISPATCHER
(R121). -/
def requester : TxRequest → Requester
  | .heartbeat => .heartbeat
  | .status _ => .statusConsumer
  | .text _ => .textProducer
  | .sweep => .dispatcher

/-- The k-th pending request may be served: no earlier one is of the same requester (R66, R123). -/
def servable (txq : List TxRequest) (k : Nat) : Bool :=
  match txq[k]? with
  | none => false
  | some q => (txq.take k).all (fun p => requester p != requester q)

/-- The instruction a request stands for; a sweep frame is of the loaded kind and reads `cap` (R121). -/
def requestInstr (s : State) : TxRequest → Instr
  | .heartbeat => .txHeartbeat
  | .status ev => statusInstr ev
  | .text t => .txText t
  | .sweep => match s.reqKind with
    | .vce => .txSweepVce s.capSamples
    | .vbe => .txSweepVbe s.capSamples

/-- TX_BEGIN (R123): the chosen request leaves `txq` and its instruction is run. -/
def txBegin (k : Nat) (s : State) : Host.Outcome State Fault Refusal :=
  match s.txq[k]? with
  | none => .next s
  | some q => exec (requestInstr s q) { s with txq := s.txq.eraseIdx k }

/-- The Link accepts the next byte of the frame (R124, R125). -/
def txByte (s : State) : State :=
  match s.txRest with
  | [] => s
  | b :: rest => { s with txOut := s.txOut ++ [b], txRest := rest }

/-- TX_DONE (R124): after a sweep frame the state is `Idle`. -/
def txDone (s : State) : State :=
  { s with
    txBusy := false
    txCur := none
    sweepState := if s.txCur = some .sweep then .idle else s.sweepState }

/-! ## DISPATCHER -/

/-- The DISPATCHER is not inside ARM and not inside a sweep transmission (`spec/43_command_dispatch.md` R170). -/
def State.dispatcherFree (s : State) : Bool := s.sweepState != .arming && s.sweepState != .complete

/-- DISPATCH (R170): the Instruction at the head of `iq` is removed and run. -/
def dispatch (s : State) : Host.Outcome State Fault Refusal :=
  match s.iq with
  | [] => .next s
  | i :: rest => exec (commandInstr i) { s with iq := rest }

/-! ## All agents -/

/-- RX_FRAME has somewhere to put its result (`spec/40_frame_codec.md` R102): DECODE fails, or `iq` is not full. A buffer
whose read faults is left to the step, which faults. -/
def State.frameTakable (s : State) : Bool :=
  match s.frameBytes with
  | .error _ => true
  | .ok f => match decodeFrame s.cfg.toGivenParams f with
    | .ok _ => decide (s.iq.length < s.cfg.iqDepth)
    | .error _ => true

/-- The enabling condition of an event, as its rule gives it. A condition whose read of `rx_buf` faults leaves the event
enabled, so that its step raises the fault (log 29). -/
def enabled : Event → State → Bool
  | .linkRx _, _ => true
  | .rxByte, s => !s.linkRx.isEmpty && !s.frameComplete
  | .rxFrame, s => s.lastByteFaults || (s.frameComplete && s.frameTakable)
  | .rxExpire, s => (s.rxLen != 0 || s.cfg.idleTimeout) && !s.frameComplete
  | .dispatch, s => !s.iq.isEmpty && s.dispatcherFree
  | .armResult _, s => s.sweepState == .arming
  | .tick _, s => s.timerRun
  | .capWrite _, s => s.capturing
  | .drain, s => s.done && s.dispatcherFree
  | .txBegin k, s => !s.txBusy && servable s.txq k
  | .txByte, s => s.txBusy && !s.txRest.isEmpty
  | .txDone, s => s.txBusy && s.txRest.isEmpty
  | .hbKick, s => !s.hbWaiting
  | .hbTake, s => s.hbWaiting && s.hbAck
  | .hbExpire, s => s.hbWaiting && !s.hbAck
  | .textReq _, _ => true
  | .statusReq _, _ => true
  | .infoPost ev, s => s.cfg.infoPosts && ev.isInfo
  | .rst, _ => true

/-- What an enabled event does. -/
def fire : Event → State → Host.Outcome State Fault Refusal
  | .linkRx b, s => .next (linkDeliver b s)
  | .rxByte, s => outcome (rxByte s)
  | .rxFrame, s => outcome (rxFrame s)
  | .rxExpire, s => outcome (rxTimeout s)
  | .dispatch, s => dispatch s
  | .armResult r, s => .next (armResult r s)
  | .tick c, s => outcome (tick c s)
  | .capWrite v, s => .next (capWrite v s)
  | .drain, s => .next (drain s)
  | .txBegin k, s => txBegin k s
  | .txByte, s => .next (txByte s)
  | .txDone, s => .next (txDone s)
  | .hbKick, s => .next (hbSend s)
  | .hbTake, s => .next (hbTake s)
  | .hbExpire, s => .next (hbTimeout s)
  | .textReq t, s => .next (s.addRequest (.text t))
  | .statusReq ev, s => .next (s.addRequest (.status ev))
  | .infoPost ev, s => .next (s.post ev)
  | .rst, s => .next s.applyReset

/-- One event: a disabled one changes nothing (DESIGN CHOICE, log 4). -/
def runEvent (e : Event) (s : State) : Host.Outcome State Fault Refusal := if enabled e s then fire e s else .next s

end Sys2Proof.Machine
end

