-- ==== Sys2Proof/Machine/Fetch.lean ====
section
/-! DEFINITION. Where the next instruction comes from: the agent's step chosen next, and the placing of an instruction so
that the very next step runs it (an Instruction at the head of `iq` for DISPATCH, a request in `txq` for TX_BEGIN). -/

namespace Sys2Proof.Machine

open Config

/-- The event of this step and the state without it: the head of the schedule, else a free choice (log 3). -/
def nextEvent (s : State) : Event × State :=
  match s.sched with
  | e :: rest => (e, { s with sched := rest })
  | [] => (freeEvent s.draws, { s with draws := s.draws + 1 })

/-- A command at the head of `iq`, the DISPATCHER able to take it, DISPATCH next. -/
def placeCommand (cmd : Byte) (arg : List Byte) (s : State) : State :=
  { s with
    iq := { cmd := cmd, arg := arg } :: s.iq
    sweepState := if s.dispatcherFree then s.sweepState else .idle
    sched := .dispatch :: s.sched }

/-- A request at the head of `txq`, SERIALIZER idle, TX_BEGIN of it next. -/
def placeRequest (q : TxRequest) (s : State) : State :=
  { s with txq := q :: s.txq, txBusy := false, txCur := none, txRest := [], sched := .txBegin 0 :: s.sched }

/-- The configuration with `CAP_LEN = n`, where `n` is a legal `CAP_LEN`. -/
def withCapLen (p : Params) (n : Nat) : Params :=
  if h : n % 2 = 0 ∧ 2 ≤ n then
    { p with capLen := n, legal := { p.legal with capLen_even := h.1, capLen_min := h.2 } }
  else p

/-- A `Sweep` request of kind `k` with `samples` in `cap`, as after a completed sweep. -/
def placeSweep (k : CurveKind) (samples : List Sample) (s : State) : State :=
  { placeRequest .sweep s with
    cfg := withCapLen s.cfg samples.length
    reqKind := k
    cap := Mem.fill samples
    sweepState := .complete }

/-- `s` with the instruction stored where the next step fetches it. -/
def place : Instr → State → State
  | .hbAck arg, s => placeCommand 0x30 arg s
  | .loadVce arg, s => placeCommand 0x61 arg s
  | .loadVbe arg, s => placeCommand 0x62 arg s
  | .start arg, s => placeCommand 0x63 arg s
  | .unrecognized cmd arg, s => placeCommand cmd arg s
  | .txHeartbeat, s => placeRequest .heartbeat s
  | .txStatusOk, s => placeRequest (.status .ok) s
  | .txStatusErrorGeneric, s => placeRequest (.status .errorGeneric) s
  | .txStatusTransmit, s => placeRequest (.status .transmit) s
  | .txStatusReceive, s => placeRequest (.status .receive) s
  | .txStatusTimeout, s => placeRequest (.status .timeout) s
  | .txStatusOverflow, s => placeRequest (.status .overflow) s
  | .txStatusErrorReceive, s => placeRequest (.status .errorReceive) s
  | .txStatusDisconnect, s => placeRequest (.status .disconnect) s
  | .txSweepVce samples, s => placeSweep .vce samples s
  | .txSweepVbe samples, s => placeSweep .vbe samples s
  | .txText text, s => placeRequest (.text text) s

/-- `s` with the instruction of an opcode-table word placed; a word that is no instruction places nothing. -/
def placeWord (nbits w : Nat) (s : State) : State :=
  match decodeTableWord nbits w with
  | some i => place i s
  | none => s

end Sys2Proof.Machine
end

