-- ==== Sys2Proof/Machine/Fairness.lean ====
section
/-! DEFINITION. Runs without end, and the fairness the spec has a model assume of them: weak fairness of every task agent and
nothing more (`spec/20_memory.md` R69), with the DISPATCHER's two choices apart (`spec/42_acquisition_fsm.md` R154), and of
the step timer (`spec/60_exceptions.md` R200). One step of the machine promises none of it: which event comes next is free
(log 3). A claim that something happens in the end is a claim about every `FairRun`. -/

namespace Sys2Proof.Machine

/-- A run: state `st n` takes the event `ev n` to state `st (n + 1)`. Every finite part of it is what the machine does with
those events scheduled. -/
def Run (st : Nat → State) (ev : Nat → Event) : Prop := ∀ n, runEvent (ev n) (st n) = .next (st (n + 1))

/-- What may not be put off for ever. -/
inductive Duty where
  /-- The task agent RECEIVER moves (R69). -/
  | receiver
  /-- The task agent DISPATCHER moves (R69). -/
  | dispatcher
  /-- The task agent HEARTBEAT moves (R69). -/
  | heartbeat
  /-- The task agent SERIALIZER moves (R69). -/
  | serializer
  /-- The Instruction at the head of `iq` is dispatched (R154). -/
  | dispatch
  /-- The completion signal is taken (R154). -/
  | drain
  /-- The step timer ticks (R200). -/
  | tick
deriving DecidableEq, Repr

/-- The events that do a duty: of a task agent, the steps whose rules name it. LINK_RX, FRONT_END and the DMA are no tasks,
and the Link may never accept a byte (`spec/40_frame_codec.md` R125): nothing is promised of `linkRx`, `armResult`,
`capWrite`, `txByte`, `infoPost`, the requests from outside and reset (log 19). -/
def Duty.doneBy (d : Duty) : Event → Bool
  | .rxByte => d == .receiver
  | .rxFrame => d == .receiver
  | .rxExpire => d == .receiver
  | .dispatch => d == .dispatcher || d == .dispatch
  | .drain => d == .dispatcher || d == .drain
  | .hbKick => d == .heartbeat
  | .hbTake => d == .heartbeat
  | .hbExpire => d == .heartbeat
  | .txBegin _ => d == .serializer
  | .txDone => d == .serializer
  | .tick _ => d == .tick
  | .linkRx _ => false
  | .armResult _ => false
  | .capWrite _ => false
  | .txByte => false
  | .textReq _ => false
  | .statusReq _ => false
  | .infoPost _ => false
  | .rst => false

/-- An event that does the duty is enabled. -/
def Duty.ready (d : Duty) (s : State) : Prop := ∃ e, d.doneBy e = true ∧ enabled e s = true

/-- Weak fairness: a duty that stays ready is done in the end. -/
def WeaklyFair (d : Duty) (st : Nat → State) (ev : Nat → Event) : Prop :=
  ∀ n, (∀ m, n ≤ m → d.ready (st m)) → ∃ m, n ≤ m ∧ d.doneBy (ev m) = true ∧ enabled (ev m) (st m) = true

/-- A run in which no task agent, no choice of the DISPATCHER and no tick is put off for ever (R69, R154, R200). -/
def FairRun (st : Nat → State) (ev : Nat → Event) : Prop := Run st ev ∧ ∀ d, WeaklyFair d st ev

end Sys2Proof.Machine
end

