-- ==== Sys2Proof/Safety.lean ====
section
/-! DEFINITION. What counts as a safe run, in the terms claims use: the invariants of `spec/10_state.md` R36 (`SpecInv`) and
the facts that make them inductive (`Inv`), the transitions of `spec/42_acquisition_fsm.md` R141, the samples
that a STEP's captures take, quiescence (`spec/70_reset_and_hazards.md` R252), and the codes of a ramp. -/

namespace Sys2Proof.Machine

open Config

/-- The invariants (I-a) to (I-g) of `spec/10_state.md` R36. -/
structure SpecInv (s : State) : Prop where
  running_timer : s.sweepState = .running → s.timerRun = true ∧ s.stepIndex.toNat < s.cfg.rampLen
  timer_running : s.timerRun = true → s.sweepState = .running
  armed_running : s.dmaArmed = true → s.sweepState = .running ∧ 1 ≤ s.stepIndex.toNat
  done_draining : s.done = true → s.sweepState = .draining
  active_valid : s.sweepState ∈ [.arming, .running, .draining, .complete] → s.reqValid = true
  sweep_request : (.sweep ∈ s.txq ∨ s.txCur = some .sweep) ↔ s.sweepState = .complete
  dma_index : s.dmaWrIdx ≤ s.cfg.capLen

/-- The target of the loaded request in millivolts (`spec/41_sweep_planner.md` R133, R134). -/
def State.rampTarget (s : State) : Nat :=
  match s.reqKind with
  | .vce => 100 * s.reqAmp.toNat
  | .vbe => s.cfg.vbeTargetMv

/-- The code on the DAC channel that the loaded request does not drive. -/
def State.inactiveCode (s : State) : DacCode :=
  match s.activeCh with
  | .ch0 => s.dacCode1
  | .ch1 => s.dacCode0

/-- The receive buffer holds what `rx_len` says (`spec/10_state.md` R13; `spec/40_frame_codec.md` R101): the bytes below
`rx_len` have values, and a full buffer ends in the terminator. -/
structure RxInv (s : State) : Prop where
  len_le : s.rxLen.toNat ≤ s.cfg.frameCap
  stored : ∀ i, i < s.rxLen.toNat → (Mem.read s.rxBuf i).isSome = true
  full_terminated : s.rxLen.toNat = s.cfg.frameCap → s.lastByte = .ok (some s.cfg.termIn)

/-- Facts of every reachable state: R36, the receive buffer, the loaded request with its table (`spec/10_state.md` R16),
the gating of the front end (`spec/42_acquisition_fsm.md` R142, R152), the capture window (R156), the transmitter, the
ranges of the counters, and the canonical form of the memories. -/
structure Inv (s : State) : Prop where
  spec : SpecInv s
  rx : RxInv s
  ramp_loaded : s.reqValid = true → s.ramp = Mem.fill (rampTable s.cfg.toGivenParams s.rampTarget)
  amp_le : s.reqAmp.toNat ≤ s.cfg.ampMax
  gain_lt : s.reqValid = true → s.reqKind = .vce → s.reqGain.toNat < s.cfg.gainCount
  draining_done : s.sweepState = .draining → s.done = true
  arming_index : s.sweepState = .arming → s.stepIndex = 0
  capture_window : s.sweepState = .running → 1 ≤ s.stepIndex.toNat → s.dmaArmed = true ∧ s.adcRun = true
  adc_armed : s.adcRun = true → s.dmaArmed = true
  amp_gate : s.ampEn = true ↔ s.sweepState = .arming ∨ s.sweepState = .running
  dac_gate : s.sweepState ≠ .running → s.dacCode0 = 0 ∧ s.dacCode1 = 0
  dac_inactive : s.inactiveCode = 0
  index_le : s.stepIndex.toNat ≤ s.cfg.rampLen
  tx_current : s.txBusy = s.txCur.isSome
  tx_idle : s.txBusy = false → s.txRest = []
  sweep_once : s.txq.count .sweep + (if s.txCur = some .sweep then 1 else 0) ≤ 1
  iq_le : s.iq.length ≤ s.cfg.iqDepth
  args_le : ∀ i, i ∈ s.iq → i.arg.length ≤ s.cfg.argCap
  miss_lt : s.hbMiss < s.cfg.hbMissN
  rxBuf_wf : Mem.wf s.cfg.frameCap s.rxBuf = true
  ramp_wf : Mem.wf s.cfg.rampLen s.ramp = true
  cap_wf : Mem.wf s.cfg.capLen s.cap = true

/-- The transitions of `sweep_state` with their triggers (`spec/42_acquisition_fsm.md` R141); a tick inside `Running`
changes only `step_index`. -/
inductive Transition : SweepState → Event → SweepState → Prop where
  | startFromIdle : Transition .idle .dispatch .arming
  | startFromFaulted : Transition .faulted .dispatch .arming
  | ready : Transition .arming (.armResult .ready) .running
  | hwFail : Transition .arming (.armResult .hwFail) .faulted
  | timerFail : Transition .arming (.armResult .timerFail) .idle
  | lastTick (c : InnerCaptures) : Transition .running (.tick c) .draining
  | drained : Transition .draining .drain .complete
  | sent : Transition .complete .txDone .idle

/-- The samples taken at one point of a STEP: as many of those offered as `cap` has room for, where the capture runs
(`spec/20_memory.md` R60, R63). -/
def State.captured (vs : List Sample) (s : State) : List Sample :=
  if s.dmaArmed = true ∧ s.adcRun = true then vs.take (s.cfg.capLen - s.dmaWrIdx) else []

/-- The transfers of samples taken from position `i` on. -/
def capCalls (i : Nat) (w : List Sample) : List PortCall := (w.zipIdx i).map fun x => .capWr x.2 x.1

/-- A quiescent state (`spec/70_reset_and_hazards.md` R252). -/
def State.quiescent (s : State) : Bool :=
  s.rxLen == 0 && s.iq.isEmpty && s.txq.isEmpty && !s.txBusy && !s.done && !s.hbWaiting
    && (s.sweepState == .idle || s.sweepState == .faulted)

/-- `c` is a natural nearest to the exact value `m / VFS_MV × i / S × DAC_MAX` (`spec/41_sweep_planner.md` R132, R135); of
two nearest, the one that the configuration chooses (`spec/93_implementation_defined.md` U4). -/
def NearestCode (p : GivenParams) (m i c : Nat) : Prop :=
  2 * m * i * p.dacMax ≤ (2 * c + 1) * (p.vfsMv * p.rampSteps) ∧
  2 * c * (p.vfsMv * p.rampSteps) ≤ 2 * m * i * p.dacMax + p.vfsMv * p.rampSteps ∧
  ∀ k, 2 * m * i * p.dacMax = (2 * k + 1) * (p.vfsMv * p.rampSteps) → c = if k ∈ p.halvesDown then k else k + 1

/-- The inbound rows of the opcode table. -/
def isInbound : Instr → Bool
  | .hbAck _ => true
  | .loadVce _ => true
  | .loadVbe _ => true
  | .start _ => true
  | .unrecognized _ _ => true
  | .txHeartbeat => false
  | .txStatusOk => false
  | .txStatusErrorGeneric => false
  | .txStatusTransmit => false
  | .txStatusReceive => false
  | .txStatusTimeout => false
  | .txStatusOverflow => false
  | .txStatusErrorReceive => false
  | .txStatusDisconnect => false
  | .txSweepVce _ => false
  | .txSweepVbe _ => false
  | .txText _ => false

end Sys2Proof.Machine
end

