-- ==== Sys2Proof/Certificates/Slice0/Obligations.lean ====
section
/-! DEFINITION. The statements for the provers. Each docstring says which rule of `spec/` it formalises; where the rule is
marked as the spec's own decision or derivation, it says so. `{ s with … }` states the frame: every field not named is
unchanged. -/

open Sys2Proof Sys2Proof.Machine Sys2Proof.Config

/-! ## Running the instruction that is fetched -/

/-- `spec/43_command_dispatch.md` R170: DISPATCH is enabled while `iq` is not empty and the DISPATCHER is not inside ARM or a
sweep transmission; it removes the head of `iq` and runs the instruction its `cmd` alone selects, which is consumed once. -/
def Obligations.DispatchRunsHeadOfQueue : Prop :=
  (∀ s : State, enabled .dispatch s = true ↔ s.iq ≠ [] ∧ s.sweepState ≠ .arming ∧ s.sweepState ≠ .complete) ∧
  (∀ (s : State) (r : List Event) (i : Instruction) (q : List Instruction), s.sched = .dispatch :: r → s.iq = i :: q →
    s.sweepState ≠ .arming → s.sweepState ≠ .complete →
    step s = exec (commandInstr i) { s with sched := r, iq := q }) ∧
  (∀ (s t : State) (i : Instruction), exec (commandInstr i) s = .next t → t.iq = s.iq) ∧
  (∀ a, commandInstr ⟨0x30, a⟩ = .hbAck a ∧ commandInstr ⟨0x61, a⟩ = .loadVce a ∧
    commandInstr ⟨0x62, a⟩ = .loadVbe a ∧ commandInstr ⟨0x63, a⟩ = .start a) ∧
  (∀ c a, c ≠ 0x30 → c ≠ 0x61 → c ≠ 0x62 → c ≠ 0x63 → commandInstr ⟨c, a⟩ = .unrecognized c a)

/-- A step takes the head of the schedule, or a free choice where nothing is scheduled; an event that its rule does not
enable leaves everything but the schedule as it was; and the states of a run follow one another as the machine's steps do
under the schedule of its events. The model's choices (log 3, log 4): the spec says only when a step is enabled, and that
the agents interleave in any order (`spec/00_scope.md` R6). -/
def Obligations.DisabledEventHolds : Prop :=
  (∀ (s : State) (e : Event) (r : List Event), s.sched = e :: r → enabled e s = false →
    step s = .next { s with sched := r }) ∧
  (∀ s : State, s.sched = [] → step s = runEvent (freeEvent s.draws) { s with draws := s.draws + 1 }) ∧
  (∀ (st : Nat → State) (ev : Nat → Event), Run st ev → ∀ (n : Nat) (r : List Event),
    Host.Core.run Sys2Proof.core n ({ st 0 with sched := (List.range n).map ev ++ r } : State) =
      .next ({ st n with sched := r } : State))

/-- A step runs the decoded instruction: the complete frame in `rx_buf` that decodes to the inbound `i` is taken by
RX_FRAME, and the DISPATCH that follows is `exec i` (`spec/40_frame_codec.md` R102, `spec/43_command_dispatch.md` R170). -/
def Obligations.ReceivedFrameIsRun : Prop :=
  ∀ (s : State) (r : List Event) (f : List Byte) (i : Instr),
    s.sched = .rxFrame :: .dispatch :: r → s.iq = [] → s.sweepState ≠ .arming → s.sweepState ≠ .complete →
    s.lastByte = .ok (some s.cfg.termIn) → s.frameBytes = .ok f → decode s.cfg.toGivenParams f = .ok i → isInbound i = true →
    ∃ s1, step s = .next s1 ∧ step s1 = exec i { s with sched := r, rxLen := 0 }

/-- TX_BEGIN serves the chosen request by the instruction it stands for, keeps the order of one requester, and does nothing
while a frame is being sent (`spec/40_frame_codec.md` R123, `spec/20_memory.md` R66; the spec's decision D49). One
requester per kind of request, and that a disabled event holds, are the model's (log 12, log 4). -/
def Obligations.TxBeginServesRequest : Prop :=
  (∀ (s : State) (r : List Event) (k : Nat), s.sched = .txBegin k :: r →
    (∀ q, s.txBusy = false → s.txq[k]? = some q →
      (∀ j p, j < k → s.txq[j]? = some p → requester p ≠ requester q) →
      step s = exec (requestInstr s q) { s with sched := r, txq := s.txq.eraseIdx k }) ∧
    (s.txBusy = true ∨ s.txq[k]? = none ∨
      (∃ q j p, s.txq[k]? = some q ∧ j < k ∧ s.txq[j]? = some p ∧ requester p = requester q) →
      step s = .next { s with sched := r })) ∧
  (∀ (s : State), requestInstr s .heartbeat = .txHeartbeat ∧ (∀ t, requestInstr s (.text t) = .txText t) ∧
    (∀ ev, requestInstr s (.status ev) = statusInstr ev) ∧
    (s.reqKind = .vce → requestInstr s .sweep = .txSweepVce s.capSamples) ∧
    (s.reqKind = .vbe → requestInstr s .sweep = .txSweepVbe s.capSamples))

/-! ## Encoding -/

/-- Decode and encode agree on every row of the opcode table, for every configuration whose format can be read back, R4's
among them (`spec/30_encoding.md` R71, R72, R79, R80; `readable` is the model's condition, log 2). -/
def Obligations.DecodeInvertsEncode : Prop :=
  readable given = true ∧
  ∀ (p : GivenParams) (i : Instr), readable p = true → wellFormed p i = true → decode p (encode p i) = .ok i

/-- A few frames of the opcode table, written out byte by byte, decode to their rows (`spec/opcode_table.json`, the
`example_hex` of the rows). -/
def Obligations.FramesDecodeToTheirRows : Prop :=
  decode given [0x51, 0x54, 0x3A, 0x31, 0x3B, 0x30, 0x2E] = .ok (.hbAck []) ∧
  decode given [0x51, 0x54, 0x3A, 0x39, 0x3B, 0x61, 0x35, 0x30, 0x2D, 0x32, 0x2D, 0x31, 0x30, 0x30, 0x2E]
    = .ok (.loadVce [0x35, 0x30, 0x2D, 0x32, 0x2D, 0x31, 0x30, 0x30]) ∧
  decode given [0x51, 0x54, 0x3A, 0x31, 0x3B, 0x63, 0x2E] = .ok (.start []) ∧
  decode given [0x52, 0x50, 0x3A, 0x33, 0x3B, 0x63, 0x2C, 0x30, 0x65, 0x6E, 0x64] = .ok .txHeartbeat ∧
  decode given [0x52, 0x50, 0x3A, 0x34, 0x3B, 0x66, 0x01, 0x00, 0x20, 0x65, 0x6E, 0x64] = .ok (.txSweepVbe [0x0010, 0x0020])

/-- The set of legal inbound frames, for every configuration: DECODE accepts a byte string exactly when it is a legal frame,
with an argument of at most `ARG_CAP` bytes, followed by any bytes (`spec/30_encoding.md` R87, derived there from R104 to
R111; R111: the argument is never truncated). R87 and R104 speak of strings of at most `FRAME_CAP` bytes; that a longer
string is decoded by the same checks is the model's choice (log 31). -/
def Obligations.DecodeAcceptsExactlyLegalFrames : Prop :=
  ∀ (p : GivenParams) (f : List Byte) (cmd : Byte) (arg : List Byte),
    decodeFrame p f = .ok ⟨cmd, arg⟩ ↔
      ∃ d rest, f = p.hdrIn ++ d ++ [p.sep] ++ (cmd :: arg) ++ [p.termIn] ++ rest ∧ isNumber d = true ∧ p.sep ∉ d ∧
        parseDec d = (cmd :: arg).length ∧ arg.length ≤ p.argCap ∧ p.termIn ∉ cmd :: arg

/-- `spec/40_frame_codec.md` R108: the bytes between the separator and the terminator have exactly the declared length, or
DECODE fails with `LengthMismatch`; both directions fail. -/
def Obligations.LengthMismatchBothWays : Prop :=
  (∀ (p : GivenParams) (d body rest : List Byte), isNumber d = true → p.sep ∉ d → p.termIn ∉ body →
    (decodeFrame p (p.hdrIn ++ d ++ [p.sep] ++ body ++ [p.termIn] ++ rest) = .error .lengthMismatch ↔
      body.length ≠ parseDec d)) ∧
  decodeFrame given [0x51, 0x54, 0x3A, 0x33, 0x3B, 0x61, 0x31, 0x2E] = .error .lengthMismatch ∧
  decodeFrame given [0x51, 0x54, 0x3A, 0x31, 0x3B, 0x61, 0x31, 0x2E] = .error .lengthMismatch

/-- `spec/40_frame_codec.md` R105: `BadHeader` exactly where the first three bytes are not the header; for R4's `QT:`, `qt:`
and `QT;` fail. -/
def Obligations.BadHeaderExactly : Prop :=
  (∀ (p : Params) (f : List Byte), decodeFrame p.toGivenParams f = .error .badHeader ↔ f.take 3 ≠ p.hdrIn) ∧
  (∀ f : List Byte, decodeFrame given f = .error .badHeader ↔ f.take 3 ≠ [0x51, 0x54, 0x3A]) ∧
  (∀ r : List Byte, decodeFrame given (0x71 :: 0x74 :: 0x3A :: r) = .error .badHeader ∧
    decodeFrame given (0x51 :: 0x54 :: 0x3B :: r) = .error .badHeader)

/-- The source's two decode scenarios (`spec/40_frame_codec.md` R114), in every configuration with R4's characters and room
for one argument byte; on the first no Instruction is enqueued, and one `ErrorReceive` is posted and the buffer emptied
(R102; the spec's decision D18). -/
def Obligations.SourceDecodeScenarios : Prop :=
  ∀ p : GivenParams, p.hdrIn = [0x51, 0x54, 0x3A] → p.sep = 0x3B → p.termIn = 0x2E →
    decodeFrame p [0x51, 0x54, 0x3A, 0x33, 0x3B, 0x61, 0x31, 0x2E] = .error .lengthMismatch ∧
    (∀ s : State, s.cfg.toGivenParams = p → s.frameBytes = .ok [0x51, 0x54, 0x3A, 0x33, 0x3B, 0x61, 0x31, 0x2E] →
      rxFrame s = .ok { s with rxLen := 0, statusOut := s.statusOut ++ [.errorReceive] }) ∧
    (1 ≤ p.argCap → decodeFrame p [0x51, 0x54, 0x3A, 0x32, 0x3B, 0x61, 0x31, 0x2E] = .ok ⟨0x61, [0x31]⟩)

/-- DECODE names the first failing check, in the order header, declared length, terminator, length, command, argument
(`spec/40_frame_codec.md` R104, R110; the names are the spec's decision D15). -/
def Obligations.FirstFailingCheckIsNamed : Prop :=
  ∀ (p : GivenParams) (d r body rest : List Byte),
    (p.sep ∉ r → decodeFrame p (p.hdrIn ++ r) = .error .badLength) ∧
    (p.sep ∉ d → isNumber d = false → decodeFrame p (p.hdrIn ++ d ++ [p.sep] ++ r) = .error .badLength) ∧
    (p.sep ∉ d → isNumber d = true → p.termIn ∉ r →
      decodeFrame p (p.hdrIn ++ d ++ [p.sep] ++ r) = .error .unterminated) ∧
    (p.sep ∉ d → isNumber d = true → p.termIn ∉ body → body.length ≠ parseDec d →
      decodeFrame p (p.hdrIn ++ d ++ [p.sep] ++ body ++ [p.termIn] ++ rest) = .error .lengthMismatch) ∧
    (p.sep ∉ d → isNumber d = true → parseDec d = 0 →
      decodeFrame p (p.hdrIn ++ d ++ [p.sep] ++ [p.termIn] ++ rest) = .error .emptyBody) ∧
    (p.sep ∉ d → isNumber d = true → p.termIn ∉ body → body.length = parseDec d → p.argCap + 1 < body.length →
      decodeFrame p (p.hdrIn ++ d ++ [p.sep] ++ body ++ [p.termIn] ++ rest) = .error .argTooLong)

/-- The source's round trip in the form both formats satisfy (`spec/30_encoding.md` R91, derived there; C7): encoding the
decoded body as text gives the same declared value and the same body, in an outbound frame that reads back (with a separator
that is no digit, as R4's is; log 2). -/
def Obligations.TextRoundTrip : Prop :=
  ∀ (p : GivenParams) (d rest : List Byte) (cmd : Byte) (arg : List Byte), isNumber d = true → p.termIn ∉ cmd :: arg →
    isDigit p.sep = false →
    decodeFrame p (p.hdrIn ++ d ++ [p.sep] ++ (cmd :: arg) ++ [p.termIn] ++ rest) = .ok ⟨cmd, arg⟩ →
    encodeFrame p (cmd :: arg) = p.hdrOut ++ dec (parseDec d) ++ [p.sep] ++ (cmd :: arg) ++ p.termOut ∧
    outboundPayload p (encodeFrame p (cmd :: arg)) = .ok (cmd :: arg)

/-- The declared length alone delimits the payload: every payload, even one that holds `;` or `end`, is read back from its
frame (`spec/30_encoding.md` R85, derived there; `spec/40_frame_codec.md` R116), with a separator that is no digit, as R4's
is (log 2). -/
def Obligations.DeclaredLengthDelimitsPayload : Prop :=
  ∀ (p : GivenParams) (l : List Byte), isDigit p.sep = false → outboundPayload p (encodeFrame p l) = .ok l

/-- `spec/40_frame_codec.md` R115: the fixed header, the declared length set to the payload's, the payload, the fixed
terminator; the payload is not escaped, and with R4's characters the empty one gives `RP:0;end`. -/
def Obligations.EncodeWritesTheFormat : Prop :=
  (∀ (p : GivenParams) (l : List Byte), encodeFrame p l = p.hdrOut ++ dec l.length ++ [p.sep] ++ l ++ p.termOut) ∧
  (∀ l : List Byte, encodeFrame given l = [0x52, 0x50, 0x3A] ++ dec l.length ++ [0x3B] ++ l ++ [0x65, 0x6E, 0x64]) ∧
  encodeFrame given [] = [0x52, 0x50, 0x3A, 0x30, 0x3B, 0x65, 0x6E, 0x64] ∧
  encodeFrame given [0x63, 0x2C, 0x30] = [0x52, 0x50, 0x3A, 0x33, 0x3B, 0x63, 0x2C, 0x30, 0x65, 0x6E, 0x64]

/-- `dec(n)` is the shortest digit string of value `n`, with no leading zero but for `dec(0)` (`spec/00_scope.md` R8; the
spec's decisions D13, D19). -/
def Obligations.DecimalIsShortest : Prop :=
  ∀ n : Nat, isNumber (dec n) = true ∧ parseDec (dec n) = n ∧ (n ≠ 0 → (dec n).head? ≠ some 0x30) ∧
    dec 0 = [0x30] ∧ ∀ d : List Byte, isNumber d = true → parseDec d = n → (dec n).length ≤ d.length

/-- PACK sends the low twelve bits of every sample, high nibble of the first sample first, three bytes a pair, and the far
end recovers them (`spec/40_frame_codec.md` R122, `spec/20_memory.md` R51; the spec's decision D21). -/
def Obligations.PackKeepsTwelveBits : Prop :=
  (∀ l : List Sample, l.length % 2 = 0 →
    unpack (pack l) = some (l.map (fun v => v &&& 0x0FFF)) ∧ (pack l).length = 3 * (l.length / 2)) ∧
  (∀ x y : Sample, (pack [x, y]).map BitVec.toNat =
    [x.toNat / 16 % 256, x.toNat % 16 * 16 + y.toNat / 256 % 16, y.toNat % 256])

/-! ## The Sweep Planner -/

/-- Every table PLAN produces, in every legal configuration: its length `RAMP_LEN`, its entries the nearest codes, its first
entry 0, its entries non-decreasing, no entry above `DAC_MAX`, all 0 for target 0; where every half is rounded up, which is
the default of U4, its entries by the formula of R132 and its last entry the rounded full scale of the target; and with R4's
values the formula's numbers (`spec/41_sweep_planner.md` R132, R136, derived there from R132;
`spec/93_implementation_defined.md` U4; D5, D6). -/
def Obligations.RampTableProperties : Prop :=
  (∀ (p : Params) (m : Nat), m ≤ p.vfsMv →
    (rampTable p.toGivenParams m).length = p.rampLen ∧
    (∀ i, i ≤ p.rampSteps → ∃ c, ((rampTable p.toGivenParams m)[i]?).map BitVec.toNat = some c ∧
      NearestCode p.toGivenParams m i c) ∧
    (∀ i, p.halvesDown = [] → i ≤ p.rampSteps → ((rampTable p.toGivenParams m)[i]?).map BitVec.toNat =
      some ((2 * m * i * p.dacMax + p.vfsMv * p.rampSteps) / (2 * p.vfsMv * p.rampSteps))) ∧
    ((rampTable p.toGivenParams m)[0]?).map BitVec.toNat = some 0 ∧
    (∀ i c c', (rampTable p.toGivenParams m)[i]? = some c → (rampTable p.toGivenParams m)[i + 1]? = some c' →
      c.toNat ≤ c'.toNat) ∧
    (p.halvesDown = [] → ((rampTable p.toGivenParams m)[p.rampSteps]?).map BitVec.toNat =
      some ((2 * m * p.dacMax + p.vfsMv) / (2 * p.vfsMv))) ∧
    (∀ c, c ∈ rampTable p.toGivenParams m → c.toNat ≤ p.dacMax) ∧
    (m = 0 → ∀ c, c ∈ rampTable p.toGivenParams m → c.toNat = 0)) ∧
  (∀ m : Nat, m ≤ 5000 → (rampTable given m).length = 201 ∧
    ∀ i, i ≤ 200 → ((rampTable given m)[i]?).map BitVec.toNat = some ((8190 * m * i + 1000000) / 2000000))

/-- `spec/41_sweep_planner.md` R138: with R4's values, for 50 tenths of a volt the table starts at 0 and ends at full scale.
-/
def Obligations.FullScaleScenario : Prop :=
  ∀ s : State, s.cfg.toGivenParams = given →
    Mem.read (s.planVce 50).ramp 0 = some 0 ∧ Mem.read (s.planVce 50).ramp 200 = some 4095

/-! ## Commands -/

/-- HB_ACK sets the two flags and nothing else, in every state and with any argument (`spec/43_command_dispatch.md` R171;
the spec's decisions D33, D37). -/
def Obligations.HbAckAcknowledges : Prop :=
  ∀ (s : State) (arg : List Byte), exec (.hbAck arg) s = .next { s with hbAck := true, connected := true }

/-- LOAD_VCE of a legal argument, in `Idle` or `Faulted`, with any spelling of its three numbers: the request registers, the
table of R133 with the nearest codes, by the formula of R132 where every half is rounded up (the default of U4),
`req_valid`, and nothing else; and the table's numbers with R4's values. With R4's delimiter no number holds it
(`spec/43_command_dispatch.md` R172, `spec/30_encoding.md` R76; the spec's decisions D30, D31, D35). -/
def Obligations.LoadVceLoadsRequest : Prop :=
  ∀ (s : State) (f0 f1 f2 : List Byte), s.sweepState = .idle ∨ s.sweepState = .faulted →
    isNumber f0 = true → isNumber f1 = true → isNumber f2 = true → s.cfg.argDelim ∉ f0 ++ f1 ++ f2 →
    parseDec f0 ≤ s.cfg.ampMax → parseDec f1 < s.cfg.gainCount → parseDec f2 ≤ 255 →
    ∃ table : Mem 12,
      exec (.loadVce (f0 ++ [s.cfg.argDelim] ++ f1 ++ [s.cfg.argDelim] ++ f2)) s = .next { s with
        reqKind := .vce, reqAmp := BitVec.ofNat 6 (parseDec f0), reqGain := BitVec.ofNat 8 (parseDec f1),
        reqSamples := BitVec.ofNat 8 (parseDec f2), ramp := table, reqValid := true } ∧
      (∀ i, i ≤ s.cfg.rampSteps → ∃ c, Mem.read table i = some (BitVec.ofNat 12 c) ∧
        NearestCode s.cfg.toGivenParams (100 * parseDec f0) i c) ∧
      (∀ i, s.cfg.halvesDown = [] → i ≤ s.cfg.rampSteps → Mem.read table i = some (BitVec.ofNat 12
        ((2 * (100 * parseDec f0) * i * s.cfg.dacMax + s.cfg.vfsMv * s.cfg.rampSteps) /
          (2 * s.cfg.vfsMv * s.cfg.rampSteps)))) ∧
      (∀ i, s.cfg.rampSteps < i → Mem.read table i = none) ∧
      (s.cfg.toGivenParams = given → ∀ i, i ≤ 200 →
        Mem.read table i = some (BitVec.ofNat 12 ((819 * parseDec f0 * i + 1000) / 2000)))

/-- LOAD_VCE of any other argument, in `Idle` or `Faulted`: one `ErrorReceive` is posted and nothing else changes
(`spec/43_command_dispatch.md` R172; the spec's decision D35). -/
def Obligations.LoadVceArgumentError : Prop :=
  ∀ (s : State) (arg : List Byte), s.sweepState = .idle ∨ s.sweepState = .faulted →
    (¬ ∃ f0 f1 f2, arg = f0 ++ [s.cfg.argDelim] ++ f1 ++ [s.cfg.argDelim] ++ f2 ∧ isNumber f0 = true ∧
      isNumber f1 = true ∧ isNumber f2 = true ∧ s.cfg.argDelim ∉ f0 ++ f1 ++ f2 ∧ parseDec f0 ≤ s.cfg.ampMax ∧
      parseDec f1 < s.cfg.gainCount ∧ parseDec f2 ≤ 255) →
    exec (.loadVce arg) s = .next { s with statusOut := s.statusOut ++ [.errorReceive] }

/-- LOAD_VBE in `Idle` or `Faulted`, with any argument: `req_kind`, the table of R134 with the nearest codes, by the formula
of R132 where every half is rounded up (the default of U4), `req_valid`, and nothing else; and the table's numbers with R4's
values (`spec/43_command_dispatch.md` R173; the spec's decisions D7, D30, D37). -/
def Obligations.LoadVbeLoadsRequest : Prop :=
  ∀ (s : State) (arg : List Byte), s.sweepState = .idle ∨ s.sweepState = .faulted →
    ∃ table : Mem 12,
      exec (.loadVbe arg) s = .next { s with reqKind := .vbe, ramp := table, reqValid := true } ∧
      (∀ i, i ≤ s.cfg.rampSteps → ∃ c, Mem.read table i = some (BitVec.ofNat 12 c) ∧
        NearestCode s.cfg.toGivenParams s.cfg.vbeTargetMv i c) ∧
      (∀ i, s.cfg.halvesDown = [] → i ≤ s.cfg.rampSteps → Mem.read table i = some (BitVec.ofNat 12
        ((2 * s.cfg.vbeTargetMv * i * s.cfg.dacMax + s.cfg.vfsMv * s.cfg.rampSteps) /
          (2 * s.cfg.vfsMv * s.cfg.rampSteps)))) ∧
      (∀ i, s.cfg.rampSteps < i → Mem.read table i = none) ∧
      (s.cfg.toGivenParams = given → ∀ i, i ≤ 200 →
        Mem.read table i = some (BitVec.ofNat 12 ((8190 * s.cfg.vbeTargetMv * i + 1000000) / 2000000)))

/-- The silent rejections: in every state but `Idle` and `Faulted` the LOADs and START change nothing and post nothing; nor
does START with no request loaded or while disconnected, nor an unrecognized command in any state
(`spec/43_command_dispatch.md` R175, R176, R177; the spec's decisions D31, D32, D33, D36). -/
def Obligations.SilentRejections : Prop :=
  ∀ (s : State) (arg : List Byte),
    (s.sweepState ≠ .idle → s.sweepState ≠ .faulted →
      exec (.loadVce arg) s = .next s ∧ exec (.loadVbe arg) s = .next s ∧ exec (.start arg) s = .next s) ∧
    (s.reqValid = false ∨ s.connected = false → exec (.start arg) s = .next s) ∧
    (∀ cmd, exec (.unrecognized cmd arg) s = .next s)

/-- `spec/42_acquisition_fsm.md` R144: an accepted START runs ARM: step index zero, amplifier on, relay and gain switch of
the kind, for VBE the bias channel driven to zero, state `Arming`; nothing else changes and no failure is possible. The
history `ports` of the transfers is the model's (log 17), here and below. -/
def Obligations.StartArms : Prop :=
  ∀ (s : State) (arg : List Byte), s.sweepState = .idle ∨ s.sweepState = .faulted → s.reqValid = true →
    s.connected = true →
    (s.reqKind = .vce → exec (.start arg) s = .next { s with
      stepIndex := 0, ampEn := true, relay := s.cfg.relayVce, gainSw := s.cfg.gswVce, sweepState := .arming }) ∧
    (s.reqKind = .vbe → exec (.start arg) s = .next { s with
      stepIndex := 0, ampEn := true, relay := s.cfg.relayVbe, gainSw := s.cfg.gswVbe,
      dacCode0 := if s.cfg.chVbe = .ch0 then 0 else s.dacCode0,
      dacCode1 := if s.cfg.chVbe = .ch1 then 0 else s.dacCode1,
      ports := s.ports ++ [.dacWr s.cfg.chVbe 0], sweepState := .arming })

/-- The "Exclusive sweep" property: during `Running` and `Draining` every inbound row completes; HB_ACK sets its two flags
and changes nothing else, and every other row changes nothing (`spec/42_acquisition_fsm.md` R158,
`spec/43_command_dispatch.md` R179, derived there). -/
def Obligations.CommandsLeaveActiveSweep : Prop :=
  ∀ (s : State) (i : Instr), isInbound i = true → s.sweepState = .running ∨ s.sweepState = .draining →
    (∃ arg, i = .hbAck arg ∧ exec i s = .next { s with hbAck := true, connected := true }) ∨
    ((∀ arg, i ≠ .hbAck arg) ∧ exec i s = .next s)

/-! ## The Acquisition State Machine -/

/-- ARM_RESULT in `Arming`: `Ready` starts the timer, a hardware failure gates off and leaves `Faulted`, a timer failure
gates off and leaves `Idle`, each failure posting one `ErrorGeneric` (`spec/42_acquisition_fsm.md` R146; the spec's
decisions D40, D41). In any other state the event does nothing (the model's choice, log 4). -/
def Obligations.ArmResultOutcomes : Prop :=
  ∀ (s : State) (r : List Event) (a : ArmResult), s.sched = .armResult a :: r →
    (s.sweepState = .arming → a = .ready →
      step s = .next { s with sched := r, timerRun := true, sweepState := .running }) ∧
    (s.sweepState = .arming → a ≠ .ready → s.reqKind = .vce →
      step s = .next { s with
        sched := r, dacCode0 := if s.cfg.chVce = .ch0 then 0 else s.dacCode0,
        dacCode1 := if s.cfg.chVce = .ch1 then 0 else s.dacCode1, ports := s.ports ++ [.dacWr s.cfg.chVce 0], ampEn := false,
        statusOut := s.statusOut ++ [.errorGeneric],
        sweepState := if a = .hwFail then .faulted else .idle }) ∧
    (s.sweepState = .arming → a ≠ .ready → s.reqKind = .vbe →
      step s = .next { s with
        sched := r, dacCode0 := if s.cfg.chVbe = .ch0 then 0 else s.dacCode0,
        dacCode1 := if s.cfg.chVbe = .ch1 then 0 else s.dacCode1, ports := s.ports ++ [.dacWr s.cfg.chVbe 0], ampEn := false,
        statusOut := s.statusOut ++ [.errorGeneric],
        sweepState := if a = .hwFail then .faulted else .idle }) ∧
    (s.sweepState ≠ .arming → step s = .next { s with sched := r })

/-- `spec/42_acquisition_fsm.md` R149: STEP at tick 0. The ramp code is written first, to the channel of the kind, stale DMA
state is stopped and drained (a no-op in every state with the invariants), the gain is written on the VCE path only, the
capture is armed for `CAP_LEN` samples and the ADC started last. The captures inside the STEP fall before the stop, if the
capture ran, and after the start (`spec/20_memory.md` R63). The order is that of `ports` (log 17). -/
def Obligations.FirstTick : Prop :=
  (∀ (s : State) (r : List Event) (ic : InnerCaptures) (c : DacCode) (w u : List Sample),
    s.sched = .tick ic :: r → s.timerRun = true → s.stepIndex = 0 → Mem.read s.ramp 0 = some c →
    w = s.captured ic.afterCode → u = (ic.afterStart ++ ic.afterIndex).take s.cfg.capLen →
    ∃ m : Mem 16,
      (∀ i, Mem.read m i = if i < u.length then u[i]?
        else if s.dmaWrIdx ≤ i ∧ i < s.dmaWrIdx + w.length then w[i - s.dmaWrIdx]? else Mem.read s.cap i) ∧
      (∀ g, s.reqKind = .vce → s.cfg.gainTable[s.reqGain.toNat]? = some g →
        step s = .next { s with
          sched := r, dacCode0 := if s.cfg.chVce = .ch0 then c else s.dacCode0,
          dacCode1 := if s.cfg.chVce = .ch1 then c else s.dacCode1,
          gainVal := g, cap := m, dmaWrIdx := u.length, dmaArmed := true, adcRun := true, stepIndex := 1,
          ports := s.ports ++ [.dacWr s.cfg.chVce c] ++ capCalls s.dmaWrIdx w ++
            [.dmaStop, .dmaDrain, .gainWr g, .dmaArm s.cfg.capLen, .adcStart] ++ capCalls 0 u }) ∧
      (s.reqKind = .vbe →
        step s = .next { s with
          sched := r, dacCode0 := if s.cfg.chVbe = .ch0 then c else s.dacCode0,
          dacCode1 := if s.cfg.chVbe = .ch1 then c else s.dacCode1,
          cap := m, dmaWrIdx := u.length, dmaArmed := true, adcRun := true, stepIndex := 1,
          ports := s.ports ++ [.dacWr s.cfg.chVbe c] ++ capCalls s.dmaWrIdx w ++
            [.dmaStop, .dmaDrain, .dmaArm s.cfg.capLen, .adcStart] ++ capCalls 0 u })) ∧
  (∀ s : State, Inv s → s.sweepState = .running → s.stepIndex = 0 → s.dmaArmed = false ∧ s.adcRun = false)

/-- STEP between the first and the last tick (1 to 199 with R4's values): one DAC write of the table's entry, and the step
index advances; the capture is not re-armed, and takes samples after the DAC write while it runs
(`spec/42_acquisition_fsm.md` R148, R150, R157, `spec/20_memory.md` R63). -/
def Obligations.MiddleTick : Prop :=
  ∀ (s : State) (r : List Event) (ic : InnerCaptures) (c : DacCode) (w : List Sample),
    s.sched = .tick ic :: r → s.timerRun = true →
    1 ≤ s.stepIndex.toNat → s.stepIndex.toNat < s.cfg.rampSteps → Mem.read s.ramp s.stepIndex.toNat = some c →
    w = s.captured (ic.afterCode ++ ic.afterIndex) →
    ∃ m : Mem 16,
      (∀ i, Mem.read m i =
        if s.dmaWrIdx ≤ i ∧ i < s.dmaWrIdx + w.length then w[i - s.dmaWrIdx]? else Mem.read s.cap i) ∧
      (s.reqKind = .vce → step s = .next { s with
        sched := r, dacCode0 := if s.cfg.chVce = .ch0 then c else s.dacCode0,
        dacCode1 := if s.cfg.chVce = .ch1 then c else s.dacCode1, cap := m, dmaWrIdx := s.dmaWrIdx + w.length,
        stepIndex := s.stepIndex + 1, ports := s.ports ++ [.dacWr s.cfg.chVce c] ++ capCalls s.dmaWrIdx w }) ∧
      (s.reqKind = .vbe → step s = .next { s with
        sched := r, dacCode0 := if s.cfg.chVbe = .ch0 then c else s.dacCode0,
        dacCode1 := if s.cfg.chVbe = .ch1 then c else s.dacCode1, cap := m, dmaWrIdx := s.dmaWrIdx + w.length,
        stepIndex := s.stepIndex + 1, ports := s.ports ++ [.dacWr s.cfg.chVbe c] ++ capCalls s.dmaWrIdx w })

/-- `spec/42_acquisition_fsm.md` R151: STEP at the last tick (200 with R4's values). The last code and then 0 go to the same
channel, the ADC is stopped and the DMA drained before `done` is set, the amplifier is off, the gain is restored on the VCE
path only, the timer stops. The captures inside the STEP fall between the last code and the stop (`spec/20_memory.md` R63).
-/
def Obligations.LastTick : Prop :=
  ∀ (s : State) (r : List Event) (ic : InnerCaptures) (c : DacCode) (w : List Sample),
    s.sched = .tick ic :: r → s.timerRun = true →
    s.stepIndex.toNat = s.cfg.rampSteps → Mem.read s.ramp s.cfg.rampSteps = some c →
    w = s.captured (ic.afterCode ++ ic.afterIndex) →
    ∃ m : Mem 16,
      (∀ i, Mem.read m i =
        if s.dmaWrIdx ≤ i ∧ i < s.dmaWrIdx + w.length then w[i - s.dmaWrIdx]? else Mem.read s.cap i) ∧
      (s.reqKind = .vce → step s = .next { s with
        sched := r, stepIndex := BitVec.ofNat 8 s.cfg.rampLen, cap := m, dmaWrIdx := s.dmaWrIdx + w.length,
        adcRun := false, dmaArmed := false,
        dacCode0 := if s.cfg.chVce = .ch0 then 0 else s.dacCode0,
        dacCode1 := if s.cfg.chVce = .ch1 then 0 else s.dacCode1,
        ampEn := false, gainVal := s.cfg.gainOff, done := true, timerRun := false, sweepState := .draining,
        ports := s.ports ++ [.dacWr s.cfg.chVce c] ++ capCalls s.dmaWrIdx w ++
          [.adcStop, .dmaDrain, .dacWr s.cfg.chVce 0, .gainWr s.cfg.gainOff] }) ∧
      (s.reqKind = .vbe → step s = .next { s with
        sched := r, stepIndex := BitVec.ofNat 8 s.cfg.rampLen, cap := m, dmaWrIdx := s.dmaWrIdx + w.length,
        adcRun := false, dmaArmed := false,
        dacCode0 := if s.cfg.chVbe = .ch0 then 0 else s.dacCode0,
        dacCode1 := if s.cfg.chVbe = .ch1 then 0 else s.dacCode1,
        ampEn := false, done := true, timerRun := false, sweepState := .draining,
        ports := s.ports ++ [.dacWr s.cfg.chVbe c] ++ capCalls s.dmaWrIdx w ++
          [.adcStop, .dmaDrain, .dacWr s.cfg.chVbe 0] })

/-- `spec/60_exceptions.md` R198: the interrupt is enabled exactly while `timer_run = 1`; only ARM_RESULT `Ready` sets
`timer_run`, only the last STEP of a sweep (and reset) clears it, and nothing else masks a tick. -/
def Obligations.TimerRunIsTheOnlyMask : Prop :=
  (∀ (s : State) (ic : InnerCaptures), enabled (.tick ic) s = true ↔ s.timerRun = true) ∧
  (∀ (s s' : State) (e : Event), runEvent e s = .next s' → s'.timerRun ≠ s.timerRun →
    (e = .armResult .ready ∧ s.sweepState = .arming ∧ s'.timerRun = true) ∨
    (e.isTick = true ∧ s.stepIndex.toNat = s.cfg.rampSteps ∧ s'.timerRun = false) ∨ e = .rst)

/-- One whole sweep: from `Running(0)`, `RAMP_LEN` ticks (201 with R4's values) with any captures between and inside them
end in `Draining` with `done` set; the output transfers are exactly the ramp in order, one arming of the capture, the stop,
and the gating off (`spec/42_acquisition_fsm.md` R156, R157, derived there; `spec/95_test_vectors.md` section 4, 7). -/
def Obligations.WholeSweepTrace : Prop :=
  ∀ (s : State) (l r : List Event) (codes : List DacCode) (g : Byte),
    s.sched = l ++ r → (∀ e, e ∈ l → e.isTick = true ∨ ∃ v, e = .capWrite v) →
    l.countP Event.isTick = s.cfg.rampLen →
    s.timerRun = true → s.sweepState = .running → s.stepIndex = 0 →
    codes.length = s.cfg.rampLen → (∀ i, i < s.cfg.rampLen → Mem.read s.ramp i = codes[i]?) →
    (s.reqKind = .vce → s.cfg.gainTable[s.reqGain.toNat]? = some g) →
    ∃ (t : State) (p : List PortCall), Host.Core.run Sys2Proof.core l.length s = .next t ∧
      t.sched = r ∧ t.sweepState = .draining ∧ t.done = true ∧ t.timerRun = false ∧
      t.stepIndex.toNat = s.cfg.rampLen ∧
      t.dmaArmed = false ∧ t.adcRun = false ∧ t.ampEn = false ∧ t.ramp = s.ramp ∧
      t.gainVal = (if s.reqKind = .vce then s.cfg.gainOff else s.gainVal) ∧
      t.dacCode0 = (if s.activeCh = .ch0 then 0 else s.dacCode0) ∧
      t.dacCode1 = (if s.activeCh = .ch1 then 0 else s.dacCode1) ∧
      t.ports = s.ports ++ p ∧ p.filter (fun x => !x.isCapture) =
        ((codes.take 1).map (.dacWr s.activeCh)) ++ [.dmaStop, .dmaDrain]
        ++ (if s.reqKind = .vce then [.gainWr g] else []) ++ [.dmaArm s.cfg.capLen, .adcStart]
        ++ ((codes.drop 1).map (.dacWr s.activeCh)) ++ [.adcStop, .dmaDrain, .dacWr s.activeCh 0]
        ++ (if s.reqKind = .vce then [.gainWr s.cfg.gainOff] else [])

/-- DRAIN takes the completion signal and asks for the sweep frame (`spec/42_acquisition_fsm.md` R153; the spec's decision
D42); before the signal the event does nothing (the model's choice, log 4). In every fair run a `done` is taken in the end,
unless reset comes, and an Instruction at the head of `iq` is dispatched in the end while the DISPATCHER is free (R154; the
spec's decision D38). -/
def Obligations.DrainHandsOverTheCapture : Prop :=
  (∀ (s : State) (r : List Event), s.sched = .drain :: r →
    (s.done = true → s.sweepState ≠ .arming → s.sweepState ≠ .complete →
      step s = .next { s with sched := r, done := false, sweepState := .complete, txq := s.txq ++ [.sweep] }) ∧
    (s.done = false → step s = .next { s with sched := r })) ∧
  (∀ (st : Nat → State) (ev : Nat → Event), FairRun st ev → Inv (st 0) → ∀ n,
    ((st n).done = true → ∃ m, n ≤ m ∧
      (ev m = .rst ∨ (ev m = .drain ∧ (st m).done = true ∧ (st (m + 1)).sweepState = .complete))) ∧
    ((st n).iq ≠ [] → (∀ m, n ≤ m → (st m).sweepState ≠ .arming ∧ (st m).sweepState ≠ .complete) →
      ∃ m, n ≤ m ∧ (ev m = .rst ∨ (ev m = .dispatch ∧ (st m).iq.head? = (st n).iq.head?))))

/-- CAP_WRITE stores the drawn sample at the write position while the capture is open, with no wrap at `CAP_LEN`
(`spec/20_memory.md` R60; the spec's decision D43); otherwise the event does nothing (the model's choice, log 4). The
captures that fall inside a STEP are CAP_WRITE steps, one after the other, at their point of the STEP (R63). -/
def Obligations.CapWriteStoresSample : Prop :=
  (∀ (s t : State) (v : Sample) (vs : List Sample), State.captures [] s = s ∧
    (runEvent (.capWrite v) s = .next t → State.captures (v :: vs) s = State.captures vs t)) ∧
  ∀ (s : State) (r : List Event) (v : Sample), s.sched = .capWrite v :: r →
    (s.dmaArmed = true → s.adcRun = true → s.dmaWrIdx < s.cfg.capLen →
      ∃ m : Mem 16, step s = .next { s with
          sched := r, cap := m, dmaWrIdx := s.dmaWrIdx + 1, ports := s.ports ++ [.capWr s.dmaWrIdx v] } ∧
        Mem.read m s.dmaWrIdx = some v ∧ ∀ i, i ≠ s.dmaWrIdx → Mem.read m i = Mem.read s.cap i) ∧
    (s.dmaArmed = false ∨ s.adcRun = false ∨ s.cfg.capLen ≤ s.dmaWrIdx → step s = .next { s with sched := r })

/-! ## The receiver -/

/-- RX_BYTE stores the next byte of the Link; the `FRAME_CAP`-th byte (the 50th with R4's values) posts `Overflow` unless it
is the terminator; while a complete frame is pending, and while the Link has no byte, nothing happens; an access outside the
buffer, of the last byte or of the next, faults (`spec/40_frame_codec.md` R101, `spec/00_scope.md` R9; the spec's decision
D25; the queue of the Link and the hold are the model's, log 5, log 4; the fault of the enabling condition's read too, log
29; no run reaches that of the next byte, log 23). -/
def Obligations.RxByteStores : Prop :=
  ∀ (s : State) (r : List Event), s.sched = .rxByte :: r →
    (∀ b l, s.linkRx = b :: l → s.rxLen.toNat < s.cfg.frameCap →
      (s.rxLen = 0 ∨ ∃ c, s.lastByte = .ok (some c) ∧ c ≠ s.cfg.termIn) →
      ∃ m : Mem 8, Mem.read m s.rxLen.toNat = some b ∧
        (∀ i, i ≠ s.rxLen.toNat → Mem.read m i = Mem.read s.rxBuf i) ∧
        (b = s.cfg.termIn ∨ s.rxLen.toNat + 1 < s.cfg.frameCap →
          step s = .next { s with sched := r, linkRx := l, rxBuf := m, rxLen := s.rxLen + 1 }) ∧
        (b ≠ s.cfg.termIn → s.rxLen.toNat + 1 = s.cfg.frameCap →
          step s = .next { s with
            sched := r, linkRx := l, rxBuf := m, rxLen := 0, statusOut := s.statusOut ++ [.overflow] })) ∧
    (s.linkRx = [] ∨ s.lastByte = .ok (some s.cfg.termIn) → step s = .next { s with sched := r }) ∧
    (s.linkRx ≠ [] →
      s.cfg.frameCap < s.rxLen.toNat ∨
        (s.rxLen.toNat = s.cfg.frameCap ∧ ∃ c, s.lastByte = .ok (some c) ∧ c ≠ s.cfg.termIn) →
      step s = .fault .rxBufIndex)

/-- RX_FRAME: a decoded frame is enqueued while `iq` has room and held otherwise; a failed one posts one `ErrorReceive`;
both empty the buffer; with no byte held, and with a partial frame, it does nothing; a frame longer than the buffer faults
(`spec/40_frame_codec.md` R102, `spec/00_scope.md` R9; the spec's decisions D18, D27; the hold is a disabled event, log 4;
the fault is log 29). -/
def Obligations.RxFrameDecodes : Prop :=
  ∀ (s : State) (r : List Event), s.sched = .rxFrame :: r →
    (s.rxLen = 0 ∨ (∃ c, s.lastByte = .ok (some c) ∧ c ≠ s.cfg.termIn) → step s = .next { s with sched := r }) ∧
    (∀ f, s.frameBytes = .ok f → s.lastByte = .ok (some s.cfg.termIn) →
      (∀ i, decodeFrame s.cfg.toGivenParams f = .ok i → s.iq.length < s.cfg.iqDepth →
        step s = .next { s with sched := r, rxLen := 0, iq := s.iq ++ [i] }) ∧
      (∀ i, decodeFrame s.cfg.toGivenParams f = .ok i → s.cfg.iqDepth ≤ s.iq.length →
        step s = .next { s with sched := r }) ∧
      (∀ e, decodeFrame s.cfg.toGivenParams f = .error e →
        step s = .next { s with sched := r, rxLen := 0, statusOut := s.statusOut ++ [.errorReceive] })) ∧
    (s.cfg.frameCap < s.rxLen.toNat → ∃ x, step s = .fault x)

/-- RX_TIMEOUT discards a partial frame and posts `Timeout`; with a complete frame pending it does nothing; with no byte
held it does nothing, or posts `Timeout` in a configuration where an idle Link does; a read of the last byte outside the
buffer faults (`spec/60_exceptions.md` R196, `spec/93_implementation_defined.md` U7, `spec/00_scope.md` R9; the spec's
decision D26; the model's choices for a disabled event, log 4, and for the enabling condition's read, log 29). -/
def Obligations.RxTimeoutDiscardsPartialFrame : Prop :=
  ∀ (s : State) (r : List Event), s.sched = .rxExpire :: r →
    (∀ c, s.lastByte = .ok (some c) → c ≠ s.cfg.termIn →
      step s = .next { s with sched := r, rxLen := 0, statusOut := s.statusOut ++ [.timeout] }) ∧
    (s.rxLen = 0 ∧ s.cfg.idleTimeout = false ∨ s.lastByte = .ok (some s.cfg.termIn) → step s = .next { s with sched := r }) ∧
    (s.rxLen = 0 → s.cfg.idleTimeout = true →
      step s = .next { s with sched := r, statusOut := s.statusOut ++ [.timeout] }) ∧
    (s.cfg.frameCap < s.rxLen.toNat → step s = .fault .rxBufIndex)

/-- From bytes to an Instruction: a frame that the Link delivers to an idle receiver, byte by byte up to its first
terminator, is enqueued if it decodes and `iq` has room, held in the buffer if it decodes and `iq` is full, and reported as
one `ErrorReceive` if it does not decode; the bytes after it stay at the Link (`spec/40_frame_codec.md` R100, R101, R102;
the spec's decisions D24, D25). A byte of the far end is added behind those at the Link, and nothing else changes
(`spec/60_exceptions.md` R214; the Link's queue is the model's, log 5). -/
def Obligations.DeliveredFrameIsReceived : Prop :=
  (∀ (s : State) (r : List Event) (b : Byte), s.sched = .linkRx b :: r →
    step s = .next { s with sched := r, linkRx := s.linkRx ++ [b] }) ∧
  ∀ (s : State) (g l : List Byte) (r : List Event), s.cfg.termIn ∉ g → g.length < s.cfg.frameCap → s.rxLen = 0 →
    s.linkRx = g ++ [s.cfg.termIn] ++ l →
    s.sched = List.replicate (g.length + 1) .rxByte ++ .rxFrame :: r →
    ∃ m : Mem 8,
      (∀ i, decodeFrame s.cfg.toGivenParams (g ++ [s.cfg.termIn]) = .ok i → s.iq.length < s.cfg.iqDepth →
        Host.Core.run Sys2Proof.core (g.length + 2) s =
          .next ({ s with sched := r, linkRx := l, rxBuf := m, iq := s.iq ++ [i] } : State)) ∧
      (∀ i, decodeFrame s.cfg.toGivenParams (g ++ [s.cfg.termIn]) = .ok i → s.cfg.iqDepth ≤ s.iq.length →
        Host.Core.run Sys2Proof.core (g.length + 2) s =
          .next ({ s with
            sched := r, linkRx := l, rxBuf := m, rxLen := BitVec.ofNat 6 (g.length + 1) } : State) ∧
        (∀ i b, (g ++ [s.cfg.termIn])[i]? = some b → Mem.read m i = some b)) ∧
      (∀ e, decodeFrame s.cfg.toGivenParams (g ++ [s.cfg.termIn]) = .error e →
        Host.Core.run Sys2Proof.core (g.length + 2) s =
          .next ({ s with
            sched := r, linkRx := l, rxBuf := m, statusOut := s.statusOut ++ [.errorReceive] } : State))

/-! ## The transmitter -/

/-- `spec/40_frame_codec.md` R119: HB_SEND asks for the liveness frame, and when the request is served the frame of `c,0` is
sent, with R4's characters the eleven bytes `RP:3;c,0end`. That pending requests are a list, which keeps a second equal one,
is the model's (log 12, log 32). -/
def Obligations.LivenessFrame : Prop :=
  (∀ (s : State) (r : List Event), s.sched = .hbKick :: r → s.hbWaiting = false →
    step s = .next { s with sched := r, txq := s.txq ++ [.heartbeat], hbWaiting := true }) ∧
  (∀ s : State, exec .txHeartbeat s = .next { s with
    txBusy := true, txCur := some .heartbeat,
    txRest := s.cfg.hdrOut ++ [0x33] ++ [s.cfg.sep] ++ [0x63, 0x2C, 0x30] ++ s.cfg.termOut }) ∧
  (∀ s : State, s.cfg.toGivenParams = given → exec .txHeartbeat s = .next { s with
    txBusy := true, txCur := some .heartbeat,
    txRest := [0x52, 0x50, 0x3A, 0x33, 0x3B, 0x63, 0x2C, 0x30, 0x65, 0x6E, 0x64] })

/-- The eight status rows, in every configuration: `status_req` adds the request, and serving it sends `c,` and the event's
name. `Timeout` is the source's spelling; the other seven are the configuration's, and those given are R77's
(`spec/40_frame_codec.md` R120, `spec/30_encoding.md` R77, `spec/93_implementation_defined.md` U6; the spec's decision D20).
That a request equal to a pending one is added beside it is the model's choice (log 32). -/
def Obligations.StatusFrames : Prop :=
  (∀ (s : State) (r : List Event) (ev : StatusEvent), s.sched = .statusReq ev :: r →
    step s = .next { s with sched := r, txq := s.txq ++ [.status ev] }) ∧
  (∀ s : State,
    exec .txStatusOk s = .next { s with
      txBusy := true, txCur := some (.status .ok),
      txRest := encodeFrame s.cfg.toGivenParams ([0x63, 0x2C] ++ s.cfg.names.ok) } ∧
    exec .txStatusErrorGeneric s = .next { s with
      txBusy := true, txCur := some (.status .errorGeneric),
      txRest := encodeFrame s.cfg.toGivenParams ([0x63, 0x2C] ++ s.cfg.names.errorGeneric) } ∧
    exec .txStatusTransmit s = .next { s with
      txBusy := true, txCur := some (.status .transmit),
      txRest := encodeFrame s.cfg.toGivenParams ([0x63, 0x2C] ++ s.cfg.names.transmit) } ∧
    exec .txStatusReceive s = .next { s with
      txBusy := true, txCur := some (.status .receive),
      txRest := encodeFrame s.cfg.toGivenParams ([0x63, 0x2C] ++ s.cfg.names.receive) } ∧
    exec .txStatusTimeout s = .next { s with
      txBusy := true, txCur := some (.status .timeout),
      txRest := encodeFrame s.cfg.toGivenParams [0x63, 0x2C, 0x54, 0x69, 0x6D, 0x65, 0x6F, 0x75, 0x74] } ∧
    exec .txStatusOverflow s = .next { s with
      txBusy := true, txCur := some (.status .overflow),
      txRest := encodeFrame s.cfg.toGivenParams ([0x63, 0x2C] ++ s.cfg.names.overflow) } ∧
    exec .txStatusErrorReceive s = .next { s with
      txBusy := true, txCur := some (.status .errorReceive),
      txRest := encodeFrame s.cfg.toGivenParams ([0x63, 0x2C] ++ s.cfg.names.errorReceive) } ∧
    exec .txStatusDisconnect s = .next { s with
      txBusy := true, txCur := some (.status .disconnect),
      txRest := encodeFrame s.cfg.toGivenParams ([0x63, 0x2C] ++ s.cfg.names.disconnect) }) ∧
  given.names.ok = [0x4F, 0x6B] ∧
  given.names.errorGeneric = [0x45, 0x72, 0x72, 0x6F, 0x72, 0x47, 0x65, 0x6E, 0x65, 0x72, 0x69, 0x63] ∧
  given.names.transmit = [0x54, 0x72, 0x61, 0x6E, 0x73, 0x6D, 0x69, 0x74] ∧
  given.names.receive = [0x52, 0x65, 0x63, 0x65, 0x69, 0x76, 0x65] ∧
  given.names.overflow = [0x4F, 0x76, 0x65, 0x72, 0x66, 0x6C, 0x6F, 0x77] ∧
  given.names.errorReceive = [0x45, 0x72, 0x72, 0x6F, 0x72, 0x52, 0x65, 0x63, 0x65, 0x69, 0x76, 0x65] ∧
  given.names.disconnect = [0x44, 0x69, 0x73, 0x63, 0x6F, 0x6E, 0x6E, 0x65, 0x63, 0x74]

/-- TX_TEXT: `text_req` adds the request for a text of any length and any bytes, and serving it sends the text's frame
(`spec/40_frame_codec.md` R118; the spec's decision D49). That a request equal to a pending one is added beside it is the
model's choice (log 32). -/
def Obligations.TextFrame : Prop :=
  ∀ (s : State) (t : List Byte),
    (∀ r, s.sched = .textReq t :: r → step s = .next { s with sched := r, txq := s.txq ++ [.text t] }) ∧
    exec (.txText t) s = .next { s with
      txBusy := true, txCur := some (.text t),
      txRest := s.cfg.hdrOut ++ dec t.length ++ [s.cfg.sep] ++ t ++ s.cfg.termOut }

/-- The two sweep rows: the frame is the kind character and the packed samples with the declared length
`1 + 3 * n / 2`; when SERIALIZER serves the request the samples are all `CAP_LEN` entries of `cap`
(`spec/40_frame_codec.md` R121; the spec's decision D22). -/
def Obligations.SweepFrame : Prop :=
  (∀ (s : State) (l : List Sample), l.length % 2 = 0 →
    exec (.txSweepVce l) s = .next { s with
      txBusy := true, txCur := some .sweep,
      txRest := s.cfg.hdrOut ++ dec (1 + 3 * l.length / 2) ++ [s.cfg.sep] ++ (0x65 :: pack l) ++ s.cfg.termOut } ∧
    exec (.txSweepVbe l) s = .next { s with
      txBusy := true, txCur := some .sweep,
      txRest := s.cfg.hdrOut ++ dec (1 + 3 * l.length / 2) ++ [s.cfg.sep] ++ (0x66 :: pack l) ++ s.cfg.termOut }) ∧
  (∀ (s : State) (r : List Event) (k : Nat), s.sched = .txBegin k :: r → s.txBusy = false →
    s.txq[k]? = some .sweep → (∀ j, j < k → s.txq[j]? ≠ some .sweep) →
    ∃ l : List Sample, l.length = s.cfg.capLen ∧ (∀ i v, i < s.cfg.capLen → Mem.read s.cap i = some v → l[i]? = some v) ∧
      (s.reqKind = .vce →
        step s = exec (.txSweepVce l) { s with sched := r, txq := s.txq.eraseIdx k }) ∧
      (s.reqKind = .vbe →
        step s = exec (.txSweepVbe l) { s with sched := r, txq := s.txq.eraseIdx k }))

/-- A frame is sent whole: the Link accepts its bytes in order, all of them end in `tx_out`, the mutex is released, and after
a sweep frame the state is `Idle` (`spec/40_frame_codec.md` R124; the spec's decisions D42, D49). -/
def Obligations.FrameIsSentWhole : Prop :=
  ∀ (s : State) (r : List Event), s.txBusy = true →
    s.sched = List.replicate s.txRest.length .txByte ++ .txDone :: r →
    Host.Core.run Sys2Proof.core (s.txRest.length + 1) s =
      .next ({ s with
        sched := r, txOut := s.txOut ++ s.txRest, txRest := [], txBusy := false, txCur := none,
        sweepState := if s.txCur = some .sweep then .idle else s.sweepState } : State)

/-- Outbound frames are never interleaved: while a frame is being sent, whatever agent moves, the bytes sent and still to be
sent stay the same string, until TX_DONE after the last of them (`spec/20_memory.md` R66, `spec/40_frame_codec.md` R123,
R124; the spec's decision D49). Reset alone cuts a frame. -/
def Obligations.FramesNeverInterleave : Prop :=
  ∀ (s s' : State) (e : Event), s.txBusy = true → e ≠ .rst → runEvent e s = .next s' →
    (s'.txBusy = true ∧ s'.txCur = s.txCur ∧ s'.txOut ++ s'.txRest = s.txOut ++ s.txRest) ∨
    (e = .txDone ∧ s.txRest = [] ∧ s'.txBusy = false ∧ s'.txCur = none ∧ s'.txOut = s.txOut)

/-! ## The heartbeat -/

/-- The acknowledgement window: HB_SEND opens none while one is open; HB_TAKE closes it on an acknowledgement; HB_TIMEOUT
counts a miss, and the `HB_MISS_N`-th in a row posts one `Disconnect` and clears `connected`; each does nothing where it
is not enabled (`spec/60_exceptions.md` R219, R220, R221; the spec's decisions D47, D48; the hold is log 4). -/
def Obligations.HeartbeatWindow : Prop :=
  ∀ (s : State) (r : List Event),
    (s.sched = .hbKick :: r → s.hbWaiting = true → step s = .next { s with sched := r }) ∧
    (s.sched = .hbTake :: r →
      (s.hbWaiting = true → s.hbAck = true →
        step s = .next { s with sched := r, hbAck := false, hbWaiting := false, hbMiss := 0 }) ∧
      (s.hbWaiting = false ∨ s.hbAck = false → step s = .next { s with sched := r })) ∧
    (s.sched = .hbExpire :: r →
      (s.hbWaiting = true → s.hbAck = false → s.hbMiss + 1 < s.cfg.hbMissN →
        step s = .next { s with sched := r, hbWaiting := false, hbMiss := s.hbMiss + 1 }) ∧
      (s.hbWaiting = true → s.hbAck = false → s.cfg.hbMissN ≤ s.hbMiss + 1 →
        step s = .next { s with
          sched := r, hbWaiting := false, hbMiss := 0, connected := false,
          statusOut := s.statusOut ++ [.disconnect] }) ∧
      (s.hbWaiting = false ∨ s.hbAck = true → step s = .next { s with sched := r }))

/-- Heartbeat liveness: a `Disconnect` is posted exactly by the HB_TIMEOUT at which `hb_miss` reaches `HB_MISS_N`, one at a
time, which closes the window; only HB_SEND opens one (`spec/60_exceptions.md` R226, derived there). -/
def Obligations.OneDisconnectPerWindow : Prop :=
  ∀ (s s' : State) (e : Event), e ≠ .rst → runEvent e s = .next s' →
    s'.statusOut.count .disconnect = s.statusOut.count .disconnect +
      (if e = .hbExpire ∧ s.hbWaiting = true ∧ s.hbAck = false ∧ s.cfg.hbMissN ≤ s.hbMiss + 1 then 1 else 0) ∧
    (e = .hbExpire → s'.hbWaiting = true → s.hbWaiting = true ∧ s.hbAck = true) ∧
    (s.hbWaiting = false → s'.hbWaiting = true → e = .hbKick)

/-! ## Reset -/

/-- The values of `spec/10_state.md` R33 at `State.reset`, where R33 states one (the spec's decision D51), with the values
of `spec/00_scope.md` R4 and the defaults of `spec/93_implementation_defined.md` U4, U6, U7 and U8 in its configuration; the
memories R33 calls unspecified list nothing, so that a read gives no value (the model's, log 9 and log 10). Before reset, a
configuration is accepted exactly where it breaks no constraint of R4 (`spec/93_implementation_defined.md` U19), its
characters are bytes, and it breaks none of the last five conditions; the bytes and those five are the model's inference
(log 30). -/
def Obligations.ResetValues : Prop :=
  (let s := State.reset
   s.rxLen = 0 ∧ s.iq = [] ∧ s.reqValid = false ∧ s.stepIndex = 0 ∧ s.sweepState = .idle ∧ s.done = false ∧
   s.dmaArmed = false ∧ s.adcRun = false ∧ s.timerRun = false ∧ s.dmaWrIdx = 0 ∧ s.connected = true ∧
   s.hbAck = false ∧ s.hbWaiting = false ∧ s.hbMiss = 0 ∧ s.txBusy = false ∧ s.txq = [] ∧ s.statusOut = [] ∧
   s.txOut = [] ∧ s.ampEn = false ∧ s.gainVal = 255 ∧ s.dacCode0 = 0 ∧ s.dacCode1 = 0 ∧
   (∀ i, Mem.read s.rxBuf i = none ∧ Mem.read s.ramp i = none ∧ Mem.read s.cap i = none) ∧
   s.cfg.frameCap = 50 ∧ s.cfg.argCap = 40 ∧ s.cfg.hdrIn = [0x51, 0x54, 0x3A] ∧ s.cfg.sep = 0x3B ∧
   s.cfg.termIn = 0x2E ∧ s.cfg.hdrOut = [0x52, 0x50, 0x3A] ∧ s.cfg.termOut = [0x65, 0x6E, 0x64] ∧
   s.cfg.argDelim = 0x2D ∧ s.cfg.sweepUs = 40000 ∧ s.cfg.stepUs = 200 ∧ s.cfg.rampLen = 201 ∧
   s.cfg.dacMax = 4095 ∧ s.cfg.vfsMv = 5000 ∧ s.cfg.ampMax = 50 ∧ s.cfg.gainOff = 255 ∧ s.cfg.chVce = .ch0 ∧
   s.cfg.chVbe = .ch1 ∧ s.cfg.hbMissN = 1 ∧ s.cfg.names = given.names ∧ s.cfg.halvesDown = [] ∧
   s.cfg.idleTimeout = false ∧ s.cfg.infoPosts = false) ∧
  (∀ r : RawParams, (∃ p, Params.ofRaw r = .ok p) ↔
    7 ≤ r.frameCap ∧ r.argCap + 8 ≤ r.frameCap ∧ r.hdrIn.length = 3 ∧
    (∀ v, v ∈ r.hdrIn ++ r.hdrOut ++ r.termOut ++ [r.sep, r.termIn, r.argDelim] → v ≤ 255) ∧
    0 < r.stepUs ∧ r.sweepUs % r.stepUs = 0 ∧
    r.sweepUs / r.stepUs + 1 ≤ 255 ∧ r.vbeTargetMv ≤ r.vfsMv ∧ r.capLen % 2 = 0 ∧ 2 ≤ r.capLen ∧
    1 ≤ r.gainTable.length ∧ r.gainTable.length ≤ 256 ∧ (∀ v, v ∈ r.gainTable → v ≤ 255) ∧ r.gainOff ≤ 255 ∧
    r.chVce ≤ 1 ∧ r.chVbe ≤ 1 ∧ r.relayVce ≤ 1 ∧ r.relayVbe ≤ 1 ∧ r.gswVce ≤ 1 ∧ r.gswVbe ≤ 1 ∧ 1 ≤ r.iqDepth ∧
    1 ≤ r.hbMissN ∧
    r.frameCap ≤ 63 ∧ 1 ≤ r.sweepUs / r.stepUs ∧ r.dacMax ≤ 4095 ∧ 1 ≤ r.vfsMv ∧ r.vfsMv / 100 ≤ 63)

/-- Reset in any state, also during a sweep or a transmission, gives the values of R33 and posts and sends nothing
(`spec/70_reset_and_hazards.md` R230, R232; the spec's decisions D51, D52); the configuration, the bytes at the Link and the
schedule stay (the model's, log 5 and log 11). -/
def Obligations.ResetFromAnyState : Prop :=
  ∀ (s : State) (r : List Event), s.sched = .rst :: r → ∃ t : State, step s = .next t ∧
    t.rxLen = 0 ∧ t.iq = [] ∧ t.reqValid = false ∧ t.stepIndex = 0 ∧ t.sweepState = .idle ∧ t.done = false ∧
    t.dmaArmed = false ∧ t.adcRun = false ∧ t.timerRun = false ∧ t.dmaWrIdx = 0 ∧ t.connected = true ∧
    t.hbAck = false ∧ t.hbWaiting = false ∧ t.hbMiss = 0 ∧ t.txBusy = false ∧ t.txq = [] ∧ t.statusOut = [] ∧
    t.txOut = [] ∧ t.txRest = [] ∧ t.ampEn = false ∧ t.gainVal = s.cfg.gainOff ∧ t.dacCode0 = 0 ∧ t.dacCode1 = 0 ∧
    (∀ i, Mem.read t.rxBuf i = none ∧ Mem.read t.ramp i = none ∧ Mem.read t.cap i = none) ∧
    t.cfg = s.cfg ∧ t.linkRx = s.linkRx ∧ t.sched = r

/-! ## Whole-machine properties -/

/-- The invariant holds after reset. -/
def Obligations.InvAtReset : Prop := Inv State.reset

/-- The invariant, (I-a) to (I-g) of `spec/10_state.md` R36 among it, is kept by every step of every agent, whatever the
environment draws (R36, derived there). -/
def Obligations.InvKeptByEveryStep : Prop :=
  ∀ s s' : State, Inv s → step s = .next s' → Inv s'

/-- No step from a state with the invariant faults or is refused: no rule produces an index outside a memory, and no rule
reads an element that holds no value (`spec/20_memory.md` R48, `spec/10_state.md` R34). -/
def Obligations.NoFaultUnderInv : Prop :=
  ∀ s : State, Inv s → ∃ s', step s = .next s'

/-- Every step keeps the canonical form of the three memories, from every state, reachable or not
(`spec/20_memory.md` R46, R48). -/
def Obligations.MemoriesStayCanonical : Prop :=
  ∀ s s' : State, Mem.wf s.cfg.frameCap s.rxBuf = true → Mem.wf s.cfg.rampLen s.ramp = true →
    Mem.wf s.cfg.capLen s.cap = true → step s = .next s' →
    Mem.wf s'.cfg.frameCap s'.rxBuf = true ∧ Mem.wf s'.cfg.rampLen s'.ramp = true ∧
    Mem.wf s'.cfg.capLen s'.cap = true ∧ s'.cfg = s.cfg

/-- The complete transition table: `sweep_state` changes only by a row of R141, and a tick leaves `Running` exactly at step
index `S` (200 with R4's values; `spec/42_acquisition_fsm.md` R141, derived there; reset apart, R155). -/
def Obligations.SweepStateFollowsTheTable : Prop :=
  ∀ (s s' : State) (e : Event), Inv s → e ≠ .rst → runEvent e s = .next s' →
    (s'.sweepState = s.sweepState ∨ Transition s.sweepState e s'.sweepState) ∧
    (e.isTick = true → s.timerRun = true → (s'.sweepState = .draining ↔ s.stepIndex.toNat = s.cfg.rampSteps))

/-- `spec/42_acquisition_fsm.md` R155: while a sweep is `Running`, only its own ticks and captures, and reset, change the
sweep: no command, no StatusEvent, no heartbeat outcome and no transmission does. In every fair run it runs to completion:
the ticks come (`spec/60_exceptions.md` R200), and the state is `Complete` in the end, unless reset comes. -/
def Obligations.NoSweepCancellation : Prop :=
  (∀ (s s' : State) (e : Event), Inv s → s.sweepState = .running → runEvent e s = .next s' →
    e.isTick = false → (∀ v, e ≠ .capWrite v) → e ≠ .rst →
    s'.sweepState = .running ∧ s'.stepIndex = s.stepIndex ∧ s'.timerRun = s.timerRun ∧ s'.dmaArmed = s.dmaArmed ∧
    s'.adcRun = s.adcRun ∧ s'.dmaWrIdx = s.dmaWrIdx ∧ s'.cap = s.cap ∧ s'.ramp = s.ramp) ∧
  (∀ (st : Nat → State) (ev : Nat → Event), FairRun st ev → Inv (st 0) → ∀ n,
    ((st n).timerRun = true → ∃ m, n ≤ m ∧ (ev m = .rst ∨ ((ev m).isTick = true ∧ (st m).timerRun = true))) ∧
    ((st n).sweepState = .running → ∃ m, n ≤ m ∧ ((st m).sweepState = .complete ∨ ev m = .rst)))

/-- `spec/20_memory.md` R55, the hard invariant: `cap` is never read while the DMA is armed. Whatever `cap` holds, an armed
machine takes the same step, up to `cap` itself; and a sweep frame is served or sent only in `Complete`, where the DMA is
disarmed. -/
def Obligations.CapNeverReadWhileArmed : Prop :=
  (∀ (s s' : State) (e : Event) (m : Mem 16), Inv s → s.dmaArmed = true → runEvent e s = .next s' →
    ∃ m', runEvent e { s with cap := m } = .next { s' with cap := m' }) ∧
  (∀ s : State, Inv s → .sweep ∈ s.txq ∨ s.txCur = some .sweep → s.sweepState = .complete ∧ s.dmaArmed = false)

/-- `spec/60_exceptions.md` R195: no rule reads `status_out`, and a posted event cannot be withdrawn: every step appends to
the stream, and does the same whatever the stream holds (reset apart, which starts the history anew, R231; log 11). -/
def Obligations.StatusStreamIsWriteOnly : Prop :=
  ∀ (s s' : State) (e : Event), e ≠ .rst → runEvent e s = .next s' →
    ∃ p, s'.statusOut = s.statusOut ++ p ∧
      ∀ l, runEvent e { s with statusOut := l } = .next { s' with statusOut := l ++ p }

/-- Each failure is reported by exactly one post, and only codes 1, 4, 5, 6 and 7 are posted (`spec/60_exceptions.md` R190,
R191, R194; the spec's decision D29); in a configuration that has them, `Ok`, `Transmit` and `Receive` are posted too, each
by an event of its own that does nothing else (`spec/93_implementation_defined.md` U8). -/
def Obligations.OnePostPerStep : Prop :=
  (∀ (s : State) (ev : StatusEvent), s.cfg.infoPosts = true → ev ∈ [.ok, .transmit, .receive] →
    runEvent (.infoPost ev) s = .next { s with statusOut := s.statusOut ++ [ev] }) ∧
  ∀ (s s' : State) (e : Event), e ≠ .rst → runEvent e s = .next s' →
    s'.statusOut = s.statusOut ∨
    ∃ ev, s'.statusOut = s.statusOut ++ [ev] ∧
      (ev ∈ [.errorGeneric, .timeout, .overflow, .errorReceive, .disconnect] ∨
        s.cfg.infoPosts = true ∧ e = .infoPost ev ∧ ev ∈ [.ok, .transmit, .receive]) ∧
      (ev = .overflow → e = .rxByte) ∧ (ev = .timeout → e = .rxExpire) ∧ (ev = .disconnect → e = .hbExpire) ∧
      (ev = .errorReceive → e = .rxFrame ∨ e = .dispatch) ∧
      (ev = .errorGeneric → e = .armResult .hwFail ∨ e = .armResult .timerFail)

/-- The request registers and the RampTable are the immutable snapshot of the sweep: only a DISPATCH in `Idle` or `Faulted`
writes them (`spec/10_state.md` R17, derived there; reset apart). -/
def Obligations.RequestIsASnapshot : Prop :=
  ∀ (s s' : State) (e : Event), e ≠ .rst → runEvent e s = .next s' →
    (s'.reqValid = s.reqValid ∧ s'.reqKind = s.reqKind ∧ s'.reqAmp = s.reqAmp ∧ s'.reqGain = s.reqGain ∧
      s'.reqSamples = s.reqSamples ∧ s'.ramp = s.ramp) ∨
    (e = .dispatch ∧ (s.sweepState = .idle ∨ s.sweepState = .faulted) ∧ s'.sweepState = s.sweepState)

/-- `spec/20_memory.md` R56, one writer at a time: `cap` is written by the DMA between tick 0 and the last tick, also inside
a STEP (R63), `ramp` by the DISPATCHER in `Idle` or `Faulted`, `rx_buf` by RECEIVER (reset apart). -/
def Obligations.OneWriterPerMemory : Prop :=
  ∀ (s s' : State) (e : Event), Inv s → e ≠ .rst → runEvent e s = .next s' →
    (s'.cap ≠ s.cap → ((∃ v, e = .capWrite v) ∧ 1 ≤ s.stepIndex.toNat ∨ e.isTick = true) ∧ s.sweepState = .running ∧
      s.stepIndex.toNat ≤ s.cfg.rampSteps) ∧
    (s'.ramp ≠ s.ramp → e = .dispatch ∧ (s.sweepState = .idle ∨ s.sweepState = .faulted)) ∧
    (s'.rxBuf ≠ s.rxBuf → e = .rxByte)

/-- `spec/10_state.md` R21: `step_index` changes in exactly two places: ARM sets it to 0, and a STEP adds 1; it never wraps,
and when it reaches `RAMP_LEN` the timer is stopped (reset apart). -/
def Obligations.StepIndexMovesInTwoPlaces : Prop :=
  ∀ (s s' : State) (e : Event), e ≠ .rst → runEvent e s = .next s' →
    (s'.stepIndex = s.stepIndex ∧ (e.isTick = true → s.timerRun = false)) ∨
    (e = .dispatch ∧ s'.sweepState = .arming ∧ s'.stepIndex = 0) ∨
    (e.isTick = true ∧ s.timerRun = true ∧ s'.stepIndex.toNat = s.stepIndex.toNat + 1 ∧ s'.stepIndex.toNat ≤ s.cfg.rampLen ∧
      (s'.stepIndex.toNat = s.cfg.rampLen → s'.timerRun = false))

/-- In a quiescent state the only enabled events are the environment's, and the posts of U7 and U8 in a configuration that
has them (`spec/70_reset_and_hazards.md` R252, `spec/93_implementation_defined.md` U7, U8; the spec's decision D55). -/
def Obligations.QuiescentAwaitsTheEnvironment : Prop :=
  ∀ (s : State) (e : Event), Inv s → s.quiescent = true → enabled e s = true →
    (∃ b, e = .linkRx b) ∨ (e = .rxByte ∧ s.linkRx ≠ []) ∨ e = .hbKick ∨ (∃ t, e = .textReq t) ∨
    (∃ ev, e = .statusReq ev) ∨ e = .rst ∨ (e = .rxExpire ∧ s.cfg.idleTimeout = true) ∨
    (∃ ev, e = .infoPost ev ∧ s.cfg.infoPosts = true)
end

