-- ==== Sys2Proof/Laws/Codec.lean ====
section
/-! SUPPORT. The wire format's functions: decimal numbers, the scan for a byte, DECODE on a frame given by its parts,
packing, and the outbound frame read by its declared length. -/

namespace Sys2Proof

open Config

/-! ### Decimal numbers -/

theorem digit_toNat {d : Nat} (h : d < 10) : (digit d).toNat = 0x30 + d := by
  simp only [digit, BitVec.toNat_ofNat]
  omega

theorem isDigit_digit {d : Nat} (h : d < 10) : isDigit (digit d) = true := by
  have := digit_toNat h
  simp only [isDigit, Bool.and_eq_true, decide_eq_true_eq]
  omega

/-- The value of digits after a prefix of value `n`. -/
theorem parseDec_append (s t : List Byte) :
    parseDec (s ++ t) = t.foldl (fun n b => n * 10 + (b.toNat - 0x30)) (parseDec s) := by
  simp [parseDec, List.foldl_append]

theorem parseDec_concat (s : List Byte) (b : Byte) : parseDec (s ++ [b]) = parseDec s * 10 + (b.toNat - 0x30) := by
  simp [parseDec_append]

/-- The digits produced in front of `acc`. -/
theorem decDigits_append (fuel n : Nat) (acc : List Byte) : decDigits fuel n acc = decDigits fuel n [] ++ acc := by
  induction fuel generalizing n acc with
  | zero => rfl
  | succ fuel ih =>
    simp only [decDigits]
    split
    · rfl
    · rw [ih, ih (n / 10) [digit (n % 10)]]
      simp

theorem decDigits_succ (fuel n : Nat) :
    decDigits (fuel + 1) n [] = (if n / 10 = 0 then [] else decDigits fuel (n / 10) []) ++ [digit (n % 10)] := by
  simp only [decDigits]
  split
  · rfl
  · rw [decDigits_append]

/-- With enough fuel the digits have the number's value. -/
theorem parseDec_decDigits {fuel n : Nat} (h : n < fuel) : parseDec (decDigits fuel n []) = n := by
  induction fuel generalizing n with
  | zero => omega
  | succ fuel ih =>
    rw [decDigits_succ, parseDec_concat, digit_toNat (Nat.mod_lt _ (by decide))]
    split
    · simp only [parseDec, List.foldl_nil]
      omega
    · rw [ih (by omega)]
      omega

/-- `dec(n)` has the value `n` (`spec/00_scope.md` R8). -/
@[simp] theorem parseDec_dec (n : Nat) : parseDec (dec n) = n := parseDec_decDigits (Nat.lt_succ_self n)

theorem all_isDigit_decDigits (fuel n : Nat) : (decDigits fuel n []).all isDigit = true := by
  induction fuel generalizing n with
  | zero => rfl
  | succ fuel ih =>
    rw [decDigits_succ, List.all_append]
    split
    · simp [isDigit_digit (Nat.mod_lt n (by decide : 0 < 10))]
    · simp [ih, isDigit_digit (Nat.mod_lt n (by decide : 0 < 10))]

theorem dec_ne_nil (n : Nat) : dec n ≠ [] := by
  rw [dec, decDigits_succ]
  simp

/-- `dec(n)` is a number. -/
@[simp] theorem isNumber_dec (n : Nat) : isNumber (dec n) = true := by
  simp only [isNumber, Bool.and_eq_true]
  refine ⟨?_, all_isDigit_decDigits _ _⟩
  simp [dec_ne_nil n]

/-- The bytes of a number are none of the delimiters. -/
theorem notMem_of_isNumber {d : List Byte} {b : Byte} (h : isNumber d = true) (hb : isDigit b = false) : b ∉ d := by
  simp only [isNumber, Bool.and_eq_true, List.all_eq_true] at h
  intro hm
  rw [h.2 b hm] at hb
  cases hb

/-! ### The scan for a byte -/

/-- The scan finds the first `b`, with the slices around it. -/
theorem cutAt_append {b : Byte} {u : List Byte} (v : List Byte) (h : b ∉ u) : cutAt b (u ++ b :: v) = some (u, v) := by
  induction u with
  | nil => simp [cutAt]
  | cons x u ih =>
    simp only [List.mem_cons, not_or] at h
    simp only [List.cons_append, cutAt]
    rw [if_neg (fun e => h.1 e.symm), ih h.2]

theorem cutAt_eq_none {b : Byte} {s : List Byte} : cutAt b s = none ↔ b ∉ s := by
  induction s with
  | nil => simp [cutAt]
  | cons x s ih =>
    simp only [cutAt, List.mem_cons, not_or]
    split
    · subst_vars; simp
    · cases h : cutAt b s with
      | none =>
        have hne : ¬ b = x := fun e => absurd e.symm (by assumption)
        simp [← ih, h, hne]
      | some p =>
        have : ¬ b ∉ s := fun hn => by simp [ih.mpr hn] at h
        simp [this]

/-- What the scan answers is the first occurrence. -/
theorem cutAt_eq_some {b : Byte} {s u v : List Byte} : cutAt b s = some (u, v) ↔ s = u ++ b :: v ∧ b ∉ u := by
  constructor
  · intro h
    induction s generalizing u with
    | nil => simp [cutAt] at h
    | cons x s ih =>
      simp only [cutAt] at h
      split at h
      · subst_vars
        simp only [Option.some.injEq, Prod.mk.injEq] at h
        simp [← h.1, h.2]
      · cases hc : cutAt b s with
        | none => simp [hc] at h
        | some p =>
          obtain ⟨u', v'⟩ := p
          simp only [hc, Option.some.injEq, Prod.mk.injEq] at h
          obtain ⟨rfl, rfl⟩ := h
          obtain ⟨rfl, hn⟩ := ih hc
          refine ⟨rfl, ?_⟩
          simp only [List.mem_cons, not_or]
          exact ⟨fun e => by simp_all, hn⟩
  · rintro ⟨rfl, h⟩
    exact cutAt_append v h

/-! ### DECODE on the parts of a frame -/

/-- Past the header and the separator, DECODE looks at the declared number and the rest. -/
theorem decodeFrame_parts {p : GivenParams} {d : List Byte} (r : List Byte) (h : p.sep ∉ d) :
    decodeFrame p (p.hdrIn ++ d ++ p.sep :: r) =
      if isNumber d then decodeTail p (parseDec d) r else .error .badLength := by
  have ht : (p.hdrIn ++ d ++ p.sep :: r).take p.hdrIn.length = p.hdrIn := by simp
  have hd : (p.hdrIn ++ d ++ p.sep :: r).drop p.hdrIn.length = d ++ p.sep :: r := by simp
  simp only [decodeFrame, ht, hd, ne_eq, not_true_eq_false, if_false, cutAt_append r h]

/-- A byte string with the header and no separator after it. -/
theorem decodeFrame_noSep {p : GivenParams} {r : List Byte} (h : p.sep ∉ r) :
    decodeFrame p (p.hdrIn ++ r) = .error .badLength := by
  have ht : (p.hdrIn ++ r).take p.hdrIn.length = p.hdrIn := by simp
  have hd : (p.hdrIn ++ r).drop p.hdrIn.length = r := by simp
  simp only [decodeFrame, ht, hd, ne_eq, not_true_eq_false, if_false, cutAt_eq_none.mpr h]

theorem decodeTail_parts {p : GivenParams} {body : List Byte} (n : Nat) (rest : List Byte) (h : p.termIn ∉ body) :
    decodeTail p n (body ++ p.termIn :: rest) =
      if body.length ≠ n then .error .lengthMismatch else decodeBody p body := by
  simp only [decodeTail, cutAt_append rest h]

/-- A byte string begins with the header or is rejected for it. -/
theorem append_drop_of_take {f u : List Byte} (h : f.take u.length = u) : f = u ++ f.drop u.length := by
  conv => lhs; rw [← List.take_append_drop u.length f, h]

/-! ### Packing -/

theorem pack_length {l : List Sample} (h : l.length % 2 = 0) : (pack l).length = 3 * (l.length / 2) := by
  induction l using pack.induct with
  | case1 x y rest ih =>
    simp only [List.length_cons] at h
    simp only [pack, packPair, List.length_append, List.length_cons, List.length_nil]
    rw [ih (by omega)]
    omega
  | case2 l hl =>
    cases l with
    | nil => rfl
    | cons x l =>
      cases l with
      | nil => simp at h
      | cons y rest => exact absurd rfl (hl x y rest)

/-- The value of two fields side by side. -/
theorem append_toNat {m n : Nat} (a : BitVec m) (b : BitVec n) : (a ++ b).toNat = a.toNat * 2 ^ n + b.toNat := by
  rw [BitVec.toNat_append, ← Nat.shiftLeft_add_eq_or_of_lt b.isLt, Nat.shiftLeft_eq]

/-- The value of a field. -/
theorem extract_toNat {w : Nat} (a n : Nat) (x : BitVec w) : (x.extractLsb' a n).toNat = x.toNat / 2 ^ a % 2 ^ n := by
  rw [BitVec.extractLsb'_toNat, Nat.shiftRight_eq_div_pow]

theorem lowTwelve_toNat (x : Sample) : (x &&& 0x0FFF).toNat = x.toNat % 4096 := by
  rw [BitVec.toNat_and]; exact Nat.and_two_pow_sub_one_eq_mod x.toNat 12

/-- The middle byte of a packed pair (`spec/20_memory.md` R51). -/
theorem packMiddle_toNat (x y : Sample) :
    (x.extractLsb' 0 4 ++ y.extractLsb' 8 4 : BitVec 8).toNat = x.toNat % 16 * 16 + y.toNat / 256 % 16 :=
  (append_toNat _ _).trans (by rw [extract_toNat, extract_toNat]; simp)

/-- The first sample of a pair comes back from its bytes with bits 15 to 12 zero. -/
theorem unpack_first (x y : Sample) :
    (0#4 ++ x.extractLsb' 4 8 ++ (x.extractLsb' 0 4 ++ y.extractLsb' 8 4 : BitVec 8).extractLsb' 4 4 : BitVec 16)
      = x &&& 0x0FFF := by
  apply BitVec.eq_of_toNat_eq
  rw [lowTwelve_toNat, append_toNat, append_toNat, extract_toNat, extract_toNat, packMiddle_toNat]
  simp only [BitVec.toNat_ofNat]
  omega

/-- The second sample of a pair comes back from its bytes with bits 15 to 12 zero. -/
theorem unpack_second (x y : Sample) :
    (0#4 ++ (x.extractLsb' 0 4 ++ y.extractLsb' 8 4 : BitVec 8).extractLsb' 0 4 ++ y.extractLsb' 0 8 : BitVec 16)
      = y &&& 0x0FFF := by
  apply BitVec.eq_of_toNat_eq
  rw [lowTwelve_toNat, append_toNat, append_toNat, extract_toNat, extract_toNat, packMiddle_toNat]
  simp only [BitVec.toNat_ofNat]
  omega

/-! ### The outbound frame -/

theorem notMem_dec {b : Byte} (n : Nat) (hb : isDigit b = false) : b ∉ dec n := notMem_of_isNumber (isNumber_dec n) hb

/-! ### The fixed payloads -/

theorem mem_statusEvents (ev : StatusEvent) : ev ∈ statusEvents := by cases ev <;> decide

/-- Names that differ name their events (`spec/30_encoding.md` R77, `spec/93_implementation_defined.md` U6). -/
theorem statusPayload_inj {p : GivenParams} (h : namesApart p = true) {ev ew : StatusEvent}
    (he : statusPayload p ev = statusPayload p ew) : ev = ew :=
  List.inj_on_of_nodup_map (List.nodup_cons.mp (of_decide_eq_true h)).2 (mem_statusEvents ev) (mem_statusEvents ew) he

theorem statusPayload_ne_heartbeat {p : GivenParams} (h : namesApart p = true) (ev : StatusEvent) :
    statusPayload p ev ≠ heartbeatPayload := fun he =>
  (List.nodup_cons.mp (of_decide_eq_true h)).1 (he ▸ List.mem_map_of_mem (mem_statusEvents ev))

/-- A payload that no StatusEvent has. -/
theorem statusOf_eq_none {p : GivenParams} {l : List Byte} : statusOf p l = none ↔ ∀ ev, statusPayload p ev ≠ l := by
  simp only [statusOf, List.find?_eq_none, beq_iff_eq]
  exact ⟨fun h ev => h ev (mem_statusEvents ev), fun h ev _ => h ev⟩

/-- What the search for a StatusEvent answers. -/
theorem statusOf_eq_some {p : GivenParams} (h : namesApart p = true) {l : List Byte} {ev : StatusEvent} :
    statusOf p l = some ev ↔ statusPayload p ev = l := by
  have hsome : ∀ {ew}, statusOf p l = some ew → statusPayload p ew = l := fun he =>
    beq_iff_eq.mp (List.find?_some (p := fun ew => statusPayload p ew == l) he)
  refine ⟨hsome, fun he => ?_⟩
  cases hs : statusOf p l with
  | none => exact absurd he (statusOf_eq_none.mp hs ev)
  | some ew => rw [statusPayload_inj h ((hsome hs).trans he.symm)]

end Sys2Proof
end

