-- ==== Sys2Proof/Laws/Memory.lean ====
section
/-! SUPPORT. What the memory operations do: a read after a write, a filled memory, reads and writes with their index
checked, and that every operation keeps the canonical form. -/

namespace Sys2Proof.Machine

variable {w : Nat}

@[simp] theorem Mem.read_nil (a : Nat) : Mem.read ([] : Mem w) a = none := rfl

/-- A read gives the value last written at its index. -/
@[simp] theorem Mem.read_write_same (m : Mem w) (a : Nat) (v : BitVec w) : Mem.read (Mem.write m a v) a = some v := by
  induction m with
  | nil => simp [Mem.write, Mem.read]
  | cons c m ih =>
    obtain ⟨b, u⟩ := c
    simp only [Mem.write]
    split
    · simp [Mem.read]
    · split
      · simp [Mem.read]
      · simp only [Mem.read]
        rw [if_neg (by assumption), ih]

/-- A write leaves every other index as it was. -/
theorem Mem.read_write_other (m : Mem w) {a i : Nat} (v : BitVec w) (h : i ≠ a) :
    Mem.read (Mem.write m a v) i = Mem.read m i := by
  induction m with
  | nil => simp [Mem.write, Mem.read, h]
  | cons c m ih =>
    obtain ⟨b, u⟩ := c
    simp only [Mem.write]
    split
    · simp [Mem.read, h]
    · split
      · subst_vars
        simp [Mem.read, h]
      · simp only [Mem.read, ih]

theorem Mem.read_write (m : Mem w) (a i : Nat) (v : BitVec w) :
    Mem.read (Mem.write m a v) i = if i = a then some v else Mem.read m i := by
  by_cases h : i = a
  · subst h; simp
  · simp [h, Mem.read_write_other m v h]

/-! ### The canonical form -/

/-- In a rising memory every later index is above the first. -/
theorem Mem.rising_cons {a : Nat} {v : BitVec w} {m : Mem w} :
    Mem.rising ((a, v) :: m) = true ↔ (∀ c ∈ m, a < c.1) ∧ Mem.rising m = true := by
  induction m generalizing a v with
  | nil => simp [Mem.rising]
  | cons c m ih =>
    obtain ⟨b, u⟩ := c
    simp only [Mem.rising, Bool.and_eq_true, decide_eq_true_eq, List.mem_cons, forall_eq_or_imp]
    constructor
    · rintro ⟨hab, hr⟩
      exact ⟨⟨hab, fun c hc => lt_trans hab ((ih.mp hr).1 c hc)⟩, hr⟩
    · rintro ⟨⟨hab, -⟩, hr⟩
      exact ⟨hab, hr⟩

theorem Mem.mem_write {m : Mem w} {a : Nat} {v : BitVec w} {c : Nat × BitVec w} (h : c ∈ Mem.write m a v) :
    c = (a, v) ∨ c ∈ m := by
  induction m with
  | nil => simpa [Mem.write] using h
  | cons d m ih =>
    obtain ⟨b, u⟩ := d
    simp only [Mem.write] at h
    split at h
    · simpa using h
    · split at h
      · rcases List.mem_cons.mp h with h | h
        · exact .inl h
        · exact .inr (List.mem_cons_of_mem _ h)
      · rcases List.mem_cons.mp h with h | h
        · exact .inr (by simp [h])
        · exact (ih h).imp_right (List.mem_cons_of_mem _)

theorem Mem.rising_write (m : Mem w) (a : Nat) (v : BitVec w) (h : Mem.rising m = true) :
    Mem.rising (Mem.write m a v) = true := by
  induction m with
  | nil => rfl
  | cons d m ih =>
    obtain ⟨b, u⟩ := d
    obtain ⟨hb, hm⟩ := Mem.rising_cons.mp h
    simp only [Mem.write]
    split
    · refine Mem.rising_cons.mpr ⟨?_, h⟩
      intro c hc
      rcases List.mem_cons.mp hc with rfl | hc
      · assumption
      · exact lt_trans (by assumption) (hb c hc)
    · split
      · subst_vars
        exact Mem.rising_cons.mpr ⟨hb, hm⟩
      · refine Mem.rising_cons.mpr ⟨?_, ih hm⟩
        intro c hc
        rcases Mem.mem_write hc with rfl | hc
        · show b < a
          omega
        · exact hb c hc

/-- A write inside the memory keeps its canonical form. -/
theorem Mem.wf_write {size : Nat} {m : Mem w} {a : Nat} (v : BitVec w) (h : Mem.wf size m = true) (ha : a < size) :
    Mem.wf size (Mem.write m a v) = true := by
  simp only [Mem.wf, Bool.and_eq_true, List.all_eq_true, decide_eq_true_eq] at h ⊢
  refine ⟨Mem.rising_write m a v h.1, fun c hc => ?_⟩
  rcases Mem.mem_write hc with rfl | hc
  · exact ha
  · exact h.2 c hc

/-! ### Writes in a row -/

/-- The elements `vs` written from index `a` on. -/
def Mem.writeRun (m : Mem w) : Nat → List (BitVec w) → Mem w
  | _, [] => m
  | a, v :: vs => Mem.writeRun (Mem.write m a v) (a + 1) vs

/-- What a run of writes leaves at an index: the element written there, else what was there. -/
theorem Mem.read_writeRun (m : Mem w) (a i : Nat) (vs : List (BitVec w)) :
    Mem.read (Mem.writeRun m a vs) i = if a ≤ i ∧ i < a + vs.length then vs[i - a]? else Mem.read m i := by
  induction vs generalizing m a with
  | nil =>
    rw [if_neg (by simp)]; rfl
  | cons v vs ih =>
    simp only [Mem.writeRun]
    rw [ih]
    by_cases h1 : i = a
    · subst h1
      rw [if_neg (by omega), if_pos (by simp)]
      simp
    · by_cases h2 : a + 1 ≤ i ∧ i < a + 1 + vs.length
      · rw [if_pos h2, if_pos (by simp; omega)]
        obtain ⟨k, rfl⟩ : ∃ k, i = a + 1 + k := ⟨i - (a + 1), by omega⟩
        rw [show a + 1 + k - a = k + 1 by omega, show a + 1 + k - (a + 1) = k by omega]
        rfl
      · rw [if_neg h2, if_neg (by simp; omega), Mem.read_write_other m v h1]

/-- A run of writes inside the memory keeps the canonical form. -/
theorem Mem.wf_writeRun {size : Nat} {m : Mem w} {a : Nat} (vs : List (BitVec w)) (h : Mem.wf size m = true)
    (ha : vs = [] ∨ a + vs.length ≤ size) : Mem.wf size (Mem.writeRun m a vs) = true := by
  induction vs generalizing m a with
  | nil => exact h
  | cons v vs ih =>
    have hl : a + (vs.length + 1) ≤ size := by simpa using ha
    exact ih (Mem.wf_write v h (by omega)) (.inr (by omega))

/-- Two runs, one after the other. -/
theorem Mem.writeRun_append (m : Mem w) (a : Nat) (vs us : List (BitVec w)) :
    Mem.writeRun m a (vs ++ us) = Mem.writeRun (Mem.writeRun m a vs) (a + vs.length) us := by
  induction vs generalizing m a with
  | nil => rfl
  | cons v vs ih =>
    simp only [List.cons_append, Mem.writeRun, List.length_cons]
    rw [ih, show a + 1 + vs.length = a + (vs.length + 1) by omega]

@[simp] theorem Mem.wf_nil (size : Nat) : Mem.wf size ([] : Mem w) = true := rfl

/-- A canonical memory lists nothing at or above its size. -/
theorem Mem.read_of_wf {size : Nat} {m : Mem w} (h : Mem.wf size m = true) {i : Nat} (hi : size ≤ i) :
    Mem.read m i = none := by
  simp only [Mem.wf, Bool.and_eq_true, List.all_eq_true, decide_eq_true_eq] at h
  have h2 := h.2
  clear h
  induction m with
  | nil => rfl
  | cons c m ih =>
    obtain ⟨b, u⟩ := c
    have hb : b < size := h2 (b, u) (by simp)
    simp only [Mem.read]
    rw [if_neg (by omega)]
    exact ih fun c hc => h2 c (List.mem_cons_of_mem _ hc)

/-! ### A filled memory -/

theorem Mem.read_fillFrom (vs : List (BitVec w)) (a i : Nat) :
    Mem.read (Mem.fillFrom a vs) (a + i) = vs[i]? := by
  induction vs generalizing a i with
  | nil => rfl
  | cons v vs ih =>
    cases i with
    | zero => simp [Mem.fillFrom, Mem.read]
    | succ i =>
      have := ih (a + 1) i
      simp only [Mem.fillFrom, Mem.read, List.getElem?_cons_succ]
      rw [if_neg (by omega), ← this]
      congr 1
      omega

/-- A filled memory holds the list's values, and nothing beyond them. -/
@[simp] theorem Mem.read_fill (vs : List (BitVec w)) (i : Nat) : Mem.read (Mem.fill vs) i = vs[i]? := by
  have h := Mem.read_fillFrom vs 0 i
  rwa [Nat.zero_add] at h

theorem Mem.mem_fillFrom {vs : List (BitVec w)} {a : Nat} {c : Nat × BitVec w} (h : c ∈ Mem.fillFrom a vs) :
    a ≤ c.1 ∧ c.1 < a + vs.length := by
  induction vs generalizing a with
  | nil => simp [Mem.fillFrom] at h
  | cons v vs ih =>
    rcases List.mem_cons.mp h with rfl | h
    · simp
    · have := ih h
      simp only [List.length_cons]
      omega

theorem Mem.rising_fillFrom (vs : List (BitVec w)) (a : Nat) : Mem.rising (Mem.fillFrom a vs) = true := by
  induction vs generalizing a with
  | nil => rfl
  | cons v vs ih =>
    refine Mem.rising_cons.mpr ⟨fun c hc => ?_, ih (a + 1)⟩
    have := Mem.mem_fillFrom hc
    omega

/-- Filling a memory with at most its size of values gives a canonical memory. -/
theorem Mem.wf_fill {size : Nat} {vs : List (BitVec w)} (h : vs.length ≤ size) : Mem.wf size (Mem.fill vs) = true := by
  simp only [Mem.wf, Bool.and_eq_true, List.all_eq_true, decide_eq_true_eq]
  refine ⟨Mem.rising_fillFrom vs 0, fun c hc => ?_⟩
  have := Mem.mem_fillFrom hc
  omega

/-! ### Reads and writes with their index checked -/

variable {size : Nat} {outside unset : Fault}

/-- A checked read answers the value that an element in range holds. -/
theorem Mem.get_ok {m : Mem w} {a : Nat} {v : BitVec w} :
    Mem.get size outside unset m a = .ok v ↔ a < size ∧ Mem.read m a = some v := by
  simp only [Mem.get]
  split
  · cases h : Mem.read m a <;> simp_all
  · simp_all

/-- A checked write answers the memory with the element written, where the index is in range. -/
theorem Mem.put_ok {m m' : Mem w} {a : Nat} {v : BitVec w} :
    Mem.put size outside m a v = .ok m' ↔ a < size ∧ m' = Mem.write m a v := by
  simp only [Mem.put]
  split <;> simp_all [eq_comm]

/-- A run of reads answers exactly where each of its elements is in range and holds a value. -/
theorem Mem.getRun_ok {m : Mem w} {a n : Nat} {vs : List (BitVec w)} :
    Mem.getRun size outside unset m a n = .ok vs ↔
      vs.length = n ∧ ∀ i (h : i < vs.length), a + i < size ∧ Mem.read m (a + i) = some vs[i] := by
  induction n generalizing a vs with
  | zero =>
    simp only [Mem.getRun, Except.ok.injEq]
    constructor
    · rintro rfl; simp
    · rintro ⟨h, -⟩
      exact (List.length_eq_zero_iff.mp h).symm
  | succ n ih =>
    have key : Mem.getRun size outside unset m a (n + 1) = .ok vs ↔
        ∃ u us, vs = u :: us ∧ Mem.get size outside unset m a = .ok u ∧
          Mem.getRun size outside unset m (a + 1) n = .ok us := by
      simp only [Mem.getRun]
      cases Mem.get size outside unset m a <;> simp only [reduceCtorEq, false_and, and_false, exists_false]
      cases Mem.getRun size outside unset m (a + 1) n <;> simp [eq_comm]
    rw [key]
    constructor
    · rintro ⟨u, us, rfl, hu, hus⟩
      obtain ⟨hl, hall⟩ := ih.mp hus
      refine ⟨by simp [hl], fun i hi => ?_⟩
      cases i with
      | zero => simpa using Mem.get_ok.mp hu
      | succ i =>
        have := hall i (by simpa using hi)
        simpa [Nat.add_assoc, Nat.add_comm 1 i] using this
    · rintro ⟨hl, hall⟩
      cases vs with
      | nil => simp at hl
      | cons u us =>
        refine ⟨u, us, rfl, Mem.get_ok.mpr (hall 0 (by simp)), ih.mpr ⟨by simpa using hl, fun i hi => ?_⟩⟩
        have := hall (i + 1) (by simpa using hi)
        simpa [Nat.add_assoc, Nat.add_comm 1 i] using this

end Sys2Proof.Machine
end

