-- ==== Sys2Proof/Laws/Operands.lean ====
section
/-! SUPPORT. What the operand operations answer: the fields of the `a` argument, the samples of a sweep frame, and the
entries of a ramp. -/

namespace Sys2Proof.Machine

open Config

/-! ### The `a` argument -/

/-- A string without the delimiter is one field. -/
theorem splitFields_of_notMem {delim : Byte} {f : List Byte} (h : delim ∉ f) : splitFields delim f = [f] := by
  induction f with
  | nil => rfl
  | cons b f ih =>
    simp only [List.mem_cons, not_or] at h
    simp only [splitFields]
    rw [if_neg (fun e => h.1 e.symm), ih h.2]

/-- The first field ends at the first delimiter. -/
theorem splitFields_append {delim : Byte} {f : List Byte} (r : List Byte) (h : delim ∉ f) :
    splitFields delim (f ++ delim :: r) = f :: splitFields delim r := by
  induction f with
  | nil => simp [splitFields]
  | cons b f ih =>
    simp only [List.mem_cons, not_or] at h
    simp only [List.cons_append, splitFields]
    rw [if_neg (fun e => h.1 e.symm), ih h.2]

/-- One field is the whole string. -/
theorem splitFields_one {delim : Byte} {l f : List Byte} (h : splitFields delim l = [f]) : l = f := by
  induction l generalizing f with
  | nil => simpa [splitFields] using h
  | cons b l ih =>
    simp only [splitFields] at h
    split at h
    · cases l with
      | nil => simp [splitFields] at h
      | cons c l =>
        simp only [splitFields] at h
        split at h
        · simp at h
        · split at h <;> simp at h
    · split at h
      · rename_i hs
        cases l with
        | nil => simp [splitFields] at hs
        | cons c l =>
          simp only [splitFields] at hs
          split at hs
          · simp at hs
          · split at hs <;> simp at hs
      · rename_i g gs hs
        simp only [List.cons.injEq] at h
        obtain ⟨rfl, rfl⟩ := h
        rw [ih hs]

/-- The first of several fields is followed by a delimiter and the others. -/
theorem splitFields_more {delim : Byte} {l f g : List Byte} {fs : List (List Byte)} (h : splitFields delim l = f :: g :: fs) :
    ∃ r, l = f ++ delim :: r ∧ splitFields delim r = g :: fs := by
  induction l generalizing f with
  | nil => simp [splitFields] at h
  | cons b l ih =>
    simp only [splitFields] at h
    split at h
    · rename_i hb
      simp only [List.cons.injEq] at h
      obtain ⟨rfl, h⟩ := h
      exact ⟨l, by rw [hb]; rfl, h⟩
    · split at h
      · simp at h
      · rename_i f' fs' hs
        simp only [List.cons.injEq] at h
        obtain ⟨rfl, rfl⟩ := h
        obtain ⟨r, rfl, hr⟩ := ih hs
        exact ⟨r, rfl, hr⟩

/-- No field holds the delimiter. -/
theorem notMem_of_splitFields {delim : Byte} {l f : List Byte} (h : f ∈ splitFields delim l) : delim ∉ f := by
  induction l generalizing f with
  | nil =>
    simp only [splitFields, List.mem_singleton] at h
    simp [h]
  | cons b l ih =>
    simp only [splitFields] at h
    split at h
    · rcases List.mem_cons.mp h with rfl | h
      · exact List.not_mem_nil
      · exact ih h
    · rename_i hb
      split at h
      · simp only [List.mem_singleton] at h
        simp [h, Ne.symm hb]
      · rename_i f' fs hs
        rcases List.mem_cons.mp h with rfl | h
        · simp only [List.mem_cons, not_or]
          exact ⟨Ne.symm hb, ih (by simp [hs])⟩
        · exact ih (by simp [hs, h])

theorem parseField_eq_some {most n : Nat} {f : List Byte} :
    parseField most f = some n ↔ isNumber f = true ∧ parseDec f = n ∧ n ≤ most := by
  simp only [parseField]
  split
  · rename_i h
    simp only [Option.some.injEq]
    exact ⟨fun e => ⟨h.1, e, e ▸ h.2⟩, fun e => e.2.1⟩
  · rename_i h
    simp only [false_iff, reduceCtorEq]
    rintro ⟨h1, rfl, h2⟩
    exact h ⟨h1, h2⟩

/-- The `a` argument parses exactly when it is three numbers in range (`spec/30_encoding.md` R76, R88). -/
theorem parseVceArg_eq_some {delim : Byte} {most n a g c : Nat} {arg : List Byte} :
    parseVceArg delim most n arg = some (a, g, c) ↔
      ∃ f0 f1 f2, arg = f0 ++ delim :: (f1 ++ delim :: f2) ∧ delim ∉ f0 ∧ delim ∉ f1 ∧ delim ∉ f2 ∧
        parseField most f0 = some a ∧ parseField (n - 1) f1 = some g ∧ parseField countMax f2 = some c := by
  constructor
  · intro h
    simp only [parseVceArg] at h
    split at h
    · rename_i f0 f1 f2 hs
      have hn : ∀ f ∈ [f0, f1, f2], delim ∉ f := fun f hf => notMem_of_splitFields (hs ▸ hf)
      obtain ⟨r, rfl, hr⟩ := splitFields_more hs
      obtain ⟨r', rfl, hr'⟩ := splitFields_more hr
      split at h
      · cases h
        rw [splitFields_one hr']
        exact ⟨f0, f1, f2, rfl, hn _ (by simp), hn _ (by simp), hn _ (by simp), by assumption, by assumption, by assumption⟩
      · cases h
    · cases h
  · rintro ⟨f0, f1, f2, rfl, n0, n1, n2, h0, h1, h2⟩
    have hs : splitFields delim (f0 ++ delim :: (f1 ++ delim :: f2)) = [f0, f1, f2] := by
      rw [splitFields_append _ n0, splitFields_append _ n1, splitFields_of_notMem n2]
    simp only [parseVceArg, hs, h0, h1, h2]

/-- A parsed `a` argument is in range. -/
theorem parseVceArg_le {delim : Byte} {most n a g c : Nat} {arg : List Byte} (h : parseVceArg delim most n arg = some (a, g, c)) :
    a ≤ most ∧ g ≤ n - 1 ∧ c ≤ countMax := by
  obtain ⟨f0, f1, f2, -, -, -, -, h0, h1, h2⟩ := parseVceArg_eq_some.mp h
  exact ⟨(parseField_eq_some.mp h0).2.2, (parseField_eq_some.mp h1).2.2, (parseField_eq_some.mp h2).2.2⟩

/-! ### The samples of a sweep frame -/

@[simp] theorem capSamples_length (s : State) : s.capSamples.length = s.cfg.capLen := by
  simp [State.capSamples]

theorem capSamples_get (s : State) {i : Nat} (h : i < s.cfg.capLen) : s.capSamples[i]? = some (s.capEntry i) := by
  simp [State.capSamples, h]

theorem capEntry_of_read {s : State} {i : Nat} {v : Sample} (h : Mem.read s.cap i = some v) : s.capEntry i = v := by
  simp [State.capEntry, h]

/-! ### The ramp -/

variable {p : GivenParams}

theorem rampLen_eq (p : GivenParams) : p.rampLen = p.rampSteps + 1 := rfl

@[simp] theorem rampTable_length (m : Nat) : (rampTable p m).length = p.rampLen := by simp [rampTable]

theorem rampTable_get (m : Nat) {i : Nat} (h : i < p.rampLen) :
    (rampTable p m)[i]? = some (BitVec.ofNat 12 (rampCode p m i)) := by
  simp [rampTable, h]

theorem rampTable_get_none (m : Nat) {i : Nat} (h : p.rampLen ≤ i) : (rampTable p m)[i]? = none := by
  simp [rampTable, h]

/-- Every half is rounded up where the configuration rounds none down. -/
theorem roundHalf_up (h : p.halvesDown = []) (a b : Nat) : roundHalf p a b = (a + b) / (2 * b) := by
  simp [roundHalf, h]

/-- All that rounding can do: the result is the half rounded up, or one less at a half that is rounded down. -/
theorem roundHalf_cases (p : GivenParams) (a b : Nat) :
    roundHalf p a b = (a + b) / (2 * b) ∨
      ((a + b) % (2 * b) = 0 ∧ (a + b) / (2 * b) - 1 ∈ p.halvesDown ∧ roundHalf p a b = (a + b) / (2 * b) - 1) := by
  simp only [roundHalf]
  split
  · rename_i h; exact .inr ⟨h.1, h.2, rfl⟩
  · exact .inl rfl

theorem roundHalf_le (p : GivenParams) (a b : Nat) : roundHalf p a b ≤ (a + b) / (2 * b) := by
  rcases roundHalf_cases p a b with h | ⟨-, -, h⟩
  · exact h.le
  · exact h.le.trans (Nat.sub_le _ _)

/-- Rounding does not fall. -/
theorem roundHalf_mono (p : GivenParams) {a c : Nat} (b : Nat) (h : a ≤ c) : roundHalf p a b ≤ roundHalf p c b := by
  rcases h.eq_or_lt with rfl | h
  · exact le_rfl
  have hle := roundHalf_le p a b
  have hdiv : (a + b) / (2 * b) ≤ (c + b) / (2 * b) := Nat.div_le_div_right (by omega)
  rcases roundHalf_cases p c b with hc | ⟨hz, -, hc⟩
  · exact hc ▸ hle.trans hdiv
  rcases hdiv.eq_or_lt with he | hlt
  · have h1 := Nat.div_add_mod (a + b) (2 * b)
    have h2 := Nat.div_add_mod (c + b) (2 * b)
    rw [he] at h1
    generalize 2 * b * ((c + b) / (2 * b)) = x at h1 h2
    omega
  · exact hc ▸ hle.trans (Nat.le_sub_one_of_lt hlt)

/-- Rounding gives a nearest natural, and of two the one that the configuration chooses
(`spec/93_implementation_defined.md` U4). -/
theorem roundHalf_nearest (p : GivenParams) (a : Nat) {b : Nat} (hb : 0 < b) :
    a ≤ (2 * roundHalf p a b + 1) * b ∧ 2 * roundHalf p a b * b ≤ a + b ∧
      ∀ k, a = (2 * k + 1) * b → roundHalf p a b = if k ∈ p.halvesDown then k else k + 1 := by
  have hdm := Nat.div_add_mod (a + b) (2 * b)
  have hlt := Nat.mod_lt (a + b) (show 0 < 2 * b by omega)
  refine ⟨?_, ?_, fun k hk => ?_⟩
  · rcases roundHalf_cases p a b with h | ⟨hz, -, h⟩ <;> rw [h]
    · nlinarith
    · rw [hz] at hdm
      obtain hq | ⟨q, hq⟩ : (a + b) / (2 * b) = 0 ∨ ∃ q, (a + b) / (2 * b) = q + 1 := by
        cases (a + b) / (2 * b) <;> simp
      · rw [hq] at hdm; omega
      · rw [hq] at hdm ⊢; simp only [Nat.add_sub_cancel]; nlinarith
  · have := Nat.mul_le_mul_left (2 * b) (roundHalf_le p a b)
    rw [show 2 * roundHalf p a b * b = 2 * b * roundHalf p a b by ring]
    omega
  · have he : a + b = (k + 1) * (2 * b) := by rw [hk]; ring
    have hm : (a + b) % (2 * b) = 0 := by rw [he]; exact Nat.mul_mod_left _ _
    have hq : (a + b) / (2 * b) = k + 1 := by rw [he]; exact Nat.mul_div_cancel _ (by omega)
    simp [roundHalf, hm, hq]

/-- The ramp function with the values given in place (`spec/41_sweep_planner.md` R132). -/
theorem rampCode_given (m i : Nat) : rampCode given m i = (8190 * m * i + 1000000) / 2000000 := by
  rw [rampCode, roundHalf_up rfl, show given.vfsMv * given.rampSteps = 1000000 from rfl, show given.dacMax = 4095 from rfl,
    show 2 * m * i * 4095 = 8190 * m * i by ring]

/-- No code of a legal target is above full scale. -/
theorem rampCode_le (hv : 1 ≤ p.vfsMv) (hs : 1 ≤ p.rampSteps) {m i : Nat} (hm : m ≤ p.vfsMv) (hi : i ≤ p.rampSteps) :
    rampCode p m i ≤ p.dacMax := by
  have h : m * i * p.dacMax ≤ p.vfsMv * p.rampSteps * p.dacMax := Nat.mul_le_mul_right _ (Nat.mul_le_mul hm hi)
  have hpos : 0 < p.vfsMv * p.rampSteps := Nat.mul_pos hv hs
  refine (roundHalf_le _ _ _).trans (Nat.lt_succ_iff.mp ((Nat.div_lt_iff_lt_mul (by omega)).mpr ?_))
  rw [Nat.succ_mul]
  nlinarith

/-- The codes do not fall. -/
theorem rampCode_mono (m : Nat) {i j : Nat} (h : i ≤ j) : rampCode p m i ≤ rampCode p m j :=
  roundHalf_mono p _ (Nat.mul_le_mul_right _ (Nat.mul_le_mul_left _ h))

end Sys2Proof.Machine
end

