-- ==== Sys2Proof/Laws/State.lean ====
section
/-! SUPPORT. One lemma per field per update of `State`: what each primitive update writes, and that it leaves every other
field as it was. -/

namespace Sys2Proof.Machine

variable (s : State)

/-! ### signalDone -/

@[simp] theorem State.signalDone_cfg : s.signalDone.cfg = s.cfg := rfl
@[simp] theorem State.signalDone_linkRx : s.signalDone.linkRx = s.linkRx := rfl
@[simp] theorem State.signalDone_rxBuf : s.signalDone.rxBuf = s.rxBuf := rfl
@[simp] theorem State.signalDone_rxLen : s.signalDone.rxLen = s.rxLen := rfl
@[simp] theorem State.signalDone_iq : s.signalDone.iq = s.iq := rfl
@[simp] theorem State.signalDone_reqValid : s.signalDone.reqValid = s.reqValid := rfl
@[simp] theorem State.signalDone_reqKind : s.signalDone.reqKind = s.reqKind := rfl
@[simp] theorem State.signalDone_reqAmp : s.signalDone.reqAmp = s.reqAmp := rfl
@[simp] theorem State.signalDone_reqGain : s.signalDone.reqGain = s.reqGain := rfl
@[simp] theorem State.signalDone_reqSamples : s.signalDone.reqSamples = s.reqSamples := rfl
@[simp] theorem State.signalDone_ramp : s.signalDone.ramp = s.ramp := rfl
@[simp] theorem State.signalDone_stepIndex : s.signalDone.stepIndex = s.stepIndex := rfl
@[simp] theorem State.signalDone_done : s.signalDone.done = true := rfl
@[simp] theorem State.signalDone_dmaArmed : s.signalDone.dmaArmed = s.dmaArmed := rfl
@[simp] theorem State.signalDone_adcRun : s.signalDone.adcRun = s.adcRun := rfl
@[simp] theorem State.signalDone_timerRun : s.signalDone.timerRun = s.timerRun := rfl
@[simp] theorem State.signalDone_connected : s.signalDone.connected = s.connected := rfl
@[simp] theorem State.signalDone_hbAck : s.signalDone.hbAck = s.hbAck := rfl
@[simp] theorem State.signalDone_hbWaiting : s.signalDone.hbWaiting = s.hbWaiting := rfl
@[simp] theorem State.signalDone_hbMiss : s.signalDone.hbMiss = s.hbMiss := rfl
@[simp] theorem State.signalDone_txBusy : s.signalDone.txBusy = s.txBusy := rfl
@[simp] theorem State.signalDone_sweepState : s.signalDone.sweepState = s.sweepState := rfl
@[simp] theorem State.signalDone_dacCode0 : s.signalDone.dacCode0 = s.dacCode0 := rfl
@[simp] theorem State.signalDone_dacCode1 : s.signalDone.dacCode1 = s.dacCode1 := rfl
@[simp] theorem State.signalDone_ampEn : s.signalDone.ampEn = s.ampEn := rfl
@[simp] theorem State.signalDone_relay : s.signalDone.relay = s.relay := rfl
@[simp] theorem State.signalDone_gainSw : s.signalDone.gainSw = s.gainSw := rfl
@[simp] theorem State.signalDone_gainVal : s.signalDone.gainVal = s.gainVal := rfl
@[simp] theorem State.signalDone_cap : s.signalDone.cap = s.cap := rfl
@[simp] theorem State.signalDone_dmaWrIdx : s.signalDone.dmaWrIdx = s.dmaWrIdx := rfl
@[simp] theorem State.signalDone_statusOut : s.signalDone.statusOut = s.statusOut := rfl
@[simp] theorem State.signalDone_txq : s.signalDone.txq = s.txq := rfl
@[simp] theorem State.signalDone_txCur : s.signalDone.txCur = s.txCur := rfl
@[simp] theorem State.signalDone_txRest : s.signalDone.txRest = s.txRest := rfl
@[simp] theorem State.signalDone_txOut : s.signalDone.txOut = s.txOut := rfl
@[simp] theorem State.signalDone_ports : s.signalDone.ports = s.ports := rfl
@[simp] theorem State.signalDone_capEpoch : s.signalDone.capEpoch = s.capEpoch := rfl
@[simp] theorem State.signalDone_sched : s.signalDone.sched = s.sched := rfl
@[simp] theorem State.signalDone_draws : s.signalDone.draws = s.draws := rfl

/-! ### takeDone -/

@[simp] theorem State.takeDone_cfg : s.takeDone.cfg = s.cfg := rfl
@[simp] theorem State.takeDone_linkRx : s.takeDone.linkRx = s.linkRx := rfl
@[simp] theorem State.takeDone_rxBuf : s.takeDone.rxBuf = s.rxBuf := rfl
@[simp] theorem State.takeDone_rxLen : s.takeDone.rxLen = s.rxLen := rfl
@[simp] theorem State.takeDone_iq : s.takeDone.iq = s.iq := rfl
@[simp] theorem State.takeDone_reqValid : s.takeDone.reqValid = s.reqValid := rfl
@[simp] theorem State.takeDone_reqKind : s.takeDone.reqKind = s.reqKind := rfl
@[simp] theorem State.takeDone_reqAmp : s.takeDone.reqAmp = s.reqAmp := rfl
@[simp] theorem State.takeDone_reqGain : s.takeDone.reqGain = s.reqGain := rfl
@[simp] theorem State.takeDone_reqSamples : s.takeDone.reqSamples = s.reqSamples := rfl
@[simp] theorem State.takeDone_ramp : s.takeDone.ramp = s.ramp := rfl
@[simp] theorem State.takeDone_stepIndex : s.takeDone.stepIndex = s.stepIndex := rfl
@[simp] theorem State.takeDone_done : s.takeDone.done = false := rfl
@[simp] theorem State.takeDone_dmaArmed : s.takeDone.dmaArmed = s.dmaArmed := rfl
@[simp] theorem State.takeDone_adcRun : s.takeDone.adcRun = s.adcRun := rfl
@[simp] theorem State.takeDone_timerRun : s.takeDone.timerRun = s.timerRun := rfl
@[simp] theorem State.takeDone_connected : s.takeDone.connected = s.connected := rfl
@[simp] theorem State.takeDone_hbAck : s.takeDone.hbAck = s.hbAck := rfl
@[simp] theorem State.takeDone_hbWaiting : s.takeDone.hbWaiting = s.hbWaiting := rfl
@[simp] theorem State.takeDone_hbMiss : s.takeDone.hbMiss = s.hbMiss := rfl
@[simp] theorem State.takeDone_txBusy : s.takeDone.txBusy = s.txBusy := rfl
@[simp] theorem State.takeDone_sweepState : s.takeDone.sweepState = s.sweepState := rfl
@[simp] theorem State.takeDone_dacCode0 : s.takeDone.dacCode0 = s.dacCode0 := rfl
@[simp] theorem State.takeDone_dacCode1 : s.takeDone.dacCode1 = s.dacCode1 := rfl
@[simp] theorem State.takeDone_ampEn : s.takeDone.ampEn = s.ampEn := rfl
@[simp] theorem State.takeDone_relay : s.takeDone.relay = s.relay := rfl
@[simp] theorem State.takeDone_gainSw : s.takeDone.gainSw = s.gainSw := rfl
@[simp] theorem State.takeDone_gainVal : s.takeDone.gainVal = s.gainVal := rfl
@[simp] theorem State.takeDone_cap : s.takeDone.cap = s.cap := rfl
@[simp] theorem State.takeDone_dmaWrIdx : s.takeDone.dmaWrIdx = s.dmaWrIdx := rfl
@[simp] theorem State.takeDone_statusOut : s.takeDone.statusOut = s.statusOut := rfl
@[simp] theorem State.takeDone_txq : s.takeDone.txq = s.txq := rfl
@[simp] theorem State.takeDone_txCur : s.takeDone.txCur = s.txCur := rfl
@[simp] theorem State.takeDone_txRest : s.takeDone.txRest = s.txRest := rfl
@[simp] theorem State.takeDone_txOut : s.takeDone.txOut = s.txOut := rfl
@[simp] theorem State.takeDone_ports : s.takeDone.ports = s.ports := rfl
@[simp] theorem State.takeDone_capEpoch : s.takeDone.capEpoch = s.capEpoch := rfl
@[simp] theorem State.takeDone_sched : s.takeDone.sched = s.sched := rfl
@[simp] theorem State.takeDone_draws : s.takeDone.draws = s.draws := rfl

/-! ### startTimer -/

@[simp] theorem State.startTimer_cfg : s.startTimer.cfg = s.cfg := rfl
@[simp] theorem State.startTimer_linkRx : s.startTimer.linkRx = s.linkRx := rfl
@[simp] theorem State.startTimer_rxBuf : s.startTimer.rxBuf = s.rxBuf := rfl
@[simp] theorem State.startTimer_rxLen : s.startTimer.rxLen = s.rxLen := rfl
@[simp] theorem State.startTimer_iq : s.startTimer.iq = s.iq := rfl
@[simp] theorem State.startTimer_reqValid : s.startTimer.reqValid = s.reqValid := rfl
@[simp] theorem State.startTimer_reqKind : s.startTimer.reqKind = s.reqKind := rfl
@[simp] theorem State.startTimer_reqAmp : s.startTimer.reqAmp = s.reqAmp := rfl
@[simp] theorem State.startTimer_reqGain : s.startTimer.reqGain = s.reqGain := rfl
@[simp] theorem State.startTimer_reqSamples : s.startTimer.reqSamples = s.reqSamples := rfl
@[simp] theorem State.startTimer_ramp : s.startTimer.ramp = s.ramp := rfl
@[simp] theorem State.startTimer_stepIndex : s.startTimer.stepIndex = s.stepIndex := rfl
@[simp] theorem State.startTimer_done : s.startTimer.done = s.done := rfl
@[simp] theorem State.startTimer_dmaArmed : s.startTimer.dmaArmed = s.dmaArmed := rfl
@[simp] theorem State.startTimer_adcRun : s.startTimer.adcRun = s.adcRun := rfl
@[simp] theorem State.startTimer_timerRun : s.startTimer.timerRun = true := rfl
@[simp] theorem State.startTimer_connected : s.startTimer.connected = s.connected := rfl
@[simp] theorem State.startTimer_hbAck : s.startTimer.hbAck = s.hbAck := rfl
@[simp] theorem State.startTimer_hbWaiting : s.startTimer.hbWaiting = s.hbWaiting := rfl
@[simp] theorem State.startTimer_hbMiss : s.startTimer.hbMiss = s.hbMiss := rfl
@[simp] theorem State.startTimer_txBusy : s.startTimer.txBusy = s.txBusy := rfl
@[simp] theorem State.startTimer_sweepState : s.startTimer.sweepState = s.sweepState := rfl
@[simp] theorem State.startTimer_dacCode0 : s.startTimer.dacCode0 = s.dacCode0 := rfl
@[simp] theorem State.startTimer_dacCode1 : s.startTimer.dacCode1 = s.dacCode1 := rfl
@[simp] theorem State.startTimer_ampEn : s.startTimer.ampEn = s.ampEn := rfl
@[simp] theorem State.startTimer_relay : s.startTimer.relay = s.relay := rfl
@[simp] theorem State.startTimer_gainSw : s.startTimer.gainSw = s.gainSw := rfl
@[simp] theorem State.startTimer_gainVal : s.startTimer.gainVal = s.gainVal := rfl
@[simp] theorem State.startTimer_cap : s.startTimer.cap = s.cap := rfl
@[simp] theorem State.startTimer_dmaWrIdx : s.startTimer.dmaWrIdx = s.dmaWrIdx := rfl
@[simp] theorem State.startTimer_statusOut : s.startTimer.statusOut = s.statusOut := rfl
@[simp] theorem State.startTimer_txq : s.startTimer.txq = s.txq := rfl
@[simp] theorem State.startTimer_txCur : s.startTimer.txCur = s.txCur := rfl
@[simp] theorem State.startTimer_txRest : s.startTimer.txRest = s.txRest := rfl
@[simp] theorem State.startTimer_txOut : s.startTimer.txOut = s.txOut := rfl
@[simp] theorem State.startTimer_ports : s.startTimer.ports = s.ports := rfl
@[simp] theorem State.startTimer_capEpoch : s.startTimer.capEpoch = s.capEpoch := rfl
@[simp] theorem State.startTimer_sched : s.startTimer.sched = s.sched := rfl
@[simp] theorem State.startTimer_draws : s.startTimer.draws = s.draws := rfl

/-! ### stopTimer -/

@[simp] theorem State.stopTimer_cfg : s.stopTimer.cfg = s.cfg := rfl
@[simp] theorem State.stopTimer_linkRx : s.stopTimer.linkRx = s.linkRx := rfl
@[simp] theorem State.stopTimer_rxBuf : s.stopTimer.rxBuf = s.rxBuf := rfl
@[simp] theorem State.stopTimer_rxLen : s.stopTimer.rxLen = s.rxLen := rfl
@[simp] theorem State.stopTimer_iq : s.stopTimer.iq = s.iq := rfl
@[simp] theorem State.stopTimer_reqValid : s.stopTimer.reqValid = s.reqValid := rfl
@[simp] theorem State.stopTimer_reqKind : s.stopTimer.reqKind = s.reqKind := rfl
@[simp] theorem State.stopTimer_reqAmp : s.stopTimer.reqAmp = s.reqAmp := rfl
@[simp] theorem State.stopTimer_reqGain : s.stopTimer.reqGain = s.reqGain := rfl
@[simp] theorem State.stopTimer_reqSamples : s.stopTimer.reqSamples = s.reqSamples := rfl
@[simp] theorem State.stopTimer_ramp : s.stopTimer.ramp = s.ramp := rfl
@[simp] theorem State.stopTimer_stepIndex : s.stopTimer.stepIndex = s.stepIndex := rfl
@[simp] theorem State.stopTimer_done : s.stopTimer.done = s.done := rfl
@[simp] theorem State.stopTimer_dmaArmed : s.stopTimer.dmaArmed = s.dmaArmed := rfl
@[simp] theorem State.stopTimer_adcRun : s.stopTimer.adcRun = s.adcRun := rfl
@[simp] theorem State.stopTimer_timerRun : s.stopTimer.timerRun = false := rfl
@[simp] theorem State.stopTimer_connected : s.stopTimer.connected = s.connected := rfl
@[simp] theorem State.stopTimer_hbAck : s.stopTimer.hbAck = s.hbAck := rfl
@[simp] theorem State.stopTimer_hbWaiting : s.stopTimer.hbWaiting = s.hbWaiting := rfl
@[simp] theorem State.stopTimer_hbMiss : s.stopTimer.hbMiss = s.hbMiss := rfl
@[simp] theorem State.stopTimer_txBusy : s.stopTimer.txBusy = s.txBusy := rfl
@[simp] theorem State.stopTimer_sweepState : s.stopTimer.sweepState = s.sweepState := rfl
@[simp] theorem State.stopTimer_dacCode0 : s.stopTimer.dacCode0 = s.dacCode0 := rfl
@[simp] theorem State.stopTimer_dacCode1 : s.stopTimer.dacCode1 = s.dacCode1 := rfl
@[simp] theorem State.stopTimer_ampEn : s.stopTimer.ampEn = s.ampEn := rfl
@[simp] theorem State.stopTimer_relay : s.stopTimer.relay = s.relay := rfl
@[simp] theorem State.stopTimer_gainSw : s.stopTimer.gainSw = s.gainSw := rfl
@[simp] theorem State.stopTimer_gainVal : s.stopTimer.gainVal = s.gainVal := rfl
@[simp] theorem State.stopTimer_cap : s.stopTimer.cap = s.cap := rfl
@[simp] theorem State.stopTimer_dmaWrIdx : s.stopTimer.dmaWrIdx = s.dmaWrIdx := rfl
@[simp] theorem State.stopTimer_statusOut : s.stopTimer.statusOut = s.statusOut := rfl
@[simp] theorem State.stopTimer_txq : s.stopTimer.txq = s.txq := rfl
@[simp] theorem State.stopTimer_txCur : s.stopTimer.txCur = s.txCur := rfl
@[simp] theorem State.stopTimer_txRest : s.stopTimer.txRest = s.txRest := rfl
@[simp] theorem State.stopTimer_txOut : s.stopTimer.txOut = s.txOut := rfl
@[simp] theorem State.stopTimer_ports : s.stopTimer.ports = s.ports := rfl
@[simp] theorem State.stopTimer_capEpoch : s.stopTimer.capEpoch = s.capEpoch := rfl
@[simp] theorem State.stopTimer_sched : s.stopTimer.sched = s.sched := rfl
@[simp] theorem State.stopTimer_draws : s.stopTimer.draws = s.draws := rfl

/-! ### acknowledge -/

@[simp] theorem State.acknowledge_cfg : s.acknowledge.cfg = s.cfg := rfl
@[simp] theorem State.acknowledge_linkRx : s.acknowledge.linkRx = s.linkRx := rfl
@[simp] theorem State.acknowledge_rxBuf : s.acknowledge.rxBuf = s.rxBuf := rfl
@[simp] theorem State.acknowledge_rxLen : s.acknowledge.rxLen = s.rxLen := rfl
@[simp] theorem State.acknowledge_iq : s.acknowledge.iq = s.iq := rfl
@[simp] theorem State.acknowledge_reqValid : s.acknowledge.reqValid = s.reqValid := rfl
@[simp] theorem State.acknowledge_reqKind : s.acknowledge.reqKind = s.reqKind := rfl
@[simp] theorem State.acknowledge_reqAmp : s.acknowledge.reqAmp = s.reqAmp := rfl
@[simp] theorem State.acknowledge_reqGain : s.acknowledge.reqGain = s.reqGain := rfl
@[simp] theorem State.acknowledge_reqSamples : s.acknowledge.reqSamples = s.reqSamples := rfl
@[simp] theorem State.acknowledge_ramp : s.acknowledge.ramp = s.ramp := rfl
@[simp] theorem State.acknowledge_stepIndex : s.acknowledge.stepIndex = s.stepIndex := rfl
@[simp] theorem State.acknowledge_done : s.acknowledge.done = s.done := rfl
@[simp] theorem State.acknowledge_dmaArmed : s.acknowledge.dmaArmed = s.dmaArmed := rfl
@[simp] theorem State.acknowledge_adcRun : s.acknowledge.adcRun = s.adcRun := rfl
@[simp] theorem State.acknowledge_timerRun : s.acknowledge.timerRun = s.timerRun := rfl
@[simp] theorem State.acknowledge_connected : s.acknowledge.connected = true := rfl
@[simp] theorem State.acknowledge_hbAck : s.acknowledge.hbAck = true := rfl
@[simp] theorem State.acknowledge_hbWaiting : s.acknowledge.hbWaiting = s.hbWaiting := rfl
@[simp] theorem State.acknowledge_hbMiss : s.acknowledge.hbMiss = s.hbMiss := rfl
@[simp] theorem State.acknowledge_txBusy : s.acknowledge.txBusy = s.txBusy := rfl
@[simp] theorem State.acknowledge_sweepState : s.acknowledge.sweepState = s.sweepState := rfl
@[simp] theorem State.acknowledge_dacCode0 : s.acknowledge.dacCode0 = s.dacCode0 := rfl
@[simp] theorem State.acknowledge_dacCode1 : s.acknowledge.dacCode1 = s.dacCode1 := rfl
@[simp] theorem State.acknowledge_ampEn : s.acknowledge.ampEn = s.ampEn := rfl
@[simp] theorem State.acknowledge_relay : s.acknowledge.relay = s.relay := rfl
@[simp] theorem State.acknowledge_gainSw : s.acknowledge.gainSw = s.gainSw := rfl
@[simp] theorem State.acknowledge_gainVal : s.acknowledge.gainVal = s.gainVal := rfl
@[simp] theorem State.acknowledge_cap : s.acknowledge.cap = s.cap := rfl
@[simp] theorem State.acknowledge_dmaWrIdx : s.acknowledge.dmaWrIdx = s.dmaWrIdx := rfl
@[simp] theorem State.acknowledge_statusOut : s.acknowledge.statusOut = s.statusOut := rfl
@[simp] theorem State.acknowledge_txq : s.acknowledge.txq = s.txq := rfl
@[simp] theorem State.acknowledge_txCur : s.acknowledge.txCur = s.txCur := rfl
@[simp] theorem State.acknowledge_txRest : s.acknowledge.txRest = s.txRest := rfl
@[simp] theorem State.acknowledge_txOut : s.acknowledge.txOut = s.txOut := rfl
@[simp] theorem State.acknowledge_ports : s.acknowledge.ports = s.ports := rfl
@[simp] theorem State.acknowledge_capEpoch : s.acknowledge.capEpoch = s.capEpoch := rfl
@[simp] theorem State.acknowledge_sched : s.acknowledge.sched = s.sched := rfl
@[simp] theorem State.acknowledge_draws : s.acknowledge.draws = s.draws := rfl

/-! ### takeAck -/

@[simp] theorem State.takeAck_cfg : s.takeAck.cfg = s.cfg := rfl
@[simp] theorem State.takeAck_linkRx : s.takeAck.linkRx = s.linkRx := rfl
@[simp] theorem State.takeAck_rxBuf : s.takeAck.rxBuf = s.rxBuf := rfl
@[simp] theorem State.takeAck_rxLen : s.takeAck.rxLen = s.rxLen := rfl
@[simp] theorem State.takeAck_iq : s.takeAck.iq = s.iq := rfl
@[simp] theorem State.takeAck_reqValid : s.takeAck.reqValid = s.reqValid := rfl
@[simp] theorem State.takeAck_reqKind : s.takeAck.reqKind = s.reqKind := rfl
@[simp] theorem State.takeAck_reqAmp : s.takeAck.reqAmp = s.reqAmp := rfl
@[simp] theorem State.takeAck_reqGain : s.takeAck.reqGain = s.reqGain := rfl
@[simp] theorem State.takeAck_reqSamples : s.takeAck.reqSamples = s.reqSamples := rfl
@[simp] theorem State.takeAck_ramp : s.takeAck.ramp = s.ramp := rfl
@[simp] theorem State.takeAck_stepIndex : s.takeAck.stepIndex = s.stepIndex := rfl
@[simp] theorem State.takeAck_done : s.takeAck.done = s.done := rfl
@[simp] theorem State.takeAck_dmaArmed : s.takeAck.dmaArmed = s.dmaArmed := rfl
@[simp] theorem State.takeAck_adcRun : s.takeAck.adcRun = s.adcRun := rfl
@[simp] theorem State.takeAck_timerRun : s.takeAck.timerRun = s.timerRun := rfl
@[simp] theorem State.takeAck_connected : s.takeAck.connected = s.connected := rfl
@[simp] theorem State.takeAck_hbAck : s.takeAck.hbAck = false := rfl
@[simp] theorem State.takeAck_hbWaiting : s.takeAck.hbWaiting = false := rfl
@[simp] theorem State.takeAck_hbMiss : s.takeAck.hbMiss = 0 := rfl
@[simp] theorem State.takeAck_txBusy : s.takeAck.txBusy = s.txBusy := rfl
@[simp] theorem State.takeAck_sweepState : s.takeAck.sweepState = s.sweepState := rfl
@[simp] theorem State.takeAck_dacCode0 : s.takeAck.dacCode0 = s.dacCode0 := rfl
@[simp] theorem State.takeAck_dacCode1 : s.takeAck.dacCode1 = s.dacCode1 := rfl
@[simp] theorem State.takeAck_ampEn : s.takeAck.ampEn = s.ampEn := rfl
@[simp] theorem State.takeAck_relay : s.takeAck.relay = s.relay := rfl
@[simp] theorem State.takeAck_gainSw : s.takeAck.gainSw = s.gainSw := rfl
@[simp] theorem State.takeAck_gainVal : s.takeAck.gainVal = s.gainVal := rfl
@[simp] theorem State.takeAck_cap : s.takeAck.cap = s.cap := rfl
@[simp] theorem State.takeAck_dmaWrIdx : s.takeAck.dmaWrIdx = s.dmaWrIdx := rfl
@[simp] theorem State.takeAck_statusOut : s.takeAck.statusOut = s.statusOut := rfl
@[simp] theorem State.takeAck_txq : s.takeAck.txq = s.txq := rfl
@[simp] theorem State.takeAck_txCur : s.takeAck.txCur = s.txCur := rfl
@[simp] theorem State.takeAck_txRest : s.takeAck.txRest = s.txRest := rfl
@[simp] theorem State.takeAck_txOut : s.takeAck.txOut = s.txOut := rfl
@[simp] theorem State.takeAck_ports : s.takeAck.ports = s.ports := rfl
@[simp] theorem State.takeAck_capEpoch : s.takeAck.capEpoch = s.capEpoch := rfl
@[simp] theorem State.takeAck_sched : s.takeAck.sched = s.sched := rfl
@[simp] theorem State.takeAck_draws : s.takeAck.draws = s.draws := rfl

/-! ### openWindow -/

@[simp] theorem State.openWindow_cfg : s.openWindow.cfg = s.cfg := rfl
@[simp] theorem State.openWindow_linkRx : s.openWindow.linkRx = s.linkRx := rfl
@[simp] theorem State.openWindow_rxBuf : s.openWindow.rxBuf = s.rxBuf := rfl
@[simp] theorem State.openWindow_rxLen : s.openWindow.rxLen = s.rxLen := rfl
@[simp] theorem State.openWindow_iq : s.openWindow.iq = s.iq := rfl
@[simp] theorem State.openWindow_reqValid : s.openWindow.reqValid = s.reqValid := rfl
@[simp] theorem State.openWindow_reqKind : s.openWindow.reqKind = s.reqKind := rfl
@[simp] theorem State.openWindow_reqAmp : s.openWindow.reqAmp = s.reqAmp := rfl
@[simp] theorem State.openWindow_reqGain : s.openWindow.reqGain = s.reqGain := rfl
@[simp] theorem State.openWindow_reqSamples : s.openWindow.reqSamples = s.reqSamples := rfl
@[simp] theorem State.openWindow_ramp : s.openWindow.ramp = s.ramp := rfl
@[simp] theorem State.openWindow_stepIndex : s.openWindow.stepIndex = s.stepIndex := rfl
@[simp] theorem State.openWindow_done : s.openWindow.done = s.done := rfl
@[simp] theorem State.openWindow_dmaArmed : s.openWindow.dmaArmed = s.dmaArmed := rfl
@[simp] theorem State.openWindow_adcRun : s.openWindow.adcRun = s.adcRun := rfl
@[simp] theorem State.openWindow_timerRun : s.openWindow.timerRun = s.timerRun := rfl
@[simp] theorem State.openWindow_connected : s.openWindow.connected = s.connected := rfl
@[simp] theorem State.openWindow_hbAck : s.openWindow.hbAck = s.hbAck := rfl
@[simp] theorem State.openWindow_hbWaiting : s.openWindow.hbWaiting = true := rfl
@[simp] theorem State.openWindow_hbMiss : s.openWindow.hbMiss = s.hbMiss := rfl
@[simp] theorem State.openWindow_txBusy : s.openWindow.txBusy = s.txBusy := rfl
@[simp] theorem State.openWindow_sweepState : s.openWindow.sweepState = s.sweepState := rfl
@[simp] theorem State.openWindow_dacCode0 : s.openWindow.dacCode0 = s.dacCode0 := rfl
@[simp] theorem State.openWindow_dacCode1 : s.openWindow.dacCode1 = s.dacCode1 := rfl
@[simp] theorem State.openWindow_ampEn : s.openWindow.ampEn = s.ampEn := rfl
@[simp] theorem State.openWindow_relay : s.openWindow.relay = s.relay := rfl
@[simp] theorem State.openWindow_gainSw : s.openWindow.gainSw = s.gainSw := rfl
@[simp] theorem State.openWindow_gainVal : s.openWindow.gainVal = s.gainVal := rfl
@[simp] theorem State.openWindow_cap : s.openWindow.cap = s.cap := rfl
@[simp] theorem State.openWindow_dmaWrIdx : s.openWindow.dmaWrIdx = s.dmaWrIdx := rfl
@[simp] theorem State.openWindow_statusOut : s.openWindow.statusOut = s.statusOut := rfl
@[simp] theorem State.openWindow_txq : s.openWindow.txq = s.txq := rfl
@[simp] theorem State.openWindow_txCur : s.openWindow.txCur = s.txCur := rfl
@[simp] theorem State.openWindow_txRest : s.openWindow.txRest = s.txRest := rfl
@[simp] theorem State.openWindow_txOut : s.openWindow.txOut = s.txOut := rfl
@[simp] theorem State.openWindow_ports : s.openWindow.ports = s.ports := rfl
@[simp] theorem State.openWindow_capEpoch : s.openWindow.capEpoch = s.capEpoch := rfl
@[simp] theorem State.openWindow_sched : s.openWindow.sched = s.sched := rfl
@[simp] theorem State.openWindow_draws : s.openWindow.draws = s.draws := rfl

/-! ### missWindow -/

@[simp] theorem State.missWindow_cfg : s.missWindow.cfg = s.cfg := rfl
@[simp] theorem State.missWindow_linkRx : s.missWindow.linkRx = s.linkRx := rfl
@[simp] theorem State.missWindow_rxBuf : s.missWindow.rxBuf = s.rxBuf := rfl
@[simp] theorem State.missWindow_rxLen : s.missWindow.rxLen = s.rxLen := rfl
@[simp] theorem State.missWindow_iq : s.missWindow.iq = s.iq := rfl
@[simp] theorem State.missWindow_reqValid : s.missWindow.reqValid = s.reqValid := rfl
@[simp] theorem State.missWindow_reqKind : s.missWindow.reqKind = s.reqKind := rfl
@[simp] theorem State.missWindow_reqAmp : s.missWindow.reqAmp = s.reqAmp := rfl
@[simp] theorem State.missWindow_reqGain : s.missWindow.reqGain = s.reqGain := rfl
@[simp] theorem State.missWindow_reqSamples : s.missWindow.reqSamples = s.reqSamples := rfl
@[simp] theorem State.missWindow_ramp : s.missWindow.ramp = s.ramp := rfl
@[simp] theorem State.missWindow_stepIndex : s.missWindow.stepIndex = s.stepIndex := rfl
@[simp] theorem State.missWindow_done : s.missWindow.done = s.done := rfl
@[simp] theorem State.missWindow_dmaArmed : s.missWindow.dmaArmed = s.dmaArmed := rfl
@[simp] theorem State.missWindow_adcRun : s.missWindow.adcRun = s.adcRun := rfl
@[simp] theorem State.missWindow_timerRun : s.missWindow.timerRun = s.timerRun := rfl
@[simp] theorem State.missWindow_connected : s.missWindow.connected = s.connected := rfl
@[simp] theorem State.missWindow_hbAck : s.missWindow.hbAck = s.hbAck := rfl
@[simp] theorem State.missWindow_hbWaiting : s.missWindow.hbWaiting = false := rfl
@[simp] theorem State.missWindow_hbMiss : s.missWindow.hbMiss = s.hbMiss + 1 := rfl
@[simp] theorem State.missWindow_txBusy : s.missWindow.txBusy = s.txBusy := rfl
@[simp] theorem State.missWindow_sweepState : s.missWindow.sweepState = s.sweepState := rfl
@[simp] theorem State.missWindow_dacCode0 : s.missWindow.dacCode0 = s.dacCode0 := rfl
@[simp] theorem State.missWindow_dacCode1 : s.missWindow.dacCode1 = s.dacCode1 := rfl
@[simp] theorem State.missWindow_ampEn : s.missWindow.ampEn = s.ampEn := rfl
@[simp] theorem State.missWindow_relay : s.missWindow.relay = s.relay := rfl
@[simp] theorem State.missWindow_gainSw : s.missWindow.gainSw = s.gainSw := rfl
@[simp] theorem State.missWindow_gainVal : s.missWindow.gainVal = s.gainVal := rfl
@[simp] theorem State.missWindow_cap : s.missWindow.cap = s.cap := rfl
@[simp] theorem State.missWindow_dmaWrIdx : s.missWindow.dmaWrIdx = s.dmaWrIdx := rfl
@[simp] theorem State.missWindow_statusOut : s.missWindow.statusOut = s.statusOut := rfl
@[simp] theorem State.missWindow_txq : s.missWindow.txq = s.txq := rfl
@[simp] theorem State.missWindow_txCur : s.missWindow.txCur = s.txCur := rfl
@[simp] theorem State.missWindow_txRest : s.missWindow.txRest = s.txRest := rfl
@[simp] theorem State.missWindow_txOut : s.missWindow.txOut = s.txOut := rfl
@[simp] theorem State.missWindow_ports : s.missWindow.ports = s.ports := rfl
@[simp] theorem State.missWindow_capEpoch : s.missWindow.capEpoch = s.capEpoch := rfl
@[simp] theorem State.missWindow_sched : s.missWindow.sched = s.sched := rfl
@[simp] theorem State.missWindow_draws : s.missWindow.draws = s.draws := rfl

/-! ### disconnect -/

@[simp] theorem State.disconnect_cfg : s.disconnect.cfg = s.cfg := rfl
@[simp] theorem State.disconnect_linkRx : s.disconnect.linkRx = s.linkRx := rfl
@[simp] theorem State.disconnect_rxBuf : s.disconnect.rxBuf = s.rxBuf := rfl
@[simp] theorem State.disconnect_rxLen : s.disconnect.rxLen = s.rxLen := rfl
@[simp] theorem State.disconnect_iq : s.disconnect.iq = s.iq := rfl
@[simp] theorem State.disconnect_reqValid : s.disconnect.reqValid = s.reqValid := rfl
@[simp] theorem State.disconnect_reqKind : s.disconnect.reqKind = s.reqKind := rfl
@[simp] theorem State.disconnect_reqAmp : s.disconnect.reqAmp = s.reqAmp := rfl
@[simp] theorem State.disconnect_reqGain : s.disconnect.reqGain = s.reqGain := rfl
@[simp] theorem State.disconnect_reqSamples : s.disconnect.reqSamples = s.reqSamples := rfl
@[simp] theorem State.disconnect_ramp : s.disconnect.ramp = s.ramp := rfl
@[simp] theorem State.disconnect_stepIndex : s.disconnect.stepIndex = s.stepIndex := rfl
@[simp] theorem State.disconnect_done : s.disconnect.done = s.done := rfl
@[simp] theorem State.disconnect_dmaArmed : s.disconnect.dmaArmed = s.dmaArmed := rfl
@[simp] theorem State.disconnect_adcRun : s.disconnect.adcRun = s.adcRun := rfl
@[simp] theorem State.disconnect_timerRun : s.disconnect.timerRun = s.timerRun := rfl
@[simp] theorem State.disconnect_connected : s.disconnect.connected = false := rfl
@[simp] theorem State.disconnect_hbAck : s.disconnect.hbAck = s.hbAck := rfl
@[simp] theorem State.disconnect_hbWaiting : s.disconnect.hbWaiting = s.hbWaiting := rfl
@[simp] theorem State.disconnect_hbMiss : s.disconnect.hbMiss = 0 := rfl
@[simp] theorem State.disconnect_txBusy : s.disconnect.txBusy = s.txBusy := rfl
@[simp] theorem State.disconnect_sweepState : s.disconnect.sweepState = s.sweepState := rfl
@[simp] theorem State.disconnect_dacCode0 : s.disconnect.dacCode0 = s.dacCode0 := rfl
@[simp] theorem State.disconnect_dacCode1 : s.disconnect.dacCode1 = s.dacCode1 := rfl
@[simp] theorem State.disconnect_ampEn : s.disconnect.ampEn = s.ampEn := rfl
@[simp] theorem State.disconnect_relay : s.disconnect.relay = s.relay := rfl
@[simp] theorem State.disconnect_gainSw : s.disconnect.gainSw = s.gainSw := rfl
@[simp] theorem State.disconnect_gainVal : s.disconnect.gainVal = s.gainVal := rfl
@[simp] theorem State.disconnect_cap : s.disconnect.cap = s.cap := rfl
@[simp] theorem State.disconnect_dmaWrIdx : s.disconnect.dmaWrIdx = s.dmaWrIdx := rfl
@[simp] theorem State.disconnect_statusOut : s.disconnect.statusOut = s.statusOut := rfl
@[simp] theorem State.disconnect_txq : s.disconnect.txq = s.txq := rfl
@[simp] theorem State.disconnect_txCur : s.disconnect.txCur = s.txCur := rfl
@[simp] theorem State.disconnect_txRest : s.disconnect.txRest = s.txRest := rfl
@[simp] theorem State.disconnect_txOut : s.disconnect.txOut = s.txOut := rfl
@[simp] theorem State.disconnect_ports : s.disconnect.ports = s.ports := rfl
@[simp] theorem State.disconnect_capEpoch : s.disconnect.capEpoch = s.capEpoch := rfl
@[simp] theorem State.disconnect_sched : s.disconnect.sched = s.sched := rfl
@[simp] theorem State.disconnect_draws : s.disconnect.draws = s.draws := rfl

/-! ### gainWrite -/

@[simp] theorem State.gainWrite_cfg (v : Byte) : (s.gainWrite v).cfg = s.cfg := rfl
@[simp] theorem State.gainWrite_linkRx (v : Byte) : (s.gainWrite v).linkRx = s.linkRx := rfl
@[simp] theorem State.gainWrite_rxBuf (v : Byte) : (s.gainWrite v).rxBuf = s.rxBuf := rfl
@[simp] theorem State.gainWrite_rxLen (v : Byte) : (s.gainWrite v).rxLen = s.rxLen := rfl
@[simp] theorem State.gainWrite_iq (v : Byte) : (s.gainWrite v).iq = s.iq := rfl
@[simp] theorem State.gainWrite_reqValid (v : Byte) : (s.gainWrite v).reqValid = s.reqValid := rfl
@[simp] theorem State.gainWrite_reqKind (v : Byte) : (s.gainWrite v).reqKind = s.reqKind := rfl
@[simp] theorem State.gainWrite_reqAmp (v : Byte) : (s.gainWrite v).reqAmp = s.reqAmp := rfl
@[simp] theorem State.gainWrite_reqGain (v : Byte) : (s.gainWrite v).reqGain = s.reqGain := rfl
@[simp] theorem State.gainWrite_reqSamples (v : Byte) : (s.gainWrite v).reqSamples = s.reqSamples := rfl
@[simp] theorem State.gainWrite_ramp (v : Byte) : (s.gainWrite v).ramp = s.ramp := rfl
@[simp] theorem State.gainWrite_stepIndex (v : Byte) : (s.gainWrite v).stepIndex = s.stepIndex := rfl
@[simp] theorem State.gainWrite_done (v : Byte) : (s.gainWrite v).done = s.done := rfl
@[simp] theorem State.gainWrite_dmaArmed (v : Byte) : (s.gainWrite v).dmaArmed = s.dmaArmed := rfl
@[simp] theorem State.gainWrite_adcRun (v : Byte) : (s.gainWrite v).adcRun = s.adcRun := rfl
@[simp] theorem State.gainWrite_timerRun (v : Byte) : (s.gainWrite v).timerRun = s.timerRun := rfl
@[simp] theorem State.gainWrite_connected (v : Byte) : (s.gainWrite v).connected = s.connected := rfl
@[simp] theorem State.gainWrite_hbAck (v : Byte) : (s.gainWrite v).hbAck = s.hbAck := rfl
@[simp] theorem State.gainWrite_hbWaiting (v : Byte) : (s.gainWrite v).hbWaiting = s.hbWaiting := rfl
@[simp] theorem State.gainWrite_hbMiss (v : Byte) : (s.gainWrite v).hbMiss = s.hbMiss := rfl
@[simp] theorem State.gainWrite_txBusy (v : Byte) : (s.gainWrite v).txBusy = s.txBusy := rfl
@[simp] theorem State.gainWrite_sweepState (v : Byte) : (s.gainWrite v).sweepState = s.sweepState := rfl
@[simp] theorem State.gainWrite_dacCode0 (v : Byte) : (s.gainWrite v).dacCode0 = s.dacCode0 := rfl
@[simp] theorem State.gainWrite_dacCode1 (v : Byte) : (s.gainWrite v).dacCode1 = s.dacCode1 := rfl
@[simp] theorem State.gainWrite_ampEn (v : Byte) : (s.gainWrite v).ampEn = s.ampEn := rfl
@[simp] theorem State.gainWrite_relay (v : Byte) : (s.gainWrite v).relay = s.relay := rfl
@[simp] theorem State.gainWrite_gainSw (v : Byte) : (s.gainWrite v).gainSw = s.gainSw := rfl
@[simp] theorem State.gainWrite_gainVal (v : Byte) : (s.gainWrite v).gainVal = v := rfl
@[simp] theorem State.gainWrite_cap (v : Byte) : (s.gainWrite v).cap = s.cap := rfl
@[simp] theorem State.gainWrite_dmaWrIdx (v : Byte) : (s.gainWrite v).dmaWrIdx = s.dmaWrIdx := rfl
@[simp] theorem State.gainWrite_statusOut (v : Byte) : (s.gainWrite v).statusOut = s.statusOut := rfl
@[simp] theorem State.gainWrite_txq (v : Byte) : (s.gainWrite v).txq = s.txq := rfl
@[simp] theorem State.gainWrite_txCur (v : Byte) : (s.gainWrite v).txCur = s.txCur := rfl
@[simp] theorem State.gainWrite_txRest (v : Byte) : (s.gainWrite v).txRest = s.txRest := rfl
@[simp] theorem State.gainWrite_txOut (v : Byte) : (s.gainWrite v).txOut = s.txOut := rfl
@[simp] theorem State.gainWrite_ports (v : Byte) : (s.gainWrite v).ports = s.ports ++ [.gainWr v] := rfl
@[simp] theorem State.gainWrite_capEpoch (v : Byte) : (s.gainWrite v).capEpoch = s.capEpoch := rfl
@[simp] theorem State.gainWrite_sched (v : Byte) : (s.gainWrite v).sched = s.sched := rfl
@[simp] theorem State.gainWrite_draws (v : Byte) : (s.gainWrite v).draws = s.draws := rfl

/-! ### setAmp -/

@[simp] theorem State.setAmp_cfg (b : Bool) : (s.setAmp b).cfg = s.cfg := rfl
@[simp] theorem State.setAmp_linkRx (b : Bool) : (s.setAmp b).linkRx = s.linkRx := rfl
@[simp] theorem State.setAmp_rxBuf (b : Bool) : (s.setAmp b).rxBuf = s.rxBuf := rfl
@[simp] theorem State.setAmp_rxLen (b : Bool) : (s.setAmp b).rxLen = s.rxLen := rfl
@[simp] theorem State.setAmp_iq (b : Bool) : (s.setAmp b).iq = s.iq := rfl
@[simp] theorem State.setAmp_reqValid (b : Bool) : (s.setAmp b).reqValid = s.reqValid := rfl
@[simp] theorem State.setAmp_reqKind (b : Bool) : (s.setAmp b).reqKind = s.reqKind := rfl
@[simp] theorem State.setAmp_reqAmp (b : Bool) : (s.setAmp b).reqAmp = s.reqAmp := rfl
@[simp] theorem State.setAmp_reqGain (b : Bool) : (s.setAmp b).reqGain = s.reqGain := rfl
@[simp] theorem State.setAmp_reqSamples (b : Bool) : (s.setAmp b).reqSamples = s.reqSamples := rfl
@[simp] theorem State.setAmp_ramp (b : Bool) : (s.setAmp b).ramp = s.ramp := rfl
@[simp] theorem State.setAmp_stepIndex (b : Bool) : (s.setAmp b).stepIndex = s.stepIndex := rfl
@[simp] theorem State.setAmp_done (b : Bool) : (s.setAmp b).done = s.done := rfl
@[simp] theorem State.setAmp_dmaArmed (b : Bool) : (s.setAmp b).dmaArmed = s.dmaArmed := rfl
@[simp] theorem State.setAmp_adcRun (b : Bool) : (s.setAmp b).adcRun = s.adcRun := rfl
@[simp] theorem State.setAmp_timerRun (b : Bool) : (s.setAmp b).timerRun = s.timerRun := rfl
@[simp] theorem State.setAmp_connected (b : Bool) : (s.setAmp b).connected = s.connected := rfl
@[simp] theorem State.setAmp_hbAck (b : Bool) : (s.setAmp b).hbAck = s.hbAck := rfl
@[simp] theorem State.setAmp_hbWaiting (b : Bool) : (s.setAmp b).hbWaiting = s.hbWaiting := rfl
@[simp] theorem State.setAmp_hbMiss (b : Bool) : (s.setAmp b).hbMiss = s.hbMiss := rfl
@[simp] theorem State.setAmp_txBusy (b : Bool) : (s.setAmp b).txBusy = s.txBusy := rfl
@[simp] theorem State.setAmp_sweepState (b : Bool) : (s.setAmp b).sweepState = s.sweepState := rfl
@[simp] theorem State.setAmp_dacCode0 (b : Bool) : (s.setAmp b).dacCode0 = s.dacCode0 := rfl
@[simp] theorem State.setAmp_dacCode1 (b : Bool) : (s.setAmp b).dacCode1 = s.dacCode1 := rfl
@[simp] theorem State.setAmp_ampEn (b : Bool) : (s.setAmp b).ampEn = b := rfl
@[simp] theorem State.setAmp_relay (b : Bool) : (s.setAmp b).relay = s.relay := rfl
@[simp] theorem State.setAmp_gainSw (b : Bool) : (s.setAmp b).gainSw = s.gainSw := rfl
@[simp] theorem State.setAmp_gainVal (b : Bool) : (s.setAmp b).gainVal = s.gainVal := rfl
@[simp] theorem State.setAmp_cap (b : Bool) : (s.setAmp b).cap = s.cap := rfl
@[simp] theorem State.setAmp_dmaWrIdx (b : Bool) : (s.setAmp b).dmaWrIdx = s.dmaWrIdx := rfl
@[simp] theorem State.setAmp_statusOut (b : Bool) : (s.setAmp b).statusOut = s.statusOut := rfl
@[simp] theorem State.setAmp_txq (b : Bool) : (s.setAmp b).txq = s.txq := rfl
@[simp] theorem State.setAmp_txCur (b : Bool) : (s.setAmp b).txCur = s.txCur := rfl
@[simp] theorem State.setAmp_txRest (b : Bool) : (s.setAmp b).txRest = s.txRest := rfl
@[simp] theorem State.setAmp_txOut (b : Bool) : (s.setAmp b).txOut = s.txOut := rfl
@[simp] theorem State.setAmp_ports (b : Bool) : (s.setAmp b).ports = s.ports := rfl
@[simp] theorem State.setAmp_capEpoch (b : Bool) : (s.setAmp b).capEpoch = s.capEpoch := rfl
@[simp] theorem State.setAmp_sched (b : Bool) : (s.setAmp b).sched = s.sched := rfl
@[simp] theorem State.setAmp_draws (b : Bool) : (s.setAmp b).draws = s.draws := rfl

/-! ### dmaStop -/

@[simp] theorem State.dmaStop_cfg : s.dmaStop.cfg = s.cfg := rfl
@[simp] theorem State.dmaStop_linkRx : s.dmaStop.linkRx = s.linkRx := rfl
@[simp] theorem State.dmaStop_rxBuf : s.dmaStop.rxBuf = s.rxBuf := rfl
@[simp] theorem State.dmaStop_rxLen : s.dmaStop.rxLen = s.rxLen := rfl
@[simp] theorem State.dmaStop_iq : s.dmaStop.iq = s.iq := rfl
@[simp] theorem State.dmaStop_reqValid : s.dmaStop.reqValid = s.reqValid := rfl
@[simp] theorem State.dmaStop_reqKind : s.dmaStop.reqKind = s.reqKind := rfl
@[simp] theorem State.dmaStop_reqAmp : s.dmaStop.reqAmp = s.reqAmp := rfl
@[simp] theorem State.dmaStop_reqGain : s.dmaStop.reqGain = s.reqGain := rfl
@[simp] theorem State.dmaStop_reqSamples : s.dmaStop.reqSamples = s.reqSamples := rfl
@[simp] theorem State.dmaStop_ramp : s.dmaStop.ramp = s.ramp := rfl
@[simp] theorem State.dmaStop_stepIndex : s.dmaStop.stepIndex = s.stepIndex := rfl
@[simp] theorem State.dmaStop_done : s.dmaStop.done = s.done := rfl
@[simp] theorem State.dmaStop_dmaArmed : s.dmaStop.dmaArmed = s.dmaArmed := rfl
@[simp] theorem State.dmaStop_adcRun : s.dmaStop.adcRun = false := rfl
@[simp] theorem State.dmaStop_timerRun : s.dmaStop.timerRun = s.timerRun := rfl
@[simp] theorem State.dmaStop_connected : s.dmaStop.connected = s.connected := rfl
@[simp] theorem State.dmaStop_hbAck : s.dmaStop.hbAck = s.hbAck := rfl
@[simp] theorem State.dmaStop_hbWaiting : s.dmaStop.hbWaiting = s.hbWaiting := rfl
@[simp] theorem State.dmaStop_hbMiss : s.dmaStop.hbMiss = s.hbMiss := rfl
@[simp] theorem State.dmaStop_txBusy : s.dmaStop.txBusy = s.txBusy := rfl
@[simp] theorem State.dmaStop_sweepState : s.dmaStop.sweepState = s.sweepState := rfl
@[simp] theorem State.dmaStop_dacCode0 : s.dmaStop.dacCode0 = s.dacCode0 := rfl
@[simp] theorem State.dmaStop_dacCode1 : s.dmaStop.dacCode1 = s.dacCode1 := rfl
@[simp] theorem State.dmaStop_ampEn : s.dmaStop.ampEn = s.ampEn := rfl
@[simp] theorem State.dmaStop_relay : s.dmaStop.relay = s.relay := rfl
@[simp] theorem State.dmaStop_gainSw : s.dmaStop.gainSw = s.gainSw := rfl
@[simp] theorem State.dmaStop_gainVal : s.dmaStop.gainVal = s.gainVal := rfl
@[simp] theorem State.dmaStop_cap : s.dmaStop.cap = s.cap := rfl
@[simp] theorem State.dmaStop_dmaWrIdx : s.dmaStop.dmaWrIdx = s.dmaWrIdx := rfl
@[simp] theorem State.dmaStop_statusOut : s.dmaStop.statusOut = s.statusOut := rfl
@[simp] theorem State.dmaStop_txq : s.dmaStop.txq = s.txq := rfl
@[simp] theorem State.dmaStop_txCur : s.dmaStop.txCur = s.txCur := rfl
@[simp] theorem State.dmaStop_txRest : s.dmaStop.txRest = s.txRest := rfl
@[simp] theorem State.dmaStop_txOut : s.dmaStop.txOut = s.txOut := rfl
@[simp] theorem State.dmaStop_ports : s.dmaStop.ports = s.ports ++ [.dmaStop] := rfl
@[simp] theorem State.dmaStop_capEpoch : s.dmaStop.capEpoch = s.capEpoch := rfl
@[simp] theorem State.dmaStop_sched : s.dmaStop.sched = s.sched := rfl
@[simp] theorem State.dmaStop_draws : s.dmaStop.draws = s.draws := rfl

/-! ### dmaDrain -/

@[simp] theorem State.dmaDrain_cfg : s.dmaDrain.cfg = s.cfg := rfl
@[simp] theorem State.dmaDrain_linkRx : s.dmaDrain.linkRx = s.linkRx := rfl
@[simp] theorem State.dmaDrain_rxBuf : s.dmaDrain.rxBuf = s.rxBuf := rfl
@[simp] theorem State.dmaDrain_rxLen : s.dmaDrain.rxLen = s.rxLen := rfl
@[simp] theorem State.dmaDrain_iq : s.dmaDrain.iq = s.iq := rfl
@[simp] theorem State.dmaDrain_reqValid : s.dmaDrain.reqValid = s.reqValid := rfl
@[simp] theorem State.dmaDrain_reqKind : s.dmaDrain.reqKind = s.reqKind := rfl
@[simp] theorem State.dmaDrain_reqAmp : s.dmaDrain.reqAmp = s.reqAmp := rfl
@[simp] theorem State.dmaDrain_reqGain : s.dmaDrain.reqGain = s.reqGain := rfl
@[simp] theorem State.dmaDrain_reqSamples : s.dmaDrain.reqSamples = s.reqSamples := rfl
@[simp] theorem State.dmaDrain_ramp : s.dmaDrain.ramp = s.ramp := rfl
@[simp] theorem State.dmaDrain_stepIndex : s.dmaDrain.stepIndex = s.stepIndex := rfl
@[simp] theorem State.dmaDrain_done : s.dmaDrain.done = s.done := rfl
@[simp] theorem State.dmaDrain_dmaArmed : s.dmaDrain.dmaArmed = false := rfl
@[simp] theorem State.dmaDrain_adcRun : s.dmaDrain.adcRun = s.adcRun := rfl
@[simp] theorem State.dmaDrain_timerRun : s.dmaDrain.timerRun = s.timerRun := rfl
@[simp] theorem State.dmaDrain_connected : s.dmaDrain.connected = s.connected := rfl
@[simp] theorem State.dmaDrain_hbAck : s.dmaDrain.hbAck = s.hbAck := rfl
@[simp] theorem State.dmaDrain_hbWaiting : s.dmaDrain.hbWaiting = s.hbWaiting := rfl
@[simp] theorem State.dmaDrain_hbMiss : s.dmaDrain.hbMiss = s.hbMiss := rfl
@[simp] theorem State.dmaDrain_txBusy : s.dmaDrain.txBusy = s.txBusy := rfl
@[simp] theorem State.dmaDrain_sweepState : s.dmaDrain.sweepState = s.sweepState := rfl
@[simp] theorem State.dmaDrain_dacCode0 : s.dmaDrain.dacCode0 = s.dacCode0 := rfl
@[simp] theorem State.dmaDrain_dacCode1 : s.dmaDrain.dacCode1 = s.dacCode1 := rfl
@[simp] theorem State.dmaDrain_ampEn : s.dmaDrain.ampEn = s.ampEn := rfl
@[simp] theorem State.dmaDrain_relay : s.dmaDrain.relay = s.relay := rfl
@[simp] theorem State.dmaDrain_gainSw : s.dmaDrain.gainSw = s.gainSw := rfl
@[simp] theorem State.dmaDrain_gainVal : s.dmaDrain.gainVal = s.gainVal := rfl
@[simp] theorem State.dmaDrain_cap : s.dmaDrain.cap = s.cap := rfl
@[simp] theorem State.dmaDrain_dmaWrIdx : s.dmaDrain.dmaWrIdx = s.dmaWrIdx := rfl
@[simp] theorem State.dmaDrain_statusOut : s.dmaDrain.statusOut = s.statusOut := rfl
@[simp] theorem State.dmaDrain_txq : s.dmaDrain.txq = s.txq := rfl
@[simp] theorem State.dmaDrain_txCur : s.dmaDrain.txCur = s.txCur := rfl
@[simp] theorem State.dmaDrain_txRest : s.dmaDrain.txRest = s.txRest := rfl
@[simp] theorem State.dmaDrain_txOut : s.dmaDrain.txOut = s.txOut := rfl
@[simp] theorem State.dmaDrain_ports : s.dmaDrain.ports = s.ports ++ [.dmaDrain] := rfl
@[simp] theorem State.dmaDrain_capEpoch : s.dmaDrain.capEpoch = s.capEpoch := rfl
@[simp] theorem State.dmaDrain_sched : s.dmaDrain.sched = s.sched := rfl
@[simp] theorem State.dmaDrain_draws : s.dmaDrain.draws = s.draws := rfl

/-! ### dmaArm -/

@[simp] theorem State.dmaArm_cfg : s.dmaArm.cfg = s.cfg := rfl
@[simp] theorem State.dmaArm_linkRx : s.dmaArm.linkRx = s.linkRx := rfl
@[simp] theorem State.dmaArm_rxBuf : s.dmaArm.rxBuf = s.rxBuf := rfl
@[simp] theorem State.dmaArm_rxLen : s.dmaArm.rxLen = s.rxLen := rfl
@[simp] theorem State.dmaArm_iq : s.dmaArm.iq = s.iq := rfl
@[simp] theorem State.dmaArm_reqValid : s.dmaArm.reqValid = s.reqValid := rfl
@[simp] theorem State.dmaArm_reqKind : s.dmaArm.reqKind = s.reqKind := rfl
@[simp] theorem State.dmaArm_reqAmp : s.dmaArm.reqAmp = s.reqAmp := rfl
@[simp] theorem State.dmaArm_reqGain : s.dmaArm.reqGain = s.reqGain := rfl
@[simp] theorem State.dmaArm_reqSamples : s.dmaArm.reqSamples = s.reqSamples := rfl
@[simp] theorem State.dmaArm_ramp : s.dmaArm.ramp = s.ramp := rfl
@[simp] theorem State.dmaArm_stepIndex : s.dmaArm.stepIndex = s.stepIndex := rfl
@[simp] theorem State.dmaArm_done : s.dmaArm.done = s.done := rfl
@[simp] theorem State.dmaArm_dmaArmed : s.dmaArm.dmaArmed = true := rfl
@[simp] theorem State.dmaArm_adcRun : s.dmaArm.adcRun = s.adcRun := rfl
@[simp] theorem State.dmaArm_timerRun : s.dmaArm.timerRun = s.timerRun := rfl
@[simp] theorem State.dmaArm_connected : s.dmaArm.connected = s.connected := rfl
@[simp] theorem State.dmaArm_hbAck : s.dmaArm.hbAck = s.hbAck := rfl
@[simp] theorem State.dmaArm_hbWaiting : s.dmaArm.hbWaiting = s.hbWaiting := rfl
@[simp] theorem State.dmaArm_hbMiss : s.dmaArm.hbMiss = s.hbMiss := rfl
@[simp] theorem State.dmaArm_txBusy : s.dmaArm.txBusy = s.txBusy := rfl
@[simp] theorem State.dmaArm_sweepState : s.dmaArm.sweepState = s.sweepState := rfl
@[simp] theorem State.dmaArm_dacCode0 : s.dmaArm.dacCode0 = s.dacCode0 := rfl
@[simp] theorem State.dmaArm_dacCode1 : s.dmaArm.dacCode1 = s.dacCode1 := rfl
@[simp] theorem State.dmaArm_ampEn : s.dmaArm.ampEn = s.ampEn := rfl
@[simp] theorem State.dmaArm_relay : s.dmaArm.relay = s.relay := rfl
@[simp] theorem State.dmaArm_gainSw : s.dmaArm.gainSw = s.gainSw := rfl
@[simp] theorem State.dmaArm_gainVal : s.dmaArm.gainVal = s.gainVal := rfl
@[simp] theorem State.dmaArm_cap : s.dmaArm.cap = s.cap := rfl
@[simp] theorem State.dmaArm_dmaWrIdx : s.dmaArm.dmaWrIdx = 0 := rfl
@[simp] theorem State.dmaArm_statusOut : s.dmaArm.statusOut = s.statusOut := rfl
@[simp] theorem State.dmaArm_txq : s.dmaArm.txq = s.txq := rfl
@[simp] theorem State.dmaArm_txCur : s.dmaArm.txCur = s.txCur := rfl
@[simp] theorem State.dmaArm_txRest : s.dmaArm.txRest = s.txRest := rfl
@[simp] theorem State.dmaArm_txOut : s.dmaArm.txOut = s.txOut := rfl
@[simp] theorem State.dmaArm_ports : s.dmaArm.ports = s.ports ++ [.dmaArm s.cfg.capLen] := rfl
@[simp] theorem State.dmaArm_capEpoch : s.dmaArm.capEpoch = s.capEpoch := rfl
@[simp] theorem State.dmaArm_sched : s.dmaArm.sched = s.sched := rfl
@[simp] theorem State.dmaArm_draws : s.dmaArm.draws = s.draws := rfl

/-! ### adcStart -/

@[simp] theorem State.adcStart_cfg : s.adcStart.cfg = s.cfg := rfl
@[simp] theorem State.adcStart_linkRx : s.adcStart.linkRx = s.linkRx := rfl
@[simp] theorem State.adcStart_rxBuf : s.adcStart.rxBuf = s.rxBuf := rfl
@[simp] theorem State.adcStart_rxLen : s.adcStart.rxLen = s.rxLen := rfl
@[simp] theorem State.adcStart_iq : s.adcStart.iq = s.iq := rfl
@[simp] theorem State.adcStart_reqValid : s.adcStart.reqValid = s.reqValid := rfl
@[simp] theorem State.adcStart_reqKind : s.adcStart.reqKind = s.reqKind := rfl
@[simp] theorem State.adcStart_reqAmp : s.adcStart.reqAmp = s.reqAmp := rfl
@[simp] theorem State.adcStart_reqGain : s.adcStart.reqGain = s.reqGain := rfl
@[simp] theorem State.adcStart_reqSamples : s.adcStart.reqSamples = s.reqSamples := rfl
@[simp] theorem State.adcStart_ramp : s.adcStart.ramp = s.ramp := rfl
@[simp] theorem State.adcStart_stepIndex : s.adcStart.stepIndex = s.stepIndex := rfl
@[simp] theorem State.adcStart_done : s.adcStart.done = s.done := rfl
@[simp] theorem State.adcStart_dmaArmed : s.adcStart.dmaArmed = s.dmaArmed := rfl
@[simp] theorem State.adcStart_adcRun : s.adcStart.adcRun = true := rfl
@[simp] theorem State.adcStart_timerRun : s.adcStart.timerRun = s.timerRun := rfl
@[simp] theorem State.adcStart_connected : s.adcStart.connected = s.connected := rfl
@[simp] theorem State.adcStart_hbAck : s.adcStart.hbAck = s.hbAck := rfl
@[simp] theorem State.adcStart_hbWaiting : s.adcStart.hbWaiting = s.hbWaiting := rfl
@[simp] theorem State.adcStart_hbMiss : s.adcStart.hbMiss = s.hbMiss := rfl
@[simp] theorem State.adcStart_txBusy : s.adcStart.txBusy = s.txBusy := rfl
@[simp] theorem State.adcStart_sweepState : s.adcStart.sweepState = s.sweepState := rfl
@[simp] theorem State.adcStart_dacCode0 : s.adcStart.dacCode0 = s.dacCode0 := rfl
@[simp] theorem State.adcStart_dacCode1 : s.adcStart.dacCode1 = s.dacCode1 := rfl
@[simp] theorem State.adcStart_ampEn : s.adcStart.ampEn = s.ampEn := rfl
@[simp] theorem State.adcStart_relay : s.adcStart.relay = s.relay := rfl
@[simp] theorem State.adcStart_gainSw : s.adcStart.gainSw = s.gainSw := rfl
@[simp] theorem State.adcStart_gainVal : s.adcStart.gainVal = s.gainVal := rfl
@[simp] theorem State.adcStart_cap : s.adcStart.cap = s.cap := rfl
@[simp] theorem State.adcStart_dmaWrIdx : s.adcStart.dmaWrIdx = s.dmaWrIdx := rfl
@[simp] theorem State.adcStart_statusOut : s.adcStart.statusOut = s.statusOut := rfl
@[simp] theorem State.adcStart_txq : s.adcStart.txq = s.txq := rfl
@[simp] theorem State.adcStart_txCur : s.adcStart.txCur = s.txCur := rfl
@[simp] theorem State.adcStart_txRest : s.adcStart.txRest = s.txRest := rfl
@[simp] theorem State.adcStart_txOut : s.adcStart.txOut = s.txOut := rfl
@[simp] theorem State.adcStart_ports : s.adcStart.ports = s.ports ++ [.adcStart] := rfl
@[simp] theorem State.adcStart_capEpoch : s.adcStart.capEpoch = s.capEpoch := rfl
@[simp] theorem State.adcStart_sched : s.adcStart.sched = s.sched := rfl
@[simp] theorem State.adcStart_draws : s.adcStart.draws = s.draws := rfl

/-! ### capture -/

@[simp] theorem State.capture_cfg (v : Sample) : (s.capture v).cfg = s.cfg := rfl
@[simp] theorem State.capture_linkRx (v : Sample) : (s.capture v).linkRx = s.linkRx := rfl
@[simp] theorem State.capture_rxBuf (v : Sample) : (s.capture v).rxBuf = s.rxBuf := rfl
@[simp] theorem State.capture_rxLen (v : Sample) : (s.capture v).rxLen = s.rxLen := rfl
@[simp] theorem State.capture_iq (v : Sample) : (s.capture v).iq = s.iq := rfl
@[simp] theorem State.capture_reqValid (v : Sample) : (s.capture v).reqValid = s.reqValid := rfl
@[simp] theorem State.capture_reqKind (v : Sample) : (s.capture v).reqKind = s.reqKind := rfl
@[simp] theorem State.capture_reqAmp (v : Sample) : (s.capture v).reqAmp = s.reqAmp := rfl
@[simp] theorem State.capture_reqGain (v : Sample) : (s.capture v).reqGain = s.reqGain := rfl
@[simp] theorem State.capture_reqSamples (v : Sample) : (s.capture v).reqSamples = s.reqSamples := rfl
@[simp] theorem State.capture_ramp (v : Sample) : (s.capture v).ramp = s.ramp := rfl
@[simp] theorem State.capture_stepIndex (v : Sample) : (s.capture v).stepIndex = s.stepIndex := rfl
@[simp] theorem State.capture_done (v : Sample) : (s.capture v).done = s.done := rfl
@[simp] theorem State.capture_dmaArmed (v : Sample) : (s.capture v).dmaArmed = s.dmaArmed := rfl
@[simp] theorem State.capture_adcRun (v : Sample) : (s.capture v).adcRun = s.adcRun := rfl
@[simp] theorem State.capture_timerRun (v : Sample) : (s.capture v).timerRun = s.timerRun := rfl
@[simp] theorem State.capture_connected (v : Sample) : (s.capture v).connected = s.connected := rfl
@[simp] theorem State.capture_hbAck (v : Sample) : (s.capture v).hbAck = s.hbAck := rfl
@[simp] theorem State.capture_hbWaiting (v : Sample) : (s.capture v).hbWaiting = s.hbWaiting := rfl
@[simp] theorem State.capture_hbMiss (v : Sample) : (s.capture v).hbMiss = s.hbMiss := rfl
@[simp] theorem State.capture_txBusy (v : Sample) : (s.capture v).txBusy = s.txBusy := rfl
@[simp] theorem State.capture_sweepState (v : Sample) : (s.capture v).sweepState = s.sweepState := rfl
@[simp] theorem State.capture_dacCode0 (v : Sample) : (s.capture v).dacCode0 = s.dacCode0 := rfl
@[simp] theorem State.capture_dacCode1 (v : Sample) : (s.capture v).dacCode1 = s.dacCode1 := rfl
@[simp] theorem State.capture_ampEn (v : Sample) : (s.capture v).ampEn = s.ampEn := rfl
@[simp] theorem State.capture_relay (v : Sample) : (s.capture v).relay = s.relay := rfl
@[simp] theorem State.capture_gainSw (v : Sample) : (s.capture v).gainSw = s.gainSw := rfl
@[simp] theorem State.capture_gainVal (v : Sample) : (s.capture v).gainVal = s.gainVal := rfl
@[simp] theorem State.capture_cap (v : Sample) : (s.capture v).cap = Mem.write s.cap s.dmaWrIdx v := rfl
@[simp] theorem State.capture_dmaWrIdx (v : Sample) : (s.capture v).dmaWrIdx = s.dmaWrIdx + 1 := rfl
@[simp] theorem State.capture_statusOut (v : Sample) : (s.capture v).statusOut = s.statusOut := rfl
@[simp] theorem State.capture_txq (v : Sample) : (s.capture v).txq = s.txq := rfl
@[simp] theorem State.capture_txCur (v : Sample) : (s.capture v).txCur = s.txCur := rfl
@[simp] theorem State.capture_txRest (v : Sample) : (s.capture v).txRest = s.txRest := rfl
@[simp] theorem State.capture_txOut (v : Sample) : (s.capture v).txOut = s.txOut := rfl
@[simp] theorem State.capture_ports (v : Sample) : (s.capture v).ports = s.ports ++ [.capWr s.dmaWrIdx v] := rfl
@[simp] theorem State.capture_capEpoch (v : Sample) : (s.capture v).capEpoch = s.capEpoch := rfl
@[simp] theorem State.capture_sched (v : Sample) : (s.capture v).sched = s.sched := rfl
@[simp] theorem State.capture_draws (v : Sample) : (s.capture v).draws = s.draws := rfl

/-! ### adcStop -/

@[simp] theorem State.adcStop_cfg : s.adcStop.cfg = s.cfg := rfl
@[simp] theorem State.adcStop_linkRx : s.adcStop.linkRx = s.linkRx := rfl
@[simp] theorem State.adcStop_rxBuf : s.adcStop.rxBuf = s.rxBuf := rfl
@[simp] theorem State.adcStop_rxLen : s.adcStop.rxLen = s.rxLen := rfl
@[simp] theorem State.adcStop_iq : s.adcStop.iq = s.iq := rfl
@[simp] theorem State.adcStop_reqValid : s.adcStop.reqValid = s.reqValid := rfl
@[simp] theorem State.adcStop_reqKind : s.adcStop.reqKind = s.reqKind := rfl
@[simp] theorem State.adcStop_reqAmp : s.adcStop.reqAmp = s.reqAmp := rfl
@[simp] theorem State.adcStop_reqGain : s.adcStop.reqGain = s.reqGain := rfl
@[simp] theorem State.adcStop_reqSamples : s.adcStop.reqSamples = s.reqSamples := rfl
@[simp] theorem State.adcStop_ramp : s.adcStop.ramp = s.ramp := rfl
@[simp] theorem State.adcStop_stepIndex : s.adcStop.stepIndex = s.stepIndex := rfl
@[simp] theorem State.adcStop_done : s.adcStop.done = s.done := rfl
@[simp] theorem State.adcStop_dmaArmed : s.adcStop.dmaArmed = s.dmaArmed := rfl
@[simp] theorem State.adcStop_adcRun : s.adcStop.adcRun = false := rfl
@[simp] theorem State.adcStop_timerRun : s.adcStop.timerRun = s.timerRun := rfl
@[simp] theorem State.adcStop_connected : s.adcStop.connected = s.connected := rfl
@[simp] theorem State.adcStop_hbAck : s.adcStop.hbAck = s.hbAck := rfl
@[simp] theorem State.adcStop_hbWaiting : s.adcStop.hbWaiting = s.hbWaiting := rfl
@[simp] theorem State.adcStop_hbMiss : s.adcStop.hbMiss = s.hbMiss := rfl
@[simp] theorem State.adcStop_txBusy : s.adcStop.txBusy = s.txBusy := rfl
@[simp] theorem State.adcStop_sweepState : s.adcStop.sweepState = s.sweepState := rfl
@[simp] theorem State.adcStop_dacCode0 : s.adcStop.dacCode0 = s.dacCode0 := rfl
@[simp] theorem State.adcStop_dacCode1 : s.adcStop.dacCode1 = s.dacCode1 := rfl
@[simp] theorem State.adcStop_ampEn : s.adcStop.ampEn = s.ampEn := rfl
@[simp] theorem State.adcStop_relay : s.adcStop.relay = s.relay := rfl
@[simp] theorem State.adcStop_gainSw : s.adcStop.gainSw = s.gainSw := rfl
@[simp] theorem State.adcStop_gainVal : s.adcStop.gainVal = s.gainVal := rfl
@[simp] theorem State.adcStop_cap : s.adcStop.cap = s.cap := rfl
@[simp] theorem State.adcStop_dmaWrIdx : s.adcStop.dmaWrIdx = s.dmaWrIdx := rfl
@[simp] theorem State.adcStop_statusOut : s.adcStop.statusOut = s.statusOut := rfl
@[simp] theorem State.adcStop_txq : s.adcStop.txq = s.txq := rfl
@[simp] theorem State.adcStop_txCur : s.adcStop.txCur = s.txCur := rfl
@[simp] theorem State.adcStop_txRest : s.adcStop.txRest = s.txRest := rfl
@[simp] theorem State.adcStop_txOut : s.adcStop.txOut = s.txOut := rfl
@[simp] theorem State.adcStop_ports : s.adcStop.ports = s.ports ++ [.adcStop] := rfl
@[simp] theorem State.adcStop_capEpoch : s.adcStop.capEpoch = s.capEpoch := rfl
@[simp] theorem State.adcStop_sched : s.adcStop.sched = s.sched := rfl
@[simp] theorem State.adcStop_draws : s.adcStop.draws = s.draws := rfl

/-! ### post -/

@[simp] theorem State.post_cfg (ev : StatusEvent) : (s.post ev).cfg = s.cfg := rfl
@[simp] theorem State.post_linkRx (ev : StatusEvent) : (s.post ev).linkRx = s.linkRx := rfl
@[simp] theorem State.post_rxBuf (ev : StatusEvent) : (s.post ev).rxBuf = s.rxBuf := rfl
@[simp] theorem State.post_rxLen (ev : StatusEvent) : (s.post ev).rxLen = s.rxLen := rfl
@[simp] theorem State.post_iq (ev : StatusEvent) : (s.post ev).iq = s.iq := rfl
@[simp] theorem State.post_reqValid (ev : StatusEvent) : (s.post ev).reqValid = s.reqValid := rfl
@[simp] theorem State.post_reqKind (ev : StatusEvent) : (s.post ev).reqKind = s.reqKind := rfl
@[simp] theorem State.post_reqAmp (ev : StatusEvent) : (s.post ev).reqAmp = s.reqAmp := rfl
@[simp] theorem State.post_reqGain (ev : StatusEvent) : (s.post ev).reqGain = s.reqGain := rfl
@[simp] theorem State.post_reqSamples (ev : StatusEvent) : (s.post ev).reqSamples = s.reqSamples := rfl
@[simp] theorem State.post_ramp (ev : StatusEvent) : (s.post ev).ramp = s.ramp := rfl
@[simp] theorem State.post_stepIndex (ev : StatusEvent) : (s.post ev).stepIndex = s.stepIndex := rfl
@[simp] theorem State.post_done (ev : StatusEvent) : (s.post ev).done = s.done := rfl
@[simp] theorem State.post_dmaArmed (ev : StatusEvent) : (s.post ev).dmaArmed = s.dmaArmed := rfl
@[simp] theorem State.post_adcRun (ev : StatusEvent) : (s.post ev).adcRun = s.adcRun := rfl
@[simp] theorem State.post_timerRun (ev : StatusEvent) : (s.post ev).timerRun = s.timerRun := rfl
@[simp] theorem State.post_connected (ev : StatusEvent) : (s.post ev).connected = s.connected := rfl
@[simp] theorem State.post_hbAck (ev : StatusEvent) : (s.post ev).hbAck = s.hbAck := rfl
@[simp] theorem State.post_hbWaiting (ev : StatusEvent) : (s.post ev).hbWaiting = s.hbWaiting := rfl
@[simp] theorem State.post_hbMiss (ev : StatusEvent) : (s.post ev).hbMiss = s.hbMiss := rfl
@[simp] theorem State.post_txBusy (ev : StatusEvent) : (s.post ev).txBusy = s.txBusy := rfl
@[simp] theorem State.post_sweepState (ev : StatusEvent) : (s.post ev).sweepState = s.sweepState := rfl
@[simp] theorem State.post_dacCode0 (ev : StatusEvent) : (s.post ev).dacCode0 = s.dacCode0 := rfl
@[simp] theorem State.post_dacCode1 (ev : StatusEvent) : (s.post ev).dacCode1 = s.dacCode1 := rfl
@[simp] theorem State.post_ampEn (ev : StatusEvent) : (s.post ev).ampEn = s.ampEn := rfl
@[simp] theorem State.post_relay (ev : StatusEvent) : (s.post ev).relay = s.relay := rfl
@[simp] theorem State.post_gainSw (ev : StatusEvent) : (s.post ev).gainSw = s.gainSw := rfl
@[simp] theorem State.post_gainVal (ev : StatusEvent) : (s.post ev).gainVal = s.gainVal := rfl
@[simp] theorem State.post_cap (ev : StatusEvent) : (s.post ev).cap = s.cap := rfl
@[simp] theorem State.post_dmaWrIdx (ev : StatusEvent) : (s.post ev).dmaWrIdx = s.dmaWrIdx := rfl
@[simp] theorem State.post_statusOut (ev : StatusEvent) : (s.post ev).statusOut = s.statusOut ++ [ev] := rfl
@[simp] theorem State.post_txq (ev : StatusEvent) : (s.post ev).txq = s.txq := rfl
@[simp] theorem State.post_txCur (ev : StatusEvent) : (s.post ev).txCur = s.txCur := rfl
@[simp] theorem State.post_txRest (ev : StatusEvent) : (s.post ev).txRest = s.txRest := rfl
@[simp] theorem State.post_txOut (ev : StatusEvent) : (s.post ev).txOut = s.txOut := rfl
@[simp] theorem State.post_ports (ev : StatusEvent) : (s.post ev).ports = s.ports := rfl
@[simp] theorem State.post_capEpoch (ev : StatusEvent) : (s.post ev).capEpoch = s.capEpoch := rfl
@[simp] theorem State.post_sched (ev : StatusEvent) : (s.post ev).sched = s.sched := rfl
@[simp] theorem State.post_draws (ev : StatusEvent) : (s.post ev).draws = s.draws := rfl

/-! ### dropFrame -/

@[simp] theorem State.dropFrame_cfg : s.dropFrame.cfg = s.cfg := rfl
@[simp] theorem State.dropFrame_linkRx : s.dropFrame.linkRx = s.linkRx := rfl
@[simp] theorem State.dropFrame_rxBuf : s.dropFrame.rxBuf = s.rxBuf := rfl
@[simp] theorem State.dropFrame_rxLen : s.dropFrame.rxLen = 0 := rfl
@[simp] theorem State.dropFrame_iq : s.dropFrame.iq = s.iq := rfl
@[simp] theorem State.dropFrame_reqValid : s.dropFrame.reqValid = s.reqValid := rfl
@[simp] theorem State.dropFrame_reqKind : s.dropFrame.reqKind = s.reqKind := rfl
@[simp] theorem State.dropFrame_reqAmp : s.dropFrame.reqAmp = s.reqAmp := rfl
@[simp] theorem State.dropFrame_reqGain : s.dropFrame.reqGain = s.reqGain := rfl
@[simp] theorem State.dropFrame_reqSamples : s.dropFrame.reqSamples = s.reqSamples := rfl
@[simp] theorem State.dropFrame_ramp : s.dropFrame.ramp = s.ramp := rfl
@[simp] theorem State.dropFrame_stepIndex : s.dropFrame.stepIndex = s.stepIndex := rfl
@[simp] theorem State.dropFrame_done : s.dropFrame.done = s.done := rfl
@[simp] theorem State.dropFrame_dmaArmed : s.dropFrame.dmaArmed = s.dmaArmed := rfl
@[simp] theorem State.dropFrame_adcRun : s.dropFrame.adcRun = s.adcRun := rfl
@[simp] theorem State.dropFrame_timerRun : s.dropFrame.timerRun = s.timerRun := rfl
@[simp] theorem State.dropFrame_connected : s.dropFrame.connected = s.connected := rfl
@[simp] theorem State.dropFrame_hbAck : s.dropFrame.hbAck = s.hbAck := rfl
@[simp] theorem State.dropFrame_hbWaiting : s.dropFrame.hbWaiting = s.hbWaiting := rfl
@[simp] theorem State.dropFrame_hbMiss : s.dropFrame.hbMiss = s.hbMiss := rfl
@[simp] theorem State.dropFrame_txBusy : s.dropFrame.txBusy = s.txBusy := rfl
@[simp] theorem State.dropFrame_sweepState : s.dropFrame.sweepState = s.sweepState := rfl
@[simp] theorem State.dropFrame_dacCode0 : s.dropFrame.dacCode0 = s.dacCode0 := rfl
@[simp] theorem State.dropFrame_dacCode1 : s.dropFrame.dacCode1 = s.dacCode1 := rfl
@[simp] theorem State.dropFrame_ampEn : s.dropFrame.ampEn = s.ampEn := rfl
@[simp] theorem State.dropFrame_relay : s.dropFrame.relay = s.relay := rfl
@[simp] theorem State.dropFrame_gainSw : s.dropFrame.gainSw = s.gainSw := rfl
@[simp] theorem State.dropFrame_gainVal : s.dropFrame.gainVal = s.gainVal := rfl
@[simp] theorem State.dropFrame_cap : s.dropFrame.cap = s.cap := rfl
@[simp] theorem State.dropFrame_dmaWrIdx : s.dropFrame.dmaWrIdx = s.dmaWrIdx := rfl
@[simp] theorem State.dropFrame_statusOut : s.dropFrame.statusOut = s.statusOut := rfl
@[simp] theorem State.dropFrame_txq : s.dropFrame.txq = s.txq := rfl
@[simp] theorem State.dropFrame_txCur : s.dropFrame.txCur = s.txCur := rfl
@[simp] theorem State.dropFrame_txRest : s.dropFrame.txRest = s.txRest := rfl
@[simp] theorem State.dropFrame_txOut : s.dropFrame.txOut = s.txOut := rfl
@[simp] theorem State.dropFrame_ports : s.dropFrame.ports = s.ports := rfl
@[simp] theorem State.dropFrame_capEpoch : s.dropFrame.capEpoch = s.capEpoch := rfl
@[simp] theorem State.dropFrame_sched : s.dropFrame.sched = s.sched := rfl
@[simp] theorem State.dropFrame_draws : s.dropFrame.draws = s.draws := rfl

/-! ### addRequest -/

@[simp] theorem State.addRequest_cfg (q : TxRequest) : (s.addRequest q).cfg = s.cfg := rfl
@[simp] theorem State.addRequest_linkRx (q : TxRequest) : (s.addRequest q).linkRx = s.linkRx := rfl
@[simp] theorem State.addRequest_rxBuf (q : TxRequest) : (s.addRequest q).rxBuf = s.rxBuf := rfl
@[simp] theorem State.addRequest_rxLen (q : TxRequest) : (s.addRequest q).rxLen = s.rxLen := rfl
@[simp] theorem State.addRequest_iq (q : TxRequest) : (s.addRequest q).iq = s.iq := rfl
@[simp] theorem State.addRequest_reqValid (q : TxRequest) : (s.addRequest q).reqValid = s.reqValid := rfl
@[simp] theorem State.addRequest_reqKind (q : TxRequest) : (s.addRequest q).reqKind = s.reqKind := rfl
@[simp] theorem State.addRequest_reqAmp (q : TxRequest) : (s.addRequest q).reqAmp = s.reqAmp := rfl
@[simp] theorem State.addRequest_reqGain (q : TxRequest) : (s.addRequest q).reqGain = s.reqGain := rfl
@[simp] theorem State.addRequest_reqSamples (q : TxRequest) : (s.addRequest q).reqSamples = s.reqSamples := rfl
@[simp] theorem State.addRequest_ramp (q : TxRequest) : (s.addRequest q).ramp = s.ramp := rfl
@[simp] theorem State.addRequest_stepIndex (q : TxRequest) : (s.addRequest q).stepIndex = s.stepIndex := rfl
@[simp] theorem State.addRequest_done (q : TxRequest) : (s.addRequest q).done = s.done := rfl
@[simp] theorem State.addRequest_dmaArmed (q : TxRequest) : (s.addRequest q).dmaArmed = s.dmaArmed := rfl
@[simp] theorem State.addRequest_adcRun (q : TxRequest) : (s.addRequest q).adcRun = s.adcRun := rfl
@[simp] theorem State.addRequest_timerRun (q : TxRequest) : (s.addRequest q).timerRun = s.timerRun := rfl
@[simp] theorem State.addRequest_connected (q : TxRequest) : (s.addRequest q).connected = s.connected := rfl
@[simp] theorem State.addRequest_hbAck (q : TxRequest) : (s.addRequest q).hbAck = s.hbAck := rfl
@[simp] theorem State.addRequest_hbWaiting (q : TxRequest) : (s.addRequest q).hbWaiting = s.hbWaiting := rfl
@[simp] theorem State.addRequest_hbMiss (q : TxRequest) : (s.addRequest q).hbMiss = s.hbMiss := rfl
@[simp] theorem State.addRequest_txBusy (q : TxRequest) : (s.addRequest q).txBusy = s.txBusy := rfl
@[simp] theorem State.addRequest_sweepState (q : TxRequest) : (s.addRequest q).sweepState = s.sweepState := rfl
@[simp] theorem State.addRequest_dacCode0 (q : TxRequest) : (s.addRequest q).dacCode0 = s.dacCode0 := rfl
@[simp] theorem State.addRequest_dacCode1 (q : TxRequest) : (s.addRequest q).dacCode1 = s.dacCode1 := rfl
@[simp] theorem State.addRequest_ampEn (q : TxRequest) : (s.addRequest q).ampEn = s.ampEn := rfl
@[simp] theorem State.addRequest_relay (q : TxRequest) : (s.addRequest q).relay = s.relay := rfl
@[simp] theorem State.addRequest_gainSw (q : TxRequest) : (s.addRequest q).gainSw = s.gainSw := rfl
@[simp] theorem State.addRequest_gainVal (q : TxRequest) : (s.addRequest q).gainVal = s.gainVal := rfl
@[simp] theorem State.addRequest_cap (q : TxRequest) : (s.addRequest q).cap = s.cap := rfl
@[simp] theorem State.addRequest_dmaWrIdx (q : TxRequest) : (s.addRequest q).dmaWrIdx = s.dmaWrIdx := rfl
@[simp] theorem State.addRequest_statusOut (q : TxRequest) : (s.addRequest q).statusOut = s.statusOut := rfl
@[simp] theorem State.addRequest_txq (q : TxRequest) : (s.addRequest q).txq = s.txq ++ [q] := rfl
@[simp] theorem State.addRequest_txCur (q : TxRequest) : (s.addRequest q).txCur = s.txCur := rfl
@[simp] theorem State.addRequest_txRest (q : TxRequest) : (s.addRequest q).txRest = s.txRest := rfl
@[simp] theorem State.addRequest_txOut (q : TxRequest) : (s.addRequest q).txOut = s.txOut := rfl
@[simp] theorem State.addRequest_ports (q : TxRequest) : (s.addRequest q).ports = s.ports := rfl
@[simp] theorem State.addRequest_capEpoch (q : TxRequest) : (s.addRequest q).capEpoch = s.capEpoch := rfl
@[simp] theorem State.addRequest_sched (q : TxRequest) : (s.addRequest q).sched = s.sched := rfl
@[simp] theorem State.addRequest_draws (q : TxRequest) : (s.addRequest q).draws = s.draws := rfl

/-! ### beginFrame -/

@[simp] theorem State.beginFrame_cfg (q : TxRequest) (f : List Byte) : (s.beginFrame q f).cfg = s.cfg := rfl
@[simp] theorem State.beginFrame_linkRx (q : TxRequest) (f : List Byte) : (s.beginFrame q f).linkRx = s.linkRx := rfl
@[simp] theorem State.beginFrame_rxBuf (q : TxRequest) (f : List Byte) : (s.beginFrame q f).rxBuf = s.rxBuf := rfl
@[simp] theorem State.beginFrame_rxLen (q : TxRequest) (f : List Byte) : (s.beginFrame q f).rxLen = s.rxLen := rfl
@[simp] theorem State.beginFrame_iq (q : TxRequest) (f : List Byte) : (s.beginFrame q f).iq = s.iq := rfl
@[simp] theorem State.beginFrame_reqValid (q : TxRequest) (f : List Byte) : (s.beginFrame q f).reqValid = s.reqValid := rfl
@[simp] theorem State.beginFrame_reqKind (q : TxRequest) (f : List Byte) : (s.beginFrame q f).reqKind = s.reqKind := rfl
@[simp] theorem State.beginFrame_reqAmp (q : TxRequest) (f : List Byte) : (s.beginFrame q f).reqAmp = s.reqAmp := rfl
@[simp] theorem State.beginFrame_reqGain (q : TxRequest) (f : List Byte) : (s.beginFrame q f).reqGain = s.reqGain := rfl
@[simp] theorem State.beginFrame_reqSamples (q : TxRequest) (f : List Byte) : (s.beginFrame q f).reqSamples = s.reqSamples := rfl
@[simp] theorem State.beginFrame_ramp (q : TxRequest) (f : List Byte) : (s.beginFrame q f).ramp = s.ramp := rfl
@[simp] theorem State.beginFrame_stepIndex (q : TxRequest) (f : List Byte) : (s.beginFrame q f).stepIndex = s.stepIndex := rfl
@[simp] theorem State.beginFrame_done (q : TxRequest) (f : List Byte) : (s.beginFrame q f).done = s.done := rfl
@[simp] theorem State.beginFrame_dmaArmed (q : TxRequest) (f : List Byte) : (s.beginFrame q f).dmaArmed = s.dmaArmed := rfl
@[simp] theorem State.beginFrame_adcRun (q : TxRequest) (f : List Byte) : (s.beginFrame q f).adcRun = s.adcRun := rfl
@[simp] theorem State.beginFrame_timerRun (q : TxRequest) (f : List Byte) : (s.beginFrame q f).timerRun = s.timerRun := rfl
@[simp] theorem State.beginFrame_connected (q : TxRequest) (f : List Byte) : (s.beginFrame q f).connected = s.connected := rfl
@[simp] theorem State.beginFrame_hbAck (q : TxRequest) (f : List Byte) : (s.beginFrame q f).hbAck = s.hbAck := rfl
@[simp] theorem State.beginFrame_hbWaiting (q : TxRequest) (f : List Byte) : (s.beginFrame q f).hbWaiting = s.hbWaiting := rfl
@[simp] theorem State.beginFrame_hbMiss (q : TxRequest) (f : List Byte) : (s.beginFrame q f).hbMiss = s.hbMiss := rfl
@[simp] theorem State.beginFrame_txBusy (q : TxRequest) (f : List Byte) : (s.beginFrame q f).txBusy = true := rfl
@[simp] theorem State.beginFrame_sweepState (q : TxRequest) (f : List Byte) : (s.beginFrame q f).sweepState = s.sweepState := rfl
@[simp] theorem State.beginFrame_dacCode0 (q : TxRequest) (f : List Byte) : (s.beginFrame q f).dacCode0 = s.dacCode0 := rfl
@[simp] theorem State.beginFrame_dacCode1 (q : TxRequest) (f : List Byte) : (s.beginFrame q f).dacCode1 = s.dacCode1 := rfl
@[simp] theorem State.beginFrame_ampEn (q : TxRequest) (f : List Byte) : (s.beginFrame q f).ampEn = s.ampEn := rfl
@[simp] theorem State.beginFrame_relay (q : TxRequest) (f : List Byte) : (s.beginFrame q f).relay = s.relay := rfl
@[simp] theorem State.beginFrame_gainSw (q : TxRequest) (f : List Byte) : (s.beginFrame q f).gainSw = s.gainSw := rfl
@[simp] theorem State.beginFrame_gainVal (q : TxRequest) (f : List Byte) : (s.beginFrame q f).gainVal = s.gainVal := rfl
@[simp] theorem State.beginFrame_cap (q : TxRequest) (f : List Byte) : (s.beginFrame q f).cap = s.cap := rfl
@[simp] theorem State.beginFrame_dmaWrIdx (q : TxRequest) (f : List Byte) : (s.beginFrame q f).dmaWrIdx = s.dmaWrIdx := rfl
@[simp] theorem State.beginFrame_statusOut (q : TxRequest) (f : List Byte) : (s.beginFrame q f).statusOut = s.statusOut := rfl
@[simp] theorem State.beginFrame_txq (q : TxRequest) (f : List Byte) : (s.beginFrame q f).txq = s.txq := rfl
@[simp] theorem State.beginFrame_txCur (q : TxRequest) (f : List Byte) : (s.beginFrame q f).txCur = some q := rfl
@[simp] theorem State.beginFrame_txRest (q : TxRequest) (f : List Byte) : (s.beginFrame q f).txRest = f := rfl
@[simp] theorem State.beginFrame_txOut (q : TxRequest) (f : List Byte) : (s.beginFrame q f).txOut = s.txOut := rfl
@[simp] theorem State.beginFrame_ports (q : TxRequest) (f : List Byte) : (s.beginFrame q f).ports = s.ports := rfl
@[simp] theorem State.beginFrame_capEpoch (q : TxRequest) (f : List Byte) : (s.beginFrame q f).capEpoch = s.capEpoch := rfl
@[simp] theorem State.beginFrame_sched (q : TxRequest) (f : List Byte) : (s.beginFrame q f).sched = s.sched := rfl
@[simp] theorem State.beginFrame_draws (q : TxRequest) (f : List Byte) : (s.beginFrame q f).draws = s.draws := rfl

/-! ### plan -/

@[simp] theorem State.plan_cfg (m : Nat) : (s.plan m).cfg = s.cfg := rfl
@[simp] theorem State.plan_linkRx (m : Nat) : (s.plan m).linkRx = s.linkRx := rfl
@[simp] theorem State.plan_rxBuf (m : Nat) : (s.plan m).rxBuf = s.rxBuf := rfl
@[simp] theorem State.plan_rxLen (m : Nat) : (s.plan m).rxLen = s.rxLen := rfl
@[simp] theorem State.plan_iq (m : Nat) : (s.plan m).iq = s.iq := rfl
@[simp] theorem State.plan_reqValid (m : Nat) : (s.plan m).reqValid = s.reqValid := rfl
@[simp] theorem State.plan_reqKind (m : Nat) : (s.plan m).reqKind = s.reqKind := rfl
@[simp] theorem State.plan_reqAmp (m : Nat) : (s.plan m).reqAmp = s.reqAmp := rfl
@[simp] theorem State.plan_reqGain (m : Nat) : (s.plan m).reqGain = s.reqGain := rfl
@[simp] theorem State.plan_reqSamples (m : Nat) : (s.plan m).reqSamples = s.reqSamples := rfl
@[simp] theorem State.plan_ramp (m : Nat) : (s.plan m).ramp = Mem.fill (rampTable s.cfg.toGivenParams m) := rfl
@[simp] theorem State.plan_stepIndex (m : Nat) : (s.plan m).stepIndex = s.stepIndex := rfl
@[simp] theorem State.plan_done (m : Nat) : (s.plan m).done = s.done := rfl
@[simp] theorem State.plan_dmaArmed (m : Nat) : (s.plan m).dmaArmed = s.dmaArmed := rfl
@[simp] theorem State.plan_adcRun (m : Nat) : (s.plan m).adcRun = s.adcRun := rfl
@[simp] theorem State.plan_timerRun (m : Nat) : (s.plan m).timerRun = s.timerRun := rfl
@[simp] theorem State.plan_connected (m : Nat) : (s.plan m).connected = s.connected := rfl
@[simp] theorem State.plan_hbAck (m : Nat) : (s.plan m).hbAck = s.hbAck := rfl
@[simp] theorem State.plan_hbWaiting (m : Nat) : (s.plan m).hbWaiting = s.hbWaiting := rfl
@[simp] theorem State.plan_hbMiss (m : Nat) : (s.plan m).hbMiss = s.hbMiss := rfl
@[simp] theorem State.plan_txBusy (m : Nat) : (s.plan m).txBusy = s.txBusy := rfl
@[simp] theorem State.plan_sweepState (m : Nat) : (s.plan m).sweepState = s.sweepState := rfl
@[simp] theorem State.plan_dacCode0 (m : Nat) : (s.plan m).dacCode0 = s.dacCode0 := rfl
@[simp] theorem State.plan_dacCode1 (m : Nat) : (s.plan m).dacCode1 = s.dacCode1 := rfl
@[simp] theorem State.plan_ampEn (m : Nat) : (s.plan m).ampEn = s.ampEn := rfl
@[simp] theorem State.plan_relay (m : Nat) : (s.plan m).relay = s.relay := rfl
@[simp] theorem State.plan_gainSw (m : Nat) : (s.plan m).gainSw = s.gainSw := rfl
@[simp] theorem State.plan_gainVal (m : Nat) : (s.plan m).gainVal = s.gainVal := rfl
@[simp] theorem State.plan_cap (m : Nat) : (s.plan m).cap = s.cap := rfl
@[simp] theorem State.plan_dmaWrIdx (m : Nat) : (s.plan m).dmaWrIdx = s.dmaWrIdx := rfl
@[simp] theorem State.plan_statusOut (m : Nat) : (s.plan m).statusOut = s.statusOut := rfl
@[simp] theorem State.plan_txq (m : Nat) : (s.plan m).txq = s.txq := rfl
@[simp] theorem State.plan_txCur (m : Nat) : (s.plan m).txCur = s.txCur := rfl
@[simp] theorem State.plan_txRest (m : Nat) : (s.plan m).txRest = s.txRest := rfl
@[simp] theorem State.plan_txOut (m : Nat) : (s.plan m).txOut = s.txOut := rfl
@[simp] theorem State.plan_ports (m : Nat) : (s.plan m).ports = s.ports := rfl
@[simp] theorem State.plan_capEpoch (m : Nat) : (s.plan m).capEpoch = s.capEpoch := rfl
@[simp] theorem State.plan_sched (m : Nat) : (s.plan m).sched = s.sched := rfl
@[simp] theorem State.plan_draws (m : Nat) : (s.plan m).draws = s.draws := rfl

/-! ### emitDac -/

/-- A DAC write, as one update of the state. -/
theorem State.emitDac_eq (ch : Channel) (c : DacCode) :
    s.emitDac ch c = { s with
      dacCode0 := if ch = .ch0 then c else s.dacCode0, dacCode1 := if ch = .ch1 then c else s.dacCode1,
      ports := s.ports ++ [.dacWr ch c] } := by cases ch <;> rfl

@[simp] theorem State.emitDac_cfg (ch : Channel) (c : DacCode) : (s.emitDac ch c).cfg = s.cfg := by cases ch <;> rfl
@[simp] theorem State.emitDac_linkRx (ch : Channel) (c : DacCode) : (s.emitDac ch c).linkRx = s.linkRx := by cases ch <;> rfl
@[simp] theorem State.emitDac_rxBuf (ch : Channel) (c : DacCode) : (s.emitDac ch c).rxBuf = s.rxBuf := by cases ch <;> rfl
@[simp] theorem State.emitDac_rxLen (ch : Channel) (c : DacCode) : (s.emitDac ch c).rxLen = s.rxLen := by cases ch <;> rfl
@[simp] theorem State.emitDac_iq (ch : Channel) (c : DacCode) : (s.emitDac ch c).iq = s.iq := by cases ch <;> rfl
@[simp] theorem State.emitDac_reqValid (ch : Channel) (c : DacCode) : (s.emitDac ch c).reqValid = s.reqValid := by cases ch <;> rfl
@[simp] theorem State.emitDac_reqKind (ch : Channel) (c : DacCode) : (s.emitDac ch c).reqKind = s.reqKind := by cases ch <;> rfl
@[simp] theorem State.emitDac_reqAmp (ch : Channel) (c : DacCode) : (s.emitDac ch c).reqAmp = s.reqAmp := by cases ch <;> rfl
@[simp] theorem State.emitDac_reqGain (ch : Channel) (c : DacCode) : (s.emitDac ch c).reqGain = s.reqGain := by cases ch <;> rfl
@[simp] theorem State.emitDac_reqSamples (ch : Channel) (c : DacCode) : (s.emitDac ch c).reqSamples = s.reqSamples := by cases ch <;> rfl
@[simp] theorem State.emitDac_ramp (ch : Channel) (c : DacCode) : (s.emitDac ch c).ramp = s.ramp := by cases ch <;> rfl
@[simp] theorem State.emitDac_stepIndex (ch : Channel) (c : DacCode) : (s.emitDac ch c).stepIndex = s.stepIndex := by cases ch <;> rfl
@[simp] theorem State.emitDac_done (ch : Channel) (c : DacCode) : (s.emitDac ch c).done = s.done := by cases ch <;> rfl
@[simp] theorem State.emitDac_dmaArmed (ch : Channel) (c : DacCode) : (s.emitDac ch c).dmaArmed = s.dmaArmed := by cases ch <;> rfl
@[simp] theorem State.emitDac_adcRun (ch : Channel) (c : DacCode) : (s.emitDac ch c).adcRun = s.adcRun := by cases ch <;> rfl
@[simp] theorem State.emitDac_timerRun (ch : Channel) (c : DacCode) : (s.emitDac ch c).timerRun = s.timerRun := by cases ch <;> rfl
@[simp] theorem State.emitDac_connected (ch : Channel) (c : DacCode) : (s.emitDac ch c).connected = s.connected := by cases ch <;> rfl
@[simp] theorem State.emitDac_hbAck (ch : Channel) (c : DacCode) : (s.emitDac ch c).hbAck = s.hbAck := by cases ch <;> rfl
@[simp] theorem State.emitDac_hbWaiting (ch : Channel) (c : DacCode) : (s.emitDac ch c).hbWaiting = s.hbWaiting := by cases ch <;> rfl
@[simp] theorem State.emitDac_hbMiss (ch : Channel) (c : DacCode) : (s.emitDac ch c).hbMiss = s.hbMiss := by cases ch <;> rfl
@[simp] theorem State.emitDac_txBusy (ch : Channel) (c : DacCode) : (s.emitDac ch c).txBusy = s.txBusy := by cases ch <;> rfl
@[simp] theorem State.emitDac_sweepState (ch : Channel) (c : DacCode) : (s.emitDac ch c).sweepState = s.sweepState := by cases ch <;> rfl
@[simp] theorem State.emitDac_dacCode0 (ch : Channel) (c : DacCode) :
    (s.emitDac ch c).dacCode0 = if ch = .ch0 then c else s.dacCode0 := by cases ch <;> rfl
@[simp] theorem State.emitDac_dacCode1 (ch : Channel) (c : DacCode) :
    (s.emitDac ch c).dacCode1 = if ch = .ch1 then c else s.dacCode1 := by cases ch <;> rfl
@[simp] theorem State.emitDac_ampEn (ch : Channel) (c : DacCode) : (s.emitDac ch c).ampEn = s.ampEn := by cases ch <;> rfl
@[simp] theorem State.emitDac_relay (ch : Channel) (c : DacCode) : (s.emitDac ch c).relay = s.relay := by cases ch <;> rfl
@[simp] theorem State.emitDac_gainSw (ch : Channel) (c : DacCode) : (s.emitDac ch c).gainSw = s.gainSw := by cases ch <;> rfl
@[simp] theorem State.emitDac_gainVal (ch : Channel) (c : DacCode) : (s.emitDac ch c).gainVal = s.gainVal := by cases ch <;> rfl
@[simp] theorem State.emitDac_cap (ch : Channel) (c : DacCode) : (s.emitDac ch c).cap = s.cap := by cases ch <;> rfl
@[simp] theorem State.emitDac_dmaWrIdx (ch : Channel) (c : DacCode) : (s.emitDac ch c).dmaWrIdx = s.dmaWrIdx := by cases ch <;> rfl
@[simp] theorem State.emitDac_statusOut (ch : Channel) (c : DacCode) : (s.emitDac ch c).statusOut = s.statusOut := by cases ch <;> rfl
@[simp] theorem State.emitDac_txq (ch : Channel) (c : DacCode) : (s.emitDac ch c).txq = s.txq := by cases ch <;> rfl
@[simp] theorem State.emitDac_txCur (ch : Channel) (c : DacCode) : (s.emitDac ch c).txCur = s.txCur := by cases ch <;> rfl
@[simp] theorem State.emitDac_txRest (ch : Channel) (c : DacCode) : (s.emitDac ch c).txRest = s.txRest := by cases ch <;> rfl
@[simp] theorem State.emitDac_txOut (ch : Channel) (c : DacCode) : (s.emitDac ch c).txOut = s.txOut := by cases ch <;> rfl
@[simp] theorem State.emitDac_ports (ch : Channel) (c : DacCode) :
    (s.emitDac ch c).ports = s.ports ++ [.dacWr ch c] := by cases ch <;> rfl
@[simp] theorem State.emitDac_capEpoch (ch : Channel) (c : DacCode) : (s.emitDac ch c).capEpoch = s.capEpoch := by cases ch <;> rfl
@[simp] theorem State.emitDac_sched (ch : Channel) (c : DacCode) : (s.emitDac ch c).sched = s.sched := by cases ch <;> rfl
@[simp] theorem State.emitDac_draws (ch : Channel) (c : DacCode) : (s.emitDac ch c).draws = s.draws := by cases ch <;> rfl

/-! ### captures -/

/-- The captures at one point of a STEP change the capture memory, its position and the history only. -/
theorem State.captures_frame (vs : List Sample) :
    ∃ m n p, State.captures vs s = { s with cap := m, dmaWrIdx := n, ports := p } := by
  induction vs generalizing s with
  | nil => exact ⟨_, _, _, rfl⟩
  | cons v vs ih =>
    simp only [State.captures]
    split
    · obtain ⟨m, n, p, h⟩ := ih (s.capture v)
      exact ⟨m, n, p, h⟩
    · exact ⟨_, _, _, rfl⟩

@[simp] theorem State.captures_cfg (vs : List Sample) : (State.captures vs s).cfg = s.cfg := by
  obtain ⟨m, n, p, h⟩ := State.captures_frame s vs; rw [h]
@[simp] theorem State.captures_linkRx (vs : List Sample) : (State.captures vs s).linkRx = s.linkRx := by
  obtain ⟨m, n, p, h⟩ := State.captures_frame s vs; rw [h]
@[simp] theorem State.captures_rxBuf (vs : List Sample) : (State.captures vs s).rxBuf = s.rxBuf := by
  obtain ⟨m, n, p, h⟩ := State.captures_frame s vs; rw [h]
@[simp] theorem State.captures_rxLen (vs : List Sample) : (State.captures vs s).rxLen = s.rxLen := by
  obtain ⟨m, n, p, h⟩ := State.captures_frame s vs; rw [h]
@[simp] theorem State.captures_iq (vs : List Sample) : (State.captures vs s).iq = s.iq := by
  obtain ⟨m, n, p, h⟩ := State.captures_frame s vs; rw [h]
@[simp] theorem State.captures_reqValid (vs : List Sample) : (State.captures vs s).reqValid = s.reqValid := by
  obtain ⟨m, n, p, h⟩ := State.captures_frame s vs; rw [h]
@[simp] theorem State.captures_reqKind (vs : List Sample) : (State.captures vs s).reqKind = s.reqKind := by
  obtain ⟨m, n, p, h⟩ := State.captures_frame s vs; rw [h]
@[simp] theorem State.captures_reqAmp (vs : List Sample) : (State.captures vs s).reqAmp = s.reqAmp := by
  obtain ⟨m, n, p, h⟩ := State.captures_frame s vs; rw [h]
@[simp] theorem State.captures_reqGain (vs : List Sample) : (State.captures vs s).reqGain = s.reqGain := by
  obtain ⟨m, n, p, h⟩ := State.captures_frame s vs; rw [h]
@[simp] theorem State.captures_reqSamples (vs : List Sample) : (State.captures vs s).reqSamples = s.reqSamples := by
  obtain ⟨m, n, p, h⟩ := State.captures_frame s vs; rw [h]
@[simp] theorem State.captures_ramp (vs : List Sample) : (State.captures vs s).ramp = s.ramp := by
  obtain ⟨m, n, p, h⟩ := State.captures_frame s vs; rw [h]
@[simp] theorem State.captures_stepIndex (vs : List Sample) : (State.captures vs s).stepIndex = s.stepIndex := by
  obtain ⟨m, n, p, h⟩ := State.captures_frame s vs; rw [h]
@[simp] theorem State.captures_done (vs : List Sample) : (State.captures vs s).done = s.done := by
  obtain ⟨m, n, p, h⟩ := State.captures_frame s vs; rw [h]
@[simp] theorem State.captures_dmaArmed (vs : List Sample) : (State.captures vs s).dmaArmed = s.dmaArmed := by
  obtain ⟨m, n, p, h⟩ := State.captures_frame s vs; rw [h]
@[simp] theorem State.captures_adcRun (vs : List Sample) : (State.captures vs s).adcRun = s.adcRun := by
  obtain ⟨m, n, p, h⟩ := State.captures_frame s vs; rw [h]
@[simp] theorem State.captures_timerRun (vs : List Sample) : (State.captures vs s).timerRun = s.timerRun := by
  obtain ⟨m, n, p, h⟩ := State.captures_frame s vs; rw [h]
@[simp] theorem State.captures_connected (vs : List Sample) : (State.captures vs s).connected = s.connected := by
  obtain ⟨m, n, p, h⟩ := State.captures_frame s vs; rw [h]
@[simp] theorem State.captures_hbAck (vs : List Sample) : (State.captures vs s).hbAck = s.hbAck := by
  obtain ⟨m, n, p, h⟩ := State.captures_frame s vs; rw [h]
@[simp] theorem State.captures_hbWaiting (vs : List Sample) : (State.captures vs s).hbWaiting = s.hbWaiting := by
  obtain ⟨m, n, p, h⟩ := State.captures_frame s vs; rw [h]
@[simp] theorem State.captures_hbMiss (vs : List Sample) : (State.captures vs s).hbMiss = s.hbMiss := by
  obtain ⟨m, n, p, h⟩ := State.captures_frame s vs; rw [h]
@[simp] theorem State.captures_txBusy (vs : List Sample) : (State.captures vs s).txBusy = s.txBusy := by
  obtain ⟨m, n, p, h⟩ := State.captures_frame s vs; rw [h]
@[simp] theorem State.captures_sweepState (vs : List Sample) : (State.captures vs s).sweepState = s.sweepState := by
  obtain ⟨m, n, p, h⟩ := State.captures_frame s vs; rw [h]
@[simp] theorem State.captures_dacCode0 (vs : List Sample) : (State.captures vs s).dacCode0 = s.dacCode0 := by
  obtain ⟨m, n, p, h⟩ := State.captures_frame s vs; rw [h]
@[simp] theorem State.captures_dacCode1 (vs : List Sample) : (State.captures vs s).dacCode1 = s.dacCode1 := by
  obtain ⟨m, n, p, h⟩ := State.captures_frame s vs; rw [h]
@[simp] theorem State.captures_ampEn (vs : List Sample) : (State.captures vs s).ampEn = s.ampEn := by
  obtain ⟨m, n, p, h⟩ := State.captures_frame s vs; rw [h]
@[simp] theorem State.captures_relay (vs : List Sample) : (State.captures vs s).relay = s.relay := by
  obtain ⟨m, n, p, h⟩ := State.captures_frame s vs; rw [h]
@[simp] theorem State.captures_gainSw (vs : List Sample) : (State.captures vs s).gainSw = s.gainSw := by
  obtain ⟨m, n, p, h⟩ := State.captures_frame s vs; rw [h]
@[simp] theorem State.captures_gainVal (vs : List Sample) : (State.captures vs s).gainVal = s.gainVal := by
  obtain ⟨m, n, p, h⟩ := State.captures_frame s vs; rw [h]
@[simp] theorem State.captures_statusOut (vs : List Sample) : (State.captures vs s).statusOut = s.statusOut := by
  obtain ⟨m, n, p, h⟩ := State.captures_frame s vs; rw [h]
@[simp] theorem State.captures_txq (vs : List Sample) : (State.captures vs s).txq = s.txq := by
  obtain ⟨m, n, p, h⟩ := State.captures_frame s vs; rw [h]
@[simp] theorem State.captures_txCur (vs : List Sample) : (State.captures vs s).txCur = s.txCur := by
  obtain ⟨m, n, p, h⟩ := State.captures_frame s vs; rw [h]
@[simp] theorem State.captures_txRest (vs : List Sample) : (State.captures vs s).txRest = s.txRest := by
  obtain ⟨m, n, p, h⟩ := State.captures_frame s vs; rw [h]
@[simp] theorem State.captures_txOut (vs : List Sample) : (State.captures vs s).txOut = s.txOut := by
  obtain ⟨m, n, p, h⟩ := State.captures_frame s vs; rw [h]
@[simp] theorem State.captures_capEpoch (vs : List Sample) : (State.captures vs s).capEpoch = s.capEpoch := by
  obtain ⟨m, n, p, h⟩ := State.captures_frame s vs; rw [h]
@[simp] theorem State.captures_sched (vs : List Sample) : (State.captures vs s).sched = s.sched := by
  obtain ⟨m, n, p, h⟩ := State.captures_frame s vs; rw [h]
@[simp] theorem State.captures_draws (vs : List Sample) : (State.captures vs s).draws = s.draws := by
  obtain ⟨m, n, p, h⟩ := State.captures_frame s vs; rw [h]

end Sys2Proof.Machine
end

