-- ==== Sys2Proof/Laws/Steps.lean ====
section
/-! SUPPORT. What a step can do: the event a state takes next, a disabled event, and one lemma per agent's operation that
says what it answers. -/

namespace Sys2Proof.Machine

open Config

/-! ### Fetching and running an event -/

/-- The head of the schedule is the event of the step. -/
theorem step_cons {s : State} {e : Event} {r : List Event} (h : s.sched = e :: r) :
    step s = runEvent e { s with sched := r } := by
  simp only [step, nextEvent, h]

/-- With nothing scheduled the step is the free choice. -/
theorem step_nil {s : State} (h : s.sched = []) :
    step s = runEvent (freeEvent s.draws) { s with draws := s.draws + 1 } := by
  simp only [step, nextEvent, h]

/-- Every step is one event, run in a state that differs in `sched` and `draws` only. -/
theorem step_eq_runEvent (s : State) :
    ∃ (e : Event) (r : List Event) (n : Nat), step s = runEvent e { s with sched := r, draws := n } := by
  cases h : s.sched with
  | nil => exact ⟨freeEvent s.draws, [], s.draws + 1, by rw [step_nil h, ← h]⟩
  | cons e r => exact ⟨e, r, s.draws, step_cons h⟩

theorem runEvent_disabled {e : Event} {s : State} (h : enabled e s = false) : runEvent e s = .next s := by
  simp [runEvent, h]

theorem runEvent_enabled {e : Event} {s : State} (h : enabled e s = true) : runEvent e s = fire e s := by
  simp [runEvent, h]

/-- An event that answers a next state did nothing, or was enabled and did its action. -/
theorem runEvent_next {e : Event} {s s' : State} (h : runEvent e s = .next s') :
    s' = s ∨ (enabled e s = true ∧ fire e s = .next s') := by
  cases he : enabled e s with
  | false => rw [runEvent_disabled he] at h; cases h; exact .inl rfl
  | true => rw [runEvent_enabled he] at h; exact .inr ⟨rfl, h⟩

theorem outcome_next {x : Except Fault State} {s' : State} (h : outcome x = .next s') : x = .ok s' := by
  cases x with
  | ok s => cases h; rfl
  | error f => cases h

/-- A run of one more step goes through the step's next state. -/
theorem core_run_succ {n : Nat} {s s' : State} (h : step s = .next s') :
    Host.Core.run Sys2Proof.core (n + 1) s = Host.Core.run Sys2Proof.core n s' := by
  have h' : Sys2Proof.core.step s = .next s' := h
  simp only [Host.Core.run, h']

/-! ### The operands of a tick -/

/-- The entry of a tick is read where the index is inside the table and the entry holds a value. -/
theorem rampEntry_ok {s : State} {c : DacCode} :
    s.rampEntry = .ok c ↔ s.stepIndex.toNat < s.cfg.rampLen ∧ Mem.read s.ramp s.stepIndex.toNat = some c := Mem.get_ok

/-- The gain value of the request, on the VCE path (R148, 2b). -/
theorem applyGain_ok {s s' : State} (h : s.applyGain = .ok s') :
    (s.reqKind = .vbe ∧ s' = s) ∨
    (s.reqKind = .vce ∧ ∃ g, s.cfg.gainTable[s.reqGain.toNat]? = some g ∧ s' = s.gainWrite g) := by
  simp only [State.applyGain] at h
  split at h
  · cases h; exact .inl ⟨by assumption, rfl⟩
  · simp only [State.gainEntry] at h
    cases hg : s.cfg.gainTable[s.reqGain.toNat]? with
    | none => simp [hg] at h
    | some g =>
      simp only [hg] at h
      cases h
      exact .inr ⟨by assumption, g, rfl, rfl⟩

end Sys2Proof.Machine
end

