-- ==== Sys2Proof/Laws/Agents.lean ====
section
/-! SUPPORT. What each agent's operation can do: one lemma per operation, which says everything it may answer. A proof about
all steps cites these and unfolds nothing. -/

namespace Sys2Proof.Machine

open Config

/-! ### RECEIVER -/

/-- `rx_len` advances without wrapping while it is below `FRAME_CAP`. -/
theorem rxLen_succ {s : State} (h : s.rxLen.toNat < s.cfg.frameCap) : (s.rxLen + 1).toNat = s.rxLen.toNat + 1 := by
  have := s.cfg.legal.frameCap_max
  rw [BitVec.toNat_add]
  exact Nat.mod_eq_of_lt (by simp; omega)

/-- RX_BYTE of `b`: stored, or as the last byte of a full buffer, and not the terminator, it discards the buffer with one
`Overflow`. -/
theorem storeByte_cases (b : Byte) {s : State} (h : s.rxLen.toNat < s.cfg.frameCap) :
    ((b = s.cfg.termIn ∨ s.rxLen.toNat + 1 < s.cfg.frameCap) ∧
      storeByte b s = .ok { s with rxBuf := Mem.write s.rxBuf s.rxLen.toNat b, rxLen := s.rxLen + 1 }) ∨
    (b ≠ s.cfg.termIn ∧ s.rxLen.toNat + 1 = s.cfg.frameCap ∧
      storeByte b s = .ok { s with
        rxBuf := Mem.write s.rxBuf s.rxLen.toNat b, rxLen := 0, statusOut := s.statusOut ++ [.overflow] }) := by
  have hs := rxLen_succ h
  simp only [storeByte, Mem.put_ok.mpr ⟨h, rfl⟩]
  by_cases hc : b ≠ s.cfg.termIn ∧ s.rxLen.toNat + 1 = s.cfg.frameCap
  · refine .inr ⟨hc.1, hc.2, ?_⟩
    rw [if_pos ⟨hc.1, hs.trans hc.2⟩]
    rfl
  · refine .inl ⟨?_, by rw [if_neg (fun hh => hc ⟨hh.1, hs.symm.trans hh.2⟩)]⟩
    by_cases hb : b = s.cfg.termIn
    · exact .inl hb
    · exact .inr (by
        have hne : ¬ s.rxLen.toNat + 1 = s.cfg.frameCap := fun he => hc ⟨hb, he⟩
        omega)

/-- RX_BYTE with a readable last byte stores the head of the Link. -/
theorem rxByte_store {s : State} {b : Byte} {l : List Byte} {x : Option Byte} (hl : s.linkRx = b :: l)
    (hx : s.lastByte = .ok x) : rxByte s = storeByte b { s with linkRx := l } := by
  simp only [rxByte, hx, hl]

theorem rxByte_ok {s s' : State} (h : rxByte s = .ok s') :
    ∃ x, s.lastByte = .ok x ∧
      ((s.linkRx = [] ∧ s' = s) ∨
       ∃ b l, s.linkRx = b :: l ∧ s.rxLen.toNat < s.cfg.frameCap ∧ storeByte b { s with linkRx := l } = .ok s') := by
  simp only [rxByte] at h
  split at h
  · cases h
  · rename_i x hx
    refine ⟨x, hx, ?_⟩
    split at h
    · cases h; exact .inl ⟨by assumption, rfl⟩
    · rename_i b l hl
      refine .inr ⟨b, l, hl, ?_, h⟩
      simp only [storeByte] at h
      split at h
      · cases h
      · rename_i m hm; exact (Mem.put_ok.mp hm).1

theorem rxFrame_ok {s s' : State} (h : rxFrame s = .ok s') :
    ∃ f, s.frameBytes = .ok f ∧
      ((∃ i, decodeFrame s.cfg.toGivenParams f = .ok i ∧ s' = { s with rxLen := 0, iq := s.iq ++ [i] }) ∨
       (∃ e, decodeFrame s.cfg.toGivenParams f = .error e ∧
        s' = { s with rxLen := 0, statusOut := s.statusOut ++ [.errorReceive] })) := by
  simp only [rxFrame] at h
  split at h
  · cases h
  · rename_i f hf
    refine ⟨f, hf, ?_⟩
    split at h
    · rename_i i hi; cases h; exact .inl ⟨i, hi, rfl⟩
    · rename_i e he; cases h; exact .inr ⟨e, he, rfl⟩

theorem rxTimeout_ok {s s' : State} (h : rxTimeout s = .ok s') :
    (∃ x, s.lastByte = .ok x) ∧ s' = { s with rxLen := 0, statusOut := s.statusOut ++ [.timeout] } := by
  simp only [rxTimeout] at h
  split at h
  · cases h
  · rename_i x hx; cases h; exact ⟨⟨x, hx⟩, rfl⟩

/-- The last byte is the last of the buffer's bytes: where these are readable, so is that. -/
theorem lastByte_of_frameBytes {s : State} {f : List Byte} (h : s.frameBytes = .ok f) : s.lastByte = .ok f.getLast? := by
  obtain ⟨hl, hall⟩ := Mem.getRun_ok.mp h
  simp only [State.lastByte]
  split
  · rename_i h0
    have : f = [] := List.length_eq_zero_iff.mp (by simp [hl, h0])
    simp [this]
  · rename_i h0
    have hpos : s.rxLen.toNat ≠ 0 := fun hn => h0 (BitVec.eq_of_toNat_eq hn)
    have := hall (s.rxLen.toNat - 1) (by omega)
    rw [Nat.zero_add] at this
    rw [Mem.get_ok.mpr this]
    simp only [Except.ok.injEq, List.getLast?_eq_getElem?, hl]
    rw [List.getElem?_eq_getElem]

/-- A complete frame's last byte is read, and is the terminator. -/
theorem frameComplete_iff {s : State} : s.frameComplete = true ↔ s.lastByte = .ok (some s.cfg.termIn) := by
  simp only [State.frameComplete]
  split <;> simp_all

theorem lastByteFaults_iff {s : State} : s.lastByteFaults = false ↔ ∃ x, s.lastByte = .ok x := by
  simp only [State.lastByteFaults]
  split <;> simp_all

/-- The pending frame has room, where RX_FRAME may take it and it decodes. -/
theorem frameTakable_room {s : State} {f : List Byte} {i : Instruction} (h : s.frameTakable = true)
    (hf : s.frameBytes = .ok f) (hi : decodeFrame s.cfg.toGivenParams f = .ok i) : s.iq.length < s.cfg.iqDepth := by
  simpa only [State.frameTakable, hf, hi, decide_eq_true_eq] using h

/-- DECODE never returns more than `ARG_CAP` argument bytes (`spec/40_frame_codec.md` R111). -/
theorem decodeFrame_arg_length {p : GivenParams} {f : List Byte} {i : Instruction} (h : decodeFrame p f = .ok i) :
    i.arg.length ≤ p.argCap := by
  simp only [decodeFrame, decodeTail] at h
  split at h
  · cases h
  · split at h
    · cases h
    · split at h
      · split at h
        · cases h
        · split at h
          · cases h
          · rename_i body _ _ _
            cases body with
            | nil => cases h
            | cons c a =>
              simp only [decodeBody] at h
              split at h
              · cases h
              · cases h; exact Nat.le_of_not_lt (by assumption)
      · cases h

/-! ### DISPATCHER -/

/-- ARM, for each kind (R144, R145). -/
theorem arm_eq (s : State) :
    s.arm = match s.reqKind with
      | .vce => { s with
          stepIndex := 0, ampEn := true, relay := s.cfg.relayVce, gainSw := s.cfg.gswVce, sweepState := .arming }
      | .vbe => { s.emitDac s.cfg.chVbe 0 with
          stepIndex := 0, ampEn := true, relay := s.cfg.relayVbe, gainSw := s.cfg.gswVbe, sweepState := .arming } := by
  cases hk : s.reqKind with
  | vce => simp only [State.arm, State.relayOf, State.gainSwOf, State.setAmp, hk]
  | vbe =>
    simp only [State.arm, State.relayOf, State.gainSwOf, State.setAmp, hk, State.emitDac_eq]

/-- `sweep_state` in {Idle, Faulted} (R176). -/
theorem acceptsSweep_iff {s : State} : s.acceptsSweep = true ↔ s.sweepState = .idle ∨ s.sweepState = .faulted := by
  simp [State.acceptsSweep]

/-- What a command can do (R171 to R175): acknowledge, load, report an argument error, arm, or nothing. -/
theorem exec_command {s s' : State} {i : Instruction} (h : exec (commandInstr i) s = .next s') :
    s' = s ∨ s' = { s with hbAck := true, connected := true } ∨
    (s.acceptsSweep = true ∧ s' = { s with statusOut := s.statusOut ++ [.errorReceive] }) ∨
    (s.acceptsSweep = true ∧ ∃ a g c, a ≤ s.cfg.ampMax ∧ g < s.cfg.gainCount ∧ c ≤ countMax ∧ s' = s.loadVce a g c) ∨
    (s.acceptsSweep = true ∧
      s' = { s with reqKind := .vbe, ramp := Mem.fill (rampTable s.cfg.toGivenParams s.cfg.vbeTargetMv), reqValid := true }) ∨
    (s.acceptsSweep = true ∧ s.reqValid = true ∧ s.connected = true ∧ s' = s.arm) := by
  simp only [commandInstr] at h
  split at h
  · cases h; exact .inr (.inl rfl)
  split at h
  · simp only [exec, execLoadVce] at h
    split at h
    · split at h
      · cases h; exact .inr (.inr (.inl ⟨by assumption, rfl⟩))
      · rename_i a g c hp
        cases h
        have := parseVceArg_le hp
        have hg := s.cfg.legal.gainCount_min
        exact .inr (.inr (.inr (.inl ⟨by assumption, a, g, c, this.1,
          by omega, this.2.2, rfl⟩)))
    · cases h; exact .inl rfl
  split at h
  · simp only [exec, execLoadVbe] at h
    split at h
    · cases h; exact .inr (.inr (.inr (.inr (.inl ⟨by assumption, rfl⟩))))
    · cases h; exact .inl rfl
  split at h
  · simp only [exec, execStart] at h
    split at h
    · rename_i hc
      cases h; exact .inr (.inr (.inr (.inr (.inr ⟨hc.1, hc.2.1, hc.2.2, rfl⟩))))
    · cases h; exact .inl rfl
  · cases h; exact .inl rfl

/-- A command never faults and is never refused. -/
theorem exec_command_completes (i : Instruction) (s : State) : ∃ s', exec (commandInstr i) s = .next s' := by
  simp only [commandInstr]
  split
  · exact ⟨_, rfl⟩
  split
  · simp only [exec, execLoadVce]
    split
    · split <;> exact ⟨_, rfl⟩
    · exact ⟨_, rfl⟩
  split
  · simp only [exec, execLoadVbe]; split <;> exact ⟨_, rfl⟩
  split
  · simp only [exec, execStart]; split <;> exact ⟨_, rfl⟩
  · exact ⟨_, rfl⟩

/-- The registers and the table of an accepted `a` command. -/
theorem loadVce_eq (a g c : Nat) (s : State) :
    s.loadVce a g c = { s with
      reqKind := .vce, reqAmp := BitVec.ofNat 6 a, reqGain := BitVec.ofNat 8 g, reqSamples := BitVec.ofNat 8 c,
      ramp := Mem.fill (rampTable s.cfg.toGivenParams (100 * a)), reqValid := true } := rfl

/-- A failed ARM (R146, R152). -/
theorem armFailure_eq (st : SweepState) (s : State) :
    s.armFailure st = { s.emitDac s.activeCh 0 with
      ampEn := false, sweepState := st, statusOut := s.statusOut ++ [.errorGeneric] } := by
  simp only [State.armFailure, State.gateOff, State.setAmp, State.post, State.emitDac_statusOut]

/-! ### The step timer -/

/-- `step_index` advances without wrapping inside the table (`spec/10_state.md` R21). -/
theorem stepIndex_succ {s : State} (h : s.stepIndex.toNat < s.cfg.rampLen) :
    (s.stepIndex + 1).toNat = s.stepIndex.toNat + 1 := by
  have := s.cfg.legal.rampLen_max
  rw [BitVec.toNat_add]
  exact Nat.mod_eq_of_lt (by simp; omega)

/-- `RAMP_LEN` fits `step_index`. -/
theorem rampLen_toNat (p : Params) : (BitVec.ofNat 8 p.rampLen).toNat = p.rampLen := by
  have := p.legal.rampLen_max
  rw [BitVec.toNat_ofNat]
  exact Nat.mod_eq_of_lt (by omega)

/-- The index reaches `RAMP_LEN` exactly after the last tick. -/
theorem stepIndex_last {s : State} (h : s.stepIndex.toNat < s.cfg.rampLen) :
    s.stepIndex + 1 = BitVec.ofNat 8 s.cfg.rampLen ↔ s.stepIndex.toNat = s.cfg.rampSteps := by
  rw [← BitVec.toNat_inj, stepIndex_succ h, rampLen_toNat, rampLen_eq]
  omega

/-- A DAC write does not change which channel is active. -/
@[simp] theorem activeCh_emitDac (s : State) (ch : Channel) (c : DacCode) :
    (s.emitDac ch c).activeCh = s.activeCh := by simp [State.activeCh]

/-! ### Captures inside a STEP -/

/-- The captures at one point of a STEP, as one update of the state. -/
theorem captures_eq (vs : List Sample) (s : State) :
    State.captures vs s = { s with
      cap := Mem.writeRun s.cap s.dmaWrIdx (s.captured vs), dmaWrIdx := s.dmaWrIdx + (s.captured vs).length,
      ports := s.ports ++ capCalls s.dmaWrIdx (s.captured vs) } := by
  induction vs generalizing s with
  | nil => simp [State.captures, State.captured, Mem.writeRun, capCalls]
  | cons v vs ih =>
    simp only [State.captures]
    split
    · rename_i hc
      simp only [State.capturing, Bool.and_eq_true, decide_eq_true_eq] at hc
      obtain ⟨⟨ha, hr⟩, hi⟩ := hc
      obtain ⟨n, hn⟩ : ∃ n, s.cfg.capLen - s.dmaWrIdx = n + 1 := ⟨s.cfg.capLen - s.dmaWrIdx - 1, by omega⟩
      have hn' : s.cfg.capLen - (s.dmaWrIdx + 1) = n := by omega
      rw [ih]
      simp [State.captured, State.capture, ha, hr, hn, hn', Mem.writeRun, capCalls, Nat.add_assoc, Nat.add_comm 1]
    · rename_i hc
      simp only [State.capturing, Bool.and_eq_true, decide_eq_true_eq, not_and, Nat.not_lt] at hc
      have he : s.captured (v :: vs) = [] := by
        simp only [State.captured]
        split
        · rename_i h
          rw [Nat.sub_eq_zero_of_le (hc h)]; rfl
        · rfl
      simp [he, Mem.writeRun, capCalls]

/-- Two points with no change of the capture between them are one. -/
theorem captures_append (vs us : List Sample) (s : State) :
    State.captures (vs ++ us) s = State.captures us (State.captures vs s) := by
  induction vs generalizing s with
  | nil => rfl
  | cons v vs ih =>
    simp only [List.cons_append, State.captures]
    split
    · exact ih _
    · rename_i hc
      cases us with
      | nil => rfl
      | cons u us => simp only [State.captures, if_neg hc]

/-- The captures do not read `step_index`. -/
theorem captures_withIndex (vs : List Sample) (s : State) (k : BitVec 8) :
    State.captures vs { s with stepIndex := k } = { State.captures vs s with stepIndex := k } := by
  rw [captures_eq, captures_eq]; rfl

/-- What is taken at a point fits `cap`, and only a running capture takes anything. -/
theorem captured_room (vs : List Sample) (s : State) :
    s.captured vs = [] ∨
      (s.dmaArmed = true ∧ s.adcRun = true ∧ s.dmaWrIdx + (s.captured vs).length ≤ s.cfg.capLen) := by
  simp only [State.captured]
  split
  · rename_i h
    by_cases hr : s.dmaWrIdx ≤ s.cfg.capLen
    · exact .inr ⟨h.1, h.2, by rw [List.length_take]; omega⟩
    · exact .inl (by rw [Nat.sub_eq_zero_of_le (by omega)]; rfl)
  · exact .inl rfl

/-! ### TICK -/

/-- Parts 3 and 4 before the last tick. -/
theorem advance_next {s : State} (vs : List Sample) (h : ¬ s.stepIndex + 1 = BitVec.ofNat 8 s.cfg.rampLen) :
    s.advance vs = ({ State.captures vs s with stepIndex := s.stepIndex + 1 }, .continueTimer) := by
  simp only [State.advance, captures_withIndex, State.captures_cfg, if_neg h]

/-- Tick 0 (R149), where the capture opens. -/
theorem tick_first {s s1 : State} {c : DacCode} {ic : InnerCaptures} (hc : s.rampEntry = .ok c) (h0 : s.stepIndex = 0)
    (ho : (State.captures ic.afterCode (s.emitDac s.activeCh c)).openCapture = .ok s1) (h1 : s1.stepIndex = 0) :
    tick ic s = .ok { State.captures (ic.afterStart ++ ic.afterIndex) s1 with stepIndex := 1 } := by
  have hlt : s1.stepIndex.toNat < s1.cfg.rampLen := by
    have := s1.cfg.legal.rampSteps_pos
    rw [h1, rampLen_eq]; exact Nat.succ_pos _
  have hne : ¬ (State.captures ic.afterStart s1).stepIndex + 1 =
      BitVec.ofNat 8 (State.captures ic.afterStart s1).cfg.rampLen := by
    have := s1.cfg.legal.rampSteps_pos
    rw [State.captures_stepIndex, State.captures_cfg, stepIndex_last hlt, h1]
    simp; omega
  simp only [tick, seqStep, hc, if_pos h0, ho, advance_next _ hne, captures_append, State.captures_stepIndex, h1]
  rfl

/-- The ticks between the first and the last (R150). -/
theorem tick_middle {s : State} {c : DacCode} (ic : InnerCaptures) (hc : s.rampEntry = .ok c) (h0 : s.stepIndex ≠ 0)
    (hl : s.stepIndex.toNat ≠ s.cfg.rampSteps) :
    tick ic s = .ok { State.captures (ic.afterCode ++ ic.afterIndex) (s.emitDac s.activeCh c) with
      stepIndex := s.stepIndex + 1 } := by
  have hne := mt (stepIndex_last (rampEntry_ok.mp hc).1).mp hl
  simp only [tick, seqStep, hc, if_neg h0]
  rw [advance_next _ (by simpa using hne), captures_append]
  simp [interruptReturn]

/-- The last tick (R151). -/
theorem tick_last {s : State} {c : DacCode} (ic : InnerCaptures) (hc : s.rampEntry = .ok c)
    (hl : s.stepIndex.toNat = s.cfg.rampSteps) :
    tick ic s = .ok ({ State.captures (ic.afterCode ++ ic.afterIndex) (s.emitDac s.activeCh c) with
      stepIndex := BitVec.ofNat 8 s.cfg.rampLen } : State).closeCapture.stopTimer := by
  have heq := (stepIndex_last (rampEntry_ok.mp hc).1).mpr hl
  have h0 : ¬ s.stepIndex = 0 := by
    intro h0
    have := s.cfg.legal.rampSteps_pos
    simp [h0] at hl
    omega
  have ha : ∀ (vs : List Sample) (t : State), t.stepIndex + 1 = BitVec.ofNat 8 t.cfg.rampLen →
      t.advance vs =
        (({ State.captures vs t with stepIndex := BitVec.ofNat 8 t.cfg.rampLen } : State).closeCapture, .stopTimer) := by
    intro vs t ht
    simp only [State.advance, captures_withIndex, State.captures_cfg, ht, if_true]
  simp only [tick, seqStep, hc, if_neg h0]
  rw [ha _ _ (by simpa using heq), captures_append]
  simp only [interruptReturn, State.captures_cfg, State.emitDac_cfg]

/-- The opening of the capture (R148, 2; R149), for each kind. -/
theorem openCapture_ok {s s' : State} (h : s.openCapture = .ok s') :
    (s.reqKind = .vbe ∧ s' = { s with
      dmaWrIdx := 0, dmaArmed := true, adcRun := true,
      ports := s.ports ++ [.dmaStop, .dmaDrain, .dmaArm s.cfg.capLen, .adcStart] }) ∨
    (s.reqKind = .vce ∧ ∃ g, s.cfg.gainTable[s.reqGain.toNat]? = some g ∧ s' = { s with
      gainVal := g, dmaWrIdx := 0, dmaArmed := true, adcRun := true,
      ports := s.ports ++ [.dmaStop, .dmaDrain, .gainWr g, .dmaArm s.cfg.capLen, .adcStart] }) := by
  simp only [State.openCapture] at h
  split at h
  · rename_i s1 ha
    cases h
    rcases applyGain_ok ha with ⟨hk, rfl⟩ | ⟨hk, g, hg, rfl⟩
    · refine .inl ⟨hk, ?_⟩
      simp [State.dmaStop, State.dmaDrain, State.dmaArm, State.adcStart]
    · refine .inr ⟨hk, g, hg, ?_⟩
      simp [State.dmaStop, State.dmaDrain, State.gainWrite, State.dmaArm, State.adcStart]
  · cases h

/-- The capture opens on the VBE path, and on the VCE path where the gain table has the entry. -/
theorem openCapture_vbe {s : State} (hk : s.reqKind = .vbe) :
    s.openCapture = .ok { s with
      dmaWrIdx := 0, dmaArmed := true, adcRun := true,
      ports := s.ports ++ [.dmaStop, .dmaDrain, .dmaArm s.cfg.capLen, .adcStart] } := by
  simp [State.openCapture, State.applyGain, State.dmaStop, State.dmaDrain, State.dmaArm, State.adcStart, hk]

theorem openCapture_vce {s : State} {g : Byte} (hk : s.reqKind = .vce)
    (hg : s.cfg.gainTable[s.reqGain.toNat]? = some g) :
    s.openCapture = .ok { s with
      gainVal := g, dmaWrIdx := 0, dmaArmed := true, adcRun := true,
      ports := s.ports ++ [.dmaStop, .dmaDrain, .gainWr g, .dmaArm s.cfg.capLen, .adcStart] } := by
  simp [State.openCapture, State.applyGain, State.gainEntry, State.dmaStop, State.dmaDrain, State.gainWrite,
    State.dmaArm, State.adcStart, hk, hg]

/-- A tick that ends writes the code of its index; the first opens the capture, the last closes it, the others do no more
(R148 to R151), and the captures inside it fall where `spec/20_memory.md` R63 lets them. -/
theorem tick_ok {s s' : State} {ic : InnerCaptures} (h : tick ic s = .ok s') :
    ∃ c, s.rampEntry = .ok c ∧
      ((s.stepIndex = 0 ∧ ∃ s1, (State.captures ic.afterCode (s.emitDac s.activeCh c)).openCapture = .ok s1 ∧
        s' = { State.captures (ic.afterStart ++ ic.afterIndex) s1 with stepIndex := 1 }) ∨
       (1 ≤ s.stepIndex.toNat ∧ s.stepIndex.toNat < s.cfg.rampSteps ∧
        s' = { State.captures (ic.afterCode ++ ic.afterIndex) (s.emitDac s.activeCh c) with
          stepIndex := s.stepIndex + 1 }) ∨
       (s.stepIndex.toNat = s.cfg.rampSteps ∧
        s' = ({ State.captures (ic.afterCode ++ ic.afterIndex) (s.emitDac s.activeCh c) with
          stepIndex := BitVec.ofNat 8 s.cfg.rampLen } : State).closeCapture.stopTimer)) := by
  cases hc : s.rampEntry with
  | error f => simp [tick, seqStep, hc] at h
  | ok c =>
    refine ⟨c, rfl, ?_⟩
    have hlt := (rampEntry_ok.mp hc).1
    rw [rampLen_eq] at hlt
    by_cases h0 : s.stepIndex = 0
    · cases ho : (State.captures ic.afterCode (s.emitDac s.activeCh c)).openCapture with
      | error f => simp only [tick, seqStep, hc, if_pos h0, ho] at h; cases h
      | ok s1 =>
        have h1 : s1.stepIndex = 0 := by
          rcases openCapture_ok ho with ⟨-, rfl⟩ | ⟨-, g, -, rfl⟩ <;> simp [h0]
        rw [tick_first hc h0 ho h1] at h
        cases h
        exact .inl ⟨h0, s1, rfl, rfl⟩
    · have hn : s.stepIndex.toNat ≠ 0 := fun hn => h0 (BitVec.eq_of_toNat_eq hn)
      by_cases h2 : s.stepIndex.toNat = s.cfg.rampSteps
      · rw [tick_last ic hc h2] at h
        cases h
        exact .inr (.inr ⟨h2, rfl⟩)
      · rw [tick_middle ic hc h0 h2] at h
        cases h
        exact .inr (.inl ⟨by omega, by omega, rfl⟩)

/-- The closing of the capture (R148, 4; R151), for each kind. -/
theorem closeCapture_eq (s : State) :
    s.closeCapture = match s.reqKind with
      | .vce => { s.emitDac s.activeCh 0 with
          adcRun := false, dmaArmed := false, ampEn := false, gainVal := s.cfg.gainOff, done := true,
          sweepState := .draining,
          ports := s.ports ++ [.adcStop, .dmaDrain, .dacWr s.activeCh 0, .gainWr s.cfg.gainOff] }
      | .vbe => { s.emitDac s.activeCh 0 with
          adcRun := false, dmaArmed := false, ampEn := false, done := true, sweepState := .draining,
          ports := s.ports ++ [.adcStop, .dmaDrain, .dacWr s.activeCh 0] } := by
  cases hk : s.reqKind <;> cases ha : s.activeCh <;> simp only [State.activeCh, hk] at ha <;>
    simp [State.closeCapture, State.adcStop, State.dmaDrain, State.gateOff, State.activeCh, State.emitDac,
      State.setAmp, State.gainWrite, State.signalDone, hk, ha]

/-! ### SERIALIZER -/

/-- Serving a request starts the frame of its instruction and does nothing else (R118 to R121, R123). -/
theorem exec_request (s0 s : State) (q : TxRequest) :
    exec (requestInstr s0 q) s = .next (s.beginFrame q (encode s.cfg.toGivenParams (requestInstr s0 q))) := by
  cases q with
  | heartbeat => rfl
  | status ev => cases ev <;> rfl
  | text t => rfl
  | sweep => simp only [requestInstr]; cases s0.reqKind <;> rfl

theorem servable_get {l : List TxRequest} {k : Nat} (h : servable l k = true) : ∃ q, l[k]? = some q := by
  simp only [servable] at h
  split at h
  · cases h
  · exact ⟨_, by assumption⟩

/-- Taking a request from the queue moves at most one `Sweep` to the transmitter. -/
theorem sweep_eraseIdx_count {l : List TxRequest} {k : Nat} {q : TxRequest} (h : l[k]? = some q) :
    (l.eraseIdx k).count .sweep + (if some q = some .sweep then 1 else 0) = l.count .sweep := by
  induction l generalizing k with
  | nil => simp at h
  | cons x l ih =>
    cases k with
    | zero =>
      simp only [List.getElem?_cons_zero, Option.some.injEq] at h
      subst h
      simp [List.count_cons]
    | succ k =>
      have := ih (by simpa using h)
      simp only [List.eraseIdx_cons_succ, List.count_cons]
      omega

/-- A `Sweep` is pending or being sent after TX_BEGIN exactly if one was pending before. -/
theorem sweep_eraseIdx_iff {l : List TxRequest} {k : Nat} {q : TxRequest} (h : l[k]? = some q) :
    (.sweep ∈ l.eraseIdx k ∨ some q = some .sweep) ↔ .sweep ∈ l := by
  have hc := sweep_eraseIdx_count h
  rw [← List.count_pos_iff, ← List.count_pos_iff]
  by_cases hq : some q = some TxRequest.sweep
  · rw [if_pos hq] at hc; constructor <;> intro h' <;> first | omega | exact .inr hq
  · rw [if_neg hq] at hc; constructor <;> intro h'
    · rcases h' with h' | h'
      · omega
      · exact absurd h' hq
    · exact .inl (by omega)

theorem txBegin_next {s s' : State} {k : Nat} (h : txBegin k s = .next s') :
    (s.txq[k]? = none ∧ s' = s) ∨
    ∃ q, s.txq[k]? = some q ∧
      s' = { s with
        txq := s.txq.eraseIdx k, txBusy := true, txCur := some q, txRest := encode s.cfg.toGivenParams (requestInstr s q) } := by
  simp only [txBegin] at h
  split at h
  · cases h; exact .inl ⟨by assumption, rfl⟩
  · rename_i q hq
    rw [exec_request] at h
    cases h
    exact .inr ⟨q, hq, rfl⟩

/-! ### HEARTBEAT -/

theorem hbTimeout_cases (s : State) :
    (s.hbMiss + 1 < s.cfg.hbMissN ∧ hbTimeout s = { s with hbWaiting := false, hbMiss := s.hbMiss + 1 }) ∨
    (s.cfg.hbMissN ≤ s.hbMiss + 1 ∧ hbTimeout s = { s with
      hbWaiting := false, hbMiss := 0, connected := false, statusOut := s.statusOut ++ [.disconnect] }) := by
  by_cases hc : s.cfg.hbMissN ≤ s.hbMiss + 1
  · refine .inr ⟨hc, ?_⟩
    simp only [hbTimeout]
    rw [if_pos (by simpa [State.missWindow] using hc)]
    rfl
  · refine .inl ⟨by omega, ?_⟩
    simp only [hbTimeout]
    rw [if_neg (by simpa [State.missWindow] using hc)]
    rfl

end Sys2Proof.Machine
end

