-- ==== Sys2Proof/Laws/Effects.lean ====
section
/-! SUPPORT. Everything one event can do, as one closed list (`Effect`): each way an enabled event ends, with its condition
and the next state written out. A statement about all steps is proved by cases on it. -/

namespace Sys2Proof.Machine

open Config

/-- `Effect e s s'`: the enabled event `e` takes `s` to `s'`. One constructor per way of ending. -/
inductive Effect : Event → State → State → Prop where
  | linkRx (b : Byte) (s : State) : Effect (.linkRx b) s { s with linkRx := s.linkRx ++ [b] }
  | rxStored (s : State) (b : Byte) (l : List Byte) (x : Option Byte) (link : s.linkRx = b :: l)
      (last : s.lastByte = .ok x) (incomplete : s.frameComplete = false) (room : s.rxLen.toNat < s.cfg.frameCap)
      (fits : b = s.cfg.termIn ∨ s.rxLen.toNat + 1 < s.cfg.frameCap) :
      Effect .rxByte s
        { s with linkRx := l, rxBuf := Mem.write s.rxBuf s.rxLen.toNat b, rxLen := s.rxLen + 1 }
  | rxOverflow (s : State) (b : Byte) (l : List Byte) (x : Option Byte) (link : s.linkRx = b :: l)
      (last : s.lastByte = .ok x) (incomplete : s.frameComplete = false) (noTerm : b ≠ s.cfg.termIn)
      (full : s.rxLen.toNat + 1 = s.cfg.frameCap) :
      Effect .rxByte s
        { s with
          linkRx := l, rxBuf := Mem.write s.rxBuf s.rxLen.toNat b, rxLen := 0,
          statusOut := s.statusOut ++ [.overflow] }
  | rxDecoded (s : State) (f : List Byte) (i : Instruction) (complete : s.frameComplete = true)
      (bytes : s.frameBytes = .ok f) (decoded : decodeFrame s.cfg.toGivenParams f = .ok i)
      (room : s.iq.length < s.cfg.iqDepth) :
      Effect .rxFrame s { s with rxLen := 0, iq := s.iq ++ [i] }
  | rxRejected (s : State) (f : List Byte) (err : DecodeError) (complete : s.frameComplete = true)
      (bytes : s.frameBytes = .ok f) (failed : decodeFrame s.cfg.toGivenParams f = .error err) :
      Effect .rxFrame s { s with rxLen := 0, statusOut := s.statusOut ++ [.errorReceive] }
  | rxExpired (s : State) (x : Option Byte) (held : s.rxLen ≠ 0 ∨ s.cfg.idleTimeout = true)
      (last : s.lastByte = .ok x) (incomplete : s.frameComplete = false) :
      Effect .rxExpire s { s with rxLen := 0, statusOut := s.statusOut ++ [.timeout] }
  | commandDropped (s : State) (i : Instruction) (q : List Instruction) (head : s.iq = i :: q)
      (free : s.dispatcherFree = true) : Effect .dispatch s { s with iq := q }
  | commandAck (s : State) (i : Instruction) (q : List Instruction) (head : s.iq = i :: q)
      (free : s.dispatcherFree = true) :
      Effect .dispatch s { s with iq := q, hbAck := true, connected := true }
  | commandArgError (s : State) (i : Instruction) (q : List Instruction) (head : s.iq = i :: q)
      (accepts : s.acceptsSweep = true) :
      Effect .dispatch s { s with iq := q, statusOut := s.statusOut ++ [.errorReceive] }
  | commandVce (s : State) (i : Instruction) (q : List Instruction) (a g c : Nat) (head : s.iq = i :: q)
      (accepts : s.acceptsSweep = true) (amp : a ≤ s.cfg.ampMax) (gain : g < s.cfg.gainCount) (count : c ≤ countMax) :
      Effect .dispatch s
        { s with
          iq := q, reqKind := .vce, reqAmp := BitVec.ofNat 6 a, reqGain := BitVec.ofNat 8 g,
          reqSamples := BitVec.ofNat 8 c, ramp := Mem.fill (rampTable s.cfg.toGivenParams (100 * a)), reqValid := true }
  | commandVbe (s : State) (i : Instruction) (q : List Instruction) (head : s.iq = i :: q)
      (accepts : s.acceptsSweep = true) :
      Effect .dispatch s
        { s with
          iq := q, reqKind := .vbe, ramp := Mem.fill (rampTable s.cfg.toGivenParams s.cfg.vbeTargetMv),
          reqValid := true }
  | armVce (s : State) (i : Instruction) (q : List Instruction) (head : s.iq = i :: q)
      (accepts : s.acceptsSweep = true) (valid : s.reqValid = true) (alive : s.connected = true)
      (kind : s.reqKind = .vce) :
      Effect .dispatch s
        { s with
          iq := q, stepIndex := 0, ampEn := true, relay := s.cfg.relayVce, gainSw := s.cfg.gswVce,
          sweepState := .arming }
  | armVbe (s : State) (i : Instruction) (q : List Instruction) (head : s.iq = i :: q)
      (accepts : s.acceptsSweep = true) (valid : s.reqValid = true) (alive : s.connected = true)
      (kind : s.reqKind = .vbe) :
      Effect .dispatch s
        { s.emitDac s.cfg.chVbe 0 with
          iq := q, stepIndex := 0, ampEn := true, relay := s.cfg.relayVbe, gainSw := s.cfg.gswVbe,
          sweepState := .arming }
  | armReady (s : State) (arming : s.sweepState = .arming) :
      Effect (.armResult .ready) s { s with timerRun := true, sweepState := .running }
  | armFailed (s : State) (r : ArmResult) (st : SweepState) (arming : s.sweepState = .arming)
      (result : r = .hwFail ∧ st = .faulted ∨ r = .timerFail ∧ st = .idle) :
      Effect (.armResult r) s
        { s.emitDac s.activeCh 0 with
          ampEn := false, sweepState := st, statusOut := s.statusOut ++ [.errorGeneric] }
  | tickFirstVce (s : State) (ic : InnerCaptures) (c : DacCode) (g : Byte) (w u : List Sample) (timer : s.timerRun = true)
      (code : s.rampEntry = .ok c) (first : s.stepIndex = 0) (kind : s.reqKind = .vce)
      (gain : s.cfg.gainTable[s.reqGain.toNat]? = some g) (stale : w = s.captured ic.afterCode)
      (taken : u = (ic.afterStart ++ ic.afterIndex).take s.cfg.capLen) :
      Effect (.tick ic) s
        { s.emitDac s.activeCh c with
          gainVal := g, cap := Mem.writeRun (Mem.writeRun s.cap s.dmaWrIdx w) 0 u, dmaWrIdx := u.length,
          dmaArmed := true, adcRun := true, stepIndex := 1,
          ports := s.ports ++ .dacWr s.activeCh c :: (capCalls s.dmaWrIdx w ++
            ([.dmaStop, .dmaDrain, .gainWr g, .dmaArm s.cfg.capLen, .adcStart] ++ capCalls 0 u)) }
  | tickFirstVbe (s : State) (ic : InnerCaptures) (c : DacCode) (w u : List Sample) (timer : s.timerRun = true)
      (code : s.rampEntry = .ok c) (first : s.stepIndex = 0) (kind : s.reqKind = .vbe)
      (stale : w = s.captured ic.afterCode) (taken : u = (ic.afterStart ++ ic.afterIndex).take s.cfg.capLen) :
      Effect (.tick ic) s
        { s.emitDac s.activeCh c with
          cap := Mem.writeRun (Mem.writeRun s.cap s.dmaWrIdx w) 0 u, dmaWrIdx := u.length,
          dmaArmed := true, adcRun := true, stepIndex := 1,
          ports := s.ports ++ .dacWr s.activeCh c :: (capCalls s.dmaWrIdx w ++
            ([.dmaStop, .dmaDrain, .dmaArm s.cfg.capLen, .adcStart] ++ capCalls 0 u)) }
  | tickMiddle (s : State) (ic : InnerCaptures) (c : DacCode) (w : List Sample) (timer : s.timerRun = true)
      (code : s.rampEntry = .ok c) (low : 1 ≤ s.stepIndex.toNat) (high : s.stepIndex.toNat < s.cfg.rampSteps)
      (taken : w = s.captured (ic.afterCode ++ ic.afterIndex)) :
      Effect (.tick ic) s
        { s.emitDac s.activeCh c with
          cap := Mem.writeRun s.cap s.dmaWrIdx w, dmaWrIdx := s.dmaWrIdx + w.length, stepIndex := s.stepIndex + 1,
          ports := s.ports ++ .dacWr s.activeCh c :: capCalls s.dmaWrIdx w }
  | tickLastVce (s : State) (ic : InnerCaptures) (c : DacCode) (w : List Sample) (timer : s.timerRun = true)
      (code : s.rampEntry = .ok c) (last : s.stepIndex.toNat = s.cfg.rampSteps) (kind : s.reqKind = .vce)
      (taken : w = s.captured (ic.afterCode ++ ic.afterIndex)) :
      Effect (.tick ic) s
        { s.emitDac s.activeCh 0 with
          cap := Mem.writeRun s.cap s.dmaWrIdx w, dmaWrIdx := s.dmaWrIdx + w.length,
          stepIndex := BitVec.ofNat 8 s.cfg.rampLen, adcRun := false, dmaArmed := false, ampEn := false,
          gainVal := s.cfg.gainOff, done := true, timerRun := false, sweepState := .draining,
          ports := s.ports ++ .dacWr s.activeCh c :: (capCalls s.dmaWrIdx w ++
            [.adcStop, .dmaDrain, .dacWr s.activeCh 0, .gainWr s.cfg.gainOff]) }
  | tickLastVbe (s : State) (ic : InnerCaptures) (c : DacCode) (w : List Sample) (timer : s.timerRun = true)
      (code : s.rampEntry = .ok c) (last : s.stepIndex.toNat = s.cfg.rampSteps) (kind : s.reqKind = .vbe)
      (taken : w = s.captured (ic.afterCode ++ ic.afterIndex)) :
      Effect (.tick ic) s
        { s.emitDac s.activeCh 0 with
          cap := Mem.writeRun s.cap s.dmaWrIdx w, dmaWrIdx := s.dmaWrIdx + w.length,
          stepIndex := BitVec.ofNat 8 s.cfg.rampLen, adcRun := false, dmaArmed := false, ampEn := false,
          done := true, timerRun := false, sweepState := .draining,
          ports := s.ports ++ .dacWr s.activeCh c :: (capCalls s.dmaWrIdx w ++
            [.adcStop, .dmaDrain, .dacWr s.activeCh 0]) }
  | capWrite (s : State) (v : Sample) (armed : s.dmaArmed = true) (adc : s.adcRun = true)
      (room : s.dmaWrIdx < s.cfg.capLen) :
      Effect (.capWrite v) s
        { s with
          cap := Mem.write s.cap s.dmaWrIdx v, dmaWrIdx := s.dmaWrIdx + 1,
          ports := s.ports ++ [.capWr s.dmaWrIdx v] }
  | drained (s : State) (signalled : s.done = true) (free : s.dispatcherFree = true) :
      Effect .drain s { s with done := false, sweepState := .complete, txq := s.txq ++ [.sweep] }
  | txBegun (s : State) (k : Nat) (q : TxRequest) (idle : s.txBusy = false) (head : servable s.txq k = true)
      (chosen : s.txq[k]? = some q) :
      Effect (.txBegin k) s
        { s with
          txq := s.txq.eraseIdx k, txBusy := true, txCur := some q, txRest := encode s.cfg.toGivenParams (requestInstr s q) }
  | txByteSent (s : State) (b : Byte) (l : List Byte) (busy : s.txBusy = true) (rest : s.txRest = b :: l) :
      Effect .txByte s { s with txOut := s.txOut ++ [b], txRest := l }
  | txFinished (s : State) (busy : s.txBusy = true) (rest : s.txRest = []) :
      Effect .txDone s
        { s with
          txBusy := false, txCur := none, sweepState := if s.txCur = some .sweep then .idle else s.sweepState }
  | hbSent (s : State) (closed : s.hbWaiting = false) :
      Effect .hbKick s { s with txq := s.txq ++ [.heartbeat], hbWaiting := true }
  | hbTaken (s : State) (opened : s.hbWaiting = true) (acked : s.hbAck = true) :
      Effect .hbTake s { s with hbAck := false, hbWaiting := false, hbMiss := 0 }
  | hbMissed (s : State) (opened : s.hbWaiting = true) (silent : s.hbAck = false)
      (few : s.hbMiss + 1 < s.cfg.hbMissN) :
      Effect .hbExpire s { s with hbWaiting := false, hbMiss := s.hbMiss + 1 }
  | hbLost (s : State) (opened : s.hbWaiting = true) (silent : s.hbAck = false)
      (many : s.cfg.hbMissN ≤ s.hbMiss + 1) :
      Effect .hbExpire s
        { s with
          hbWaiting := false, hbMiss := 0, connected := false, statusOut := s.statusOut ++ [.disconnect] }
  | textReq (s : State) (t : List Byte) : Effect (.textReq t) s { s with txq := s.txq ++ [.text t] }
  | statusReq (s : State) (ev : StatusEvent) : Effect (.statusReq ev) s { s with txq := s.txq ++ [.status ev] }
  | infoPosted (s : State) (ev : StatusEvent) (posts : s.cfg.infoPosts = true) (info : ev.isInfo = true) :
      Effect (.infoPost ev) s { s with statusOut := s.statusOut ++ [ev] }
  | rst (s : State) : Effect .rst s s.applyReset

/-- The captures offered at a point whose DAC write is done. -/
theorem captured_emitDac (vs : List Sample) (s : State) (ch : Channel) (c : DacCode) :
    (s.emitDac ch c).captured vs = s.captured vs := by simp [State.captured]

/-- The state after tick 0 (R149), for each kind: what opens the capture, then what is taken. -/
theorem tickFirst_state {s s1 : State} {c : DacCode} {ic : InnerCaptures}
    (ho : (State.captures ic.afterCode (s.emitDac s.activeCh c)).openCapture = .ok s1) :
    ∃ w u, w = s.captured ic.afterCode ∧ u = (ic.afterStart ++ ic.afterIndex).take s.cfg.capLen ∧
      ((s.reqKind = .vbe ∧ ({ State.captures (ic.afterStart ++ ic.afterIndex) s1 with stepIndex := 1 } : State) =
        { s.emitDac s.activeCh c with
          cap := Mem.writeRun (Mem.writeRun s.cap s.dmaWrIdx w) 0 u, dmaWrIdx := u.length,
          dmaArmed := true, adcRun := true, stepIndex := 1,
          ports := s.ports ++ .dacWr s.activeCh c :: (capCalls s.dmaWrIdx w ++
            ([.dmaStop, .dmaDrain, .dmaArm s.cfg.capLen, .adcStart] ++ capCalls 0 u)) }) ∨
      (s.reqKind = .vce ∧ ∃ g, s.cfg.gainTable[s.reqGain.toNat]? = some g ∧
        ({ State.captures (ic.afterStart ++ ic.afterIndex) s1 with stepIndex := 1 } : State) =
        { s.emitDac s.activeCh c with
          gainVal := g, cap := Mem.writeRun (Mem.writeRun s.cap s.dmaWrIdx w) 0 u, dmaWrIdx := u.length,
          dmaArmed := true, adcRun := true, stepIndex := 1,
          ports := s.ports ++ .dacWr s.activeCh c :: (capCalls s.dmaWrIdx w ++
            ([.dmaStop, .dmaDrain, .gainWr g, .dmaArm s.cfg.capLen, .adcStart] ++ capCalls 0 u)) })) := by
  refine ⟨_, _, rfl, rfl, ?_⟩
  rcases openCapture_ok ho with ⟨hk, rfl⟩ | ⟨hk, g, hg, rfl⟩
  · refine .inl ⟨by simpa using hk, ?_⟩
    rw [captures_eq, captures_eq]
    simp [State.captured]
  · refine .inr ⟨by simpa using hk, g, by simpa using hg, ?_⟩
    rw [captures_eq, captures_eq]
    simp [State.captured]

/-- The state after the last tick (R151), for each kind. -/
theorem closeCapture_last (s : State) (c : DacCode) (vs : List Sample) :
    ({ State.captures vs (s.emitDac s.activeCh c) with
      stepIndex := BitVec.ofNat 8 s.cfg.rampLen } : State).closeCapture.stopTimer = match s.reqKind with
      | .vce => { s.emitDac s.activeCh 0 with
          cap := Mem.writeRun s.cap s.dmaWrIdx (s.captured vs), dmaWrIdx := s.dmaWrIdx + (s.captured vs).length,
          stepIndex := BitVec.ofNat 8 s.cfg.rampLen, adcRun := false, dmaArmed := false, ampEn := false,
          gainVal := s.cfg.gainOff, done := true, timerRun := false, sweepState := .draining,
          ports := s.ports ++ .dacWr s.activeCh c :: (capCalls s.dmaWrIdx (s.captured vs) ++
            [.adcStop, .dmaDrain, .dacWr s.activeCh 0, .gainWr s.cfg.gainOff]) }
      | .vbe => { s.emitDac s.activeCh 0 with
          cap := Mem.writeRun s.cap s.dmaWrIdx (s.captured vs), dmaWrIdx := s.dmaWrIdx + (s.captured vs).length,
          stepIndex := BitVec.ofNat 8 s.cfg.rampLen, adcRun := false, dmaArmed := false, ampEn := false,
          done := true, timerRun := false, sweepState := .draining,
          ports := s.ports ++ .dacWr s.activeCh c :: (capCalls s.dmaWrIdx (s.captured vs) ++
            [.adcStop, .dmaDrain, .dacWr s.activeCh 0]) } := by
  have ha : ({ State.captures vs (s.emitDac s.activeCh c) with
      stepIndex := BitVec.ofNat 8 s.cfg.rampLen } : State).activeCh = s.activeCh := by simp [State.activeCh]
  rw [closeCapture_eq, ha, captures_eq, captured_emitDac]
  cases hk : s.reqKind <;> cases s.activeCh <;> simp [State.emitDac_eq, State.stopTimer, hk]

/-- A tick that answers has one of the effects of a tick. -/
theorem tick_effect {s s' : State} {ic : InnerCaptures} (ht : s.timerRun = true) (h : tick ic s = .ok s') :
    Effect (.tick ic) s s' := by
  obtain ⟨c, hc, ⟨h0, s1, ho, rfl⟩ | ⟨h1, h2, rfl⟩ | ⟨h2, rfl⟩⟩ := tick_ok h
  · obtain ⟨w, u, hw, hu, ⟨hk, h⟩ | ⟨hk, g, hg, h⟩⟩ := tickFirst_state ho <;> rw [h]
    · exact .tickFirstVbe s ic c w u ht hc h0 hk hw hu
    · exact .tickFirstVce s ic c g w u ht hc h0 hk hg hw hu
  · rw [captures_eq, captured_emitDac]
    simpa using Effect.tickMiddle s ic c _ ht hc h1 h2 rfl
  · rw [closeCapture_last]
    cases hk : s.reqKind
    · exact .tickLastVce s ic c _ ht hc h2 hk rfl
    · exact .tickLastVbe s ic c _ ht hc h2 hk rfl

/-- DISPATCH that answers has one of the effects of a command. -/
theorem dispatch_effect {s s' : State} (hf : s.dispatcherFree = true) {i : Instruction} {q : List Instruction}
    (hq : s.iq = i :: q) (h : dispatch s = .next s') : Effect .dispatch s s' := by
  simp only [dispatch, hq] at h
  rcases exec_command h with rfl | rfl | ⟨ha, rfl⟩ | ⟨ha, a, g, c, h1, h2, h3, rfl⟩ | ⟨ha, rfl⟩ | ⟨ha, hv, hc, rfl⟩
  · exact .commandDropped s i q hq hf
  · exact .commandAck s i q hq hf
  · exact .commandArgError s i q hq ha
  · exact .commandVce s i q a g c hq ha h1 h2 h3
  · exact .commandVbe s i q hq ha
  · rw [arm_eq]
    cases hk : s.reqKind with
    | vce => simpa only [hk] using Effect.armVce s i q hq ha hv hc hk
    | vbe => simpa only [hk, State.emitDac_eq] using Effect.armVbe s i q hq ha hv hc hk

/-- An enabled event that answers a next state has one of the effects of the list. -/
theorem fire_effect {e : Event} {s s' : State} (he : enabled e s = true) (h : fire e s = .next s') :
    Effect e s s' := by
  cases e with
  | linkRx b => cases h; exact .linkRx b s
  | rxByte =>
    simp only [enabled, Bool.and_eq_true, Bool.not_eq_true'] at he
    obtain ⟨x, hx, ⟨hn, -⟩ | ⟨b, l, hl, hr, hb⟩⟩ := rxByte_ok (outcome_next h)
    · simp [hn] at he
    · rcases storeByte_cases b (s := { s with linkRx := l }) hr with ⟨hfits, hs⟩ | ⟨hb', hfull, hs⟩ <;>
        rw [hs] at hb <;> cases hb
      · exact .rxStored s b l x hl hx he.2 hr hfits
      · exact .rxOverflow s b l x hl hx he.2 hb' hfull
  | rxFrame =>
    obtain ⟨f, hf, hcase⟩ := rxFrame_ok (outcome_next h)
    have hnf : s.lastByteFaults = false := lastByteFaults_iff.mpr ⟨_, lastByte_of_frameBytes hf⟩
    simp only [enabled, hnf, Bool.false_or, Bool.and_eq_true] at he
    obtain ⟨i, hi, rfl⟩ | ⟨err, hr, rfl⟩ := hcase
    · exact .rxDecoded s f i he.1 hf hi (frameTakable_room he.2 hf hi)
    · exact .rxRejected s f err he.1 hf hr
  | rxExpire =>
    simp only [enabled, Bool.and_eq_true, Bool.or_eq_true, bne_iff_ne, Bool.not_eq_true'] at he
    obtain ⟨⟨x, hx⟩, rfl⟩ := rxTimeout_ok (outcome_next h)
    exact .rxExpired s x he.1 hx he.2
  | dispatch =>
    simp only [enabled, Bool.and_eq_true, Bool.not_eq_true'] at he
    cases hq : s.iq with
    | nil => simp [hq] at he
    | cons i q => exact dispatch_effect he.2 hq h
  | armResult r =>
    have hs : s.sweepState = .arming := by simpa [enabled] using he
    cases r with
    | ready => cases h; exact .armReady s hs
    | hwFail =>
      cases h
      simpa only [armResult, armFailure_eq] using Effect.armFailed s .hwFail .faulted hs (.inl ⟨rfl, rfl⟩)
    | timerFail =>
      cases h
      simpa only [armResult, armFailure_eq] using Effect.armFailed s .timerFail .idle hs (.inr ⟨rfl, rfl⟩)
  | tick ic => exact tick_effect he (outcome_next h)
  | capWrite v =>
    simp only [enabled, State.capturing, Bool.and_eq_true, decide_eq_true_eq] at he
    cases h; exact .capWrite s v he.1.1 he.1.2 he.2
  | drain =>
    simp only [enabled, Bool.and_eq_true] at he
    cases h; exact .drained s he.1 he.2
  | txBegin k =>
    simp only [enabled, Bool.and_eq_true, Bool.not_eq_true'] at he
    rcases txBegin_next h with ⟨hn, -⟩ | ⟨q, hq, rfl⟩
    · obtain ⟨q, hq⟩ := servable_get he.2
      simp [hn] at hq
    · exact .txBegun s k q he.1 he.2 hq
  | txByte =>
    simp only [enabled, Bool.and_eq_true, Bool.not_eq_true'] at he
    simp only [fire, txByte] at h
    cases hr : s.txRest with
    | nil => simp [hr] at he
    | cons b l => simp only [hr] at h; cases h; exact .txByteSent s b l he.1 hr
  | txDone =>
    simp only [enabled, Bool.and_eq_true, List.isEmpty_iff] at he
    cases h; exact .txFinished s he.1 he.2
  | hbKick => cases h; exact .hbSent s (by simpa [enabled] using he)
  | hbTake =>
    simp only [enabled, Bool.and_eq_true] at he
    cases h; exact .hbTaken s he.1 he.2
  | hbExpire =>
    simp only [enabled, Bool.and_eq_true, Bool.not_eq_true'] at he
    cases h
    rcases hbTimeout_cases s with ⟨hm, hs⟩ | ⟨hm, hs⟩ <;> rw [hs]
    · exact .hbMissed s he.1 he.2 hm
    · exact .hbLost s he.1 he.2 hm
  | textReq t => cases h; exact .textReq s t
  | statusReq ev => cases h; exact .statusReq s ev
  | infoPost ev =>
    cases h
    simp only [enabled, Bool.and_eq_true] at he
    exact .infoPosted s ev he.1 he.2
  | rst => cases h; exact .rst s

/-- Every event that answers a next state did nothing or had one of the effects of the list. -/
theorem runEvent_effect {e : Event} {s s' : State} (h : runEvent e s = .next s') :
    (enabled e s = false ∧ s' = s) ∨ (enabled e s = true ∧ Effect e s s') := by
  cases he : enabled e s with
  | false => rw [runEvent_disabled he] at h; cases h; exact .inl ⟨rfl, rfl⟩
  | true => rw [runEvent_enabled he] at h; exact .inr ⟨rfl, fire_effect he h⟩

/-- Every effect but a DISPATCH's is what the event does. -/
theorem runEvent_of_effect {e : Event} {s s' : State} (he : enabled e s = true) (h : Effect e s s')
    (hne : e ≠ .dispatch) : runEvent e s = .next s' := by
  rw [runEvent_enabled he]
  cases h with
  | rxStored s b l x hl hx hi hr hf =>
    simp only [fire, rxByte_store hl hx]
    rcases storeByte_cases (s := { s with linkRx := l }) b hr with ⟨_, h⟩ | ⟨h1, h2, _⟩
    · rw [h]; rfl
    · exfalso
      have h2' : s.rxLen.toNat + 1 = s.cfg.frameCap := h2
      rcases hf with hf | hf
      · exact h1 hf
      · omega
  | rxOverflow s b l x hl hx hi hr hf =>
    have hlt : s.rxLen.toNat < s.cfg.frameCap := by omega
    simp only [fire, rxByte_store hl hx]
    rcases storeByte_cases (s := { s with linkRx := l }) b hlt with ⟨h1, _⟩ | ⟨h1, h2, h⟩
    · exfalso
      rcases h1 with h1 | h1
      · exact hr h1
      · have h1' : s.rxLen.toNat + 1 < s.cfg.frameCap := h1
        omega
    · rw [h]; rfl
  | rxDecoded s f i hc hb hd hr => simp only [fire, rxFrame, hb, hd]; rfl
  | rxRejected s f i hc hb hd => simp only [fire, rxFrame, hb, hd]; rfl
  | rxExpired s x h1 h2 h3 => simp only [fire, rxTimeout, h2]; rfl
  | armFailed s r st h1 hr =>
    rcases hr with ⟨rfl, rfl⟩ | ⟨rfl, rfl⟩ <;> simp only [fire, armResult, armFailure_eq]
  | tickFirstVce s ic c g w u ht hc h0 hk hg hw hu =>
    simp only [fire]
    rw [tick_first hc h0 (openCapture_vce (g := g) (by simp [hk]) (by simp [hg])) (by simpa using h0), captures_eq,
      captures_eq, captured_emitDac, hw, hu]
    simp [outcome, State.captured]
  | tickFirstVbe s ic c w u ht hc h0 hk hw hu =>
    simp only [fire]
    rw [tick_first hc h0 (openCapture_vbe (by simp [hk])) (by simpa using h0), captures_eq, captures_eq,
      captured_emitDac, hw, hu]
    simp [outcome, State.captured]
  | tickMiddle s ic c w ht hc h1 h2 hw =>
    simp only [fire]
    rw [tick_middle ic hc (by intro h; simp [h] at h1) (by omega), captures_eq, captured_emitDac, hw]
    simp [outcome]
  | tickLastVce s ic c w ht hc h2 hk hw =>
    simp only [fire]
    rw [tick_last ic hc h2, closeCapture_last, hw]; simp only [hk, outcome]
  | tickLastVbe s ic c w ht hc h2 hk hw =>
    simp only [fire]
    rw [tick_last ic hc h2, closeCapture_last, hw]; simp only [hk, outcome]
  | txBegun s k q h1 h2 h3 => simp only [fire, txBegin, h3, exec_request]; rfl
  | txByteSent s b l h1 h2 => simp only [fire, txByte, h2]
  | hbMissed s h1 h2 h3 =>
    rcases hbTimeout_cases s with ⟨_, h⟩ | ⟨h4, _⟩
    · simp only [fire, h]
    · omega
  | hbLost s h1 h2 h3 =>
    rcases hbTimeout_cases s with ⟨h4, h⟩ | ⟨h4, h⟩
    · omega
    · simp only [fire, h]
  | commandDropped => exact absurd rfl hne
  | commandAck => exact absurd rfl hne
  | commandArgError => exact absurd rfl hne
  | commandVce => exact absurd rfl hne
  | commandVbe => exact absurd rfl hne
  | armVce => exact absurd rfl hne
  | armVbe => exact absurd rfl hne
  | _ => rfl

end Sys2Proof.Machine
end

