-- ==== Sys2Proof/Laws/PerInstr.lean ====
section
/-! SUPPORT. One lemma per instruction: its encoding has the wire format of its direction, with the declared length of its
body or payload (`spec/30_encoding.md` R71, R72). -/

namespace Sys2Proof.Laws.EncodeForm

open Sys2Proof Sys2Proof.Config

/-- The frame of an instruction in every configuration: header, declared length, separator, as many bytes as declared,
terminator; an inbound body is not empty. -/
def Statement (i : Instr) : Prop :=
  ∀ g : GivenParams, ∃ d p : List Byte, isNumber d = true ∧ parseDec d = p.length ∧
    (Machine.isInbound i = true ∧ p ≠ [] ∧ encode g i = g.hdrIn ++ d ++ [g.sep] ++ p ++ [g.termIn] ∨
     Machine.isInbound i = false ∧ encode g i = g.hdrOut ++ d ++ [g.sep] ++ p ++ g.termOut)

theorem of_inbound {i : Instr} {cmd : Byte} {arg : List Byte} (hi : Machine.isInbound i = true)
    (he : ∀ g, encode g i = inboundFrame g cmd arg) : Statement i :=
  fun g => ⟨dec (arg.length + 1), cmd :: arg, isNumber_dec _, by simp, .inl ⟨hi, by simp, he g⟩⟩

theorem of_outbound {i : Instr} {p : GivenParams → List Byte} (hi : Machine.isInbound i = false)
    (he : ∀ g, encode g i = encodeFrame g (p g)) : Statement i :=
  fun g => ⟨dec (p g).length, p g, isNumber_dec _, by simp, .inr ⟨hi, he g⟩⟩

theorem hbAck (arg : List Byte) : Statement (.hbAck arg) := of_inbound rfl fun _ => rfl
theorem loadVce (arg : List Byte) : Statement (.loadVce arg) := of_inbound rfl fun _ => rfl
theorem loadVbe (arg : List Byte) : Statement (.loadVbe arg) := of_inbound rfl fun _ => rfl
theorem start (arg : List Byte) : Statement (.start arg) := of_inbound rfl fun _ => rfl
theorem unrecognized (cmd : Byte) (arg : List Byte) : Statement (.unrecognized cmd arg) := of_inbound rfl fun _ => rfl
theorem txHeartbeat : Statement .txHeartbeat := of_outbound rfl fun _ => rfl
theorem txStatusOk : Statement .txStatusOk := of_outbound rfl fun _ => rfl
theorem txStatusErrorGeneric : Statement .txStatusErrorGeneric := of_outbound rfl fun _ => rfl
theorem txStatusTransmit : Statement .txStatusTransmit := of_outbound rfl fun _ => rfl
theorem txStatusReceive : Statement .txStatusReceive := of_outbound rfl fun _ => rfl
theorem txStatusTimeout : Statement .txStatusTimeout := of_outbound rfl fun _ => rfl
theorem txStatusOverflow : Statement .txStatusOverflow := of_outbound rfl fun _ => rfl
theorem txStatusErrorReceive : Statement .txStatusErrorReceive := of_outbound rfl fun _ => rfl
theorem txStatusDisconnect : Statement .txStatusDisconnect := of_outbound rfl fun _ => rfl
theorem txSweepVce (samples : List Sample) : Statement (.txSweepVce samples) := of_outbound rfl fun _ => rfl
theorem txSweepVbe (samples : List Sample) : Statement (.txSweepVbe samples) := of_outbound rfl fun _ => rfl
theorem txText (text : List Byte) : Statement (.txText text) := of_outbound rfl fun _ => rfl

end Sys2Proof.Laws.EncodeForm
end

