-- ==== Sys2Proof/Laws/Runs.lean ====
section
/-! SUPPORT. Runs: an event does the same whatever the rest of the schedule is, so that a finite part of a run is what the
machine does with its events scheduled; and what weak fairness gives of a condition that only one duty ends. -/

namespace Sys2Proof.Machine

open Config

/-! ### The schedule -/

/-- ARM does not read the schedule. -/
theorem arm_sched (s : State) (l : List Event) : State.arm { s with sched := l } = { s.arm with sched := l } := by
  obtain ⟨⟩ := s
  simp only [arm_eq]
  split <;> simp only [State.emitDac_eq]

/-- A command does not read the schedule. -/
theorem exec_command_sched (i : Instruction) {s s' : State} (l : List Event) (h : exec (commandInstr i) s = .next s') :
    exec (commandInstr i) { s with sched := l } = .next { s' with sched := l } := by
  have ha : State.acceptsSweep { s with sched := l } = s.acceptsSweep := rfl
  simp only [commandInstr] at h ⊢
  by_cases h0 : i.cmd = 0x30
  · rw [if_pos h0] at h ⊢; cases h; rfl
  rw [if_neg h0] at h ⊢
  by_cases h1 : i.cmd = 0x61
  · rw [if_pos h1] at h ⊢
    simp only [exec, execLoadVce, ha] at h ⊢
    split at h
    · rw [if_pos (by assumption)]
      cases hp : parseVceArg s.cfg.argDelim s.cfg.ampMax s.cfg.gainCount i.arg with
      | none => simp only [hp] at h ⊢; cases h; rfl
      | some x => simp only [hp] at h ⊢; cases h; rfl
    · rw [if_neg (by assumption)]; cases h; rfl
  rw [if_neg h1] at h ⊢
  by_cases h2 : i.cmd = 0x62
  · rw [if_pos h2] at h ⊢
    simp only [exec, execLoadVbe, ha] at h ⊢
    split at h
    · rw [if_pos (by assumption)]; cases h; rfl
    · rw [if_neg (by assumption)]; cases h; rfl
  rw [if_neg h2] at h ⊢
  by_cases h3 : i.cmd = 0x63
  · rw [if_pos h3] at h ⊢
    simp only [exec, execStart, ha] at h ⊢
    split at h
    · rw [if_pos (by assumption)]
      cases h
      rw [arm_sched]
    · rw [if_neg (by assumption)]; cases h; rfl
  · rw [if_neg h3] at h ⊢; cases h; rfl

/-- An effect does not read the schedule. -/
theorem Effect.sched {e : Event} {s s' : State} (h : Effect e s s') (l : List Event) (hne : e ≠ .dispatch) :
    Effect e { s with sched := l } { s' with sched := l } := by
  have ha : State.activeCh { s with sched := l } = s.activeCh := rfl
  cases h with
  | linkRx => exact .linkRx _ { s with sched := l }
  | rxStored s b k x h1 h2 h3 h4 h5 => exact .rxStored { s with sched := l } b k x h1 h2 h3 h4 h5
  | rxOverflow s b k x h1 h2 h3 h4 h5 => exact .rxOverflow { s with sched := l } b k x h1 h2 h3 h4 h5
  | rxDecoded s f i h1 h2 h3 h4 => exact .rxDecoded { s with sched := l } f i h1 h2 h3 h4
  | rxRejected s f i h1 h2 h3 => exact .rxRejected { s with sched := l } f i h1 h2 h3
  | rxExpired s x h1 h2 h3 => exact .rxExpired { s with sched := l } x h1 h2 h3
  | commandDropped => exact absurd rfl hne
  | commandAck => exact absurd rfl hne
  | commandArgError => exact absurd rfl hne
  | commandVce => exact absurd rfl hne
  | commandVbe => exact absurd rfl hne
  | armVce => exact absurd rfl hne
  | armVbe => exact absurd rfl hne
  | armReady s h1 => exact .armReady { s with sched := l } h1
  | armFailed s r st h1 h2 =>
    simpa only [State.emitDac_eq, ha] using Effect.armFailed { s with sched := l } r st h1 h2
  | tickFirstVce s ic c g w u h1 h2 h3 h4 h5 h6 h7 =>
    simpa only [State.emitDac_eq, ha] using Effect.tickFirstVce { s with sched := l } ic c g w u h1 h2 h3 h4 h5 h6 h7
  | tickFirstVbe s ic c w u h1 h2 h3 h4 h5 h6 =>
    simpa only [State.emitDac_eq, ha] using Effect.tickFirstVbe { s with sched := l } ic c w u h1 h2 h3 h4 h5 h6
  | tickMiddle s ic c w h1 h2 h3 h4 h5 =>
    simpa only [State.emitDac_eq, ha] using Effect.tickMiddle { s with sched := l } ic c w h1 h2 h3 h4 h5
  | tickLastVce s ic c w h1 h2 h3 h4 h5 =>
    simpa only [State.emitDac_eq, ha] using Effect.tickLastVce { s with sched := l } ic c w h1 h2 h3 h4 h5
  | tickLastVbe s ic c w h1 h2 h3 h4 h5 =>
    simpa only [State.emitDac_eq, ha] using Effect.tickLastVbe { s with sched := l } ic c w h1 h2 h3 h4 h5
  | capWrite s v h1 h2 h3 => exact .capWrite { s with sched := l } v h1 h2 h3
  | drained s h1 h2 => exact .drained { s with sched := l } h1 h2
  | txBegun s k q h1 h2 h3 => exact .txBegun { s with sched := l } k q h1 h2 h3
  | txByteSent s b k h1 h2 => exact .txByteSent { s with sched := l } b k h1 h2
  | txFinished s h1 h2 => exact .txFinished { s with sched := l } h1 h2
  | hbSent s h1 => exact .hbSent { s with sched := l } h1
  | hbTaken s h1 h2 => exact .hbTaken { s with sched := l } h1 h2
  | hbMissed s h1 h2 h3 => exact .hbMissed { s with sched := l } h1 h2 h3
  | hbLost s h1 h2 h3 => exact .hbLost { s with sched := l } h1 h2 h3
  | textReq s t => exact .textReq { s with sched := l } t
  | statusReq s ev => exact .statusReq { s with sched := l } ev
  | infoPosted s ev h1 h2 => exact .infoPosted { s with sched := l } ev h1 h2
  | rst s => exact .rst { s with sched := l }

theorem enabled_sched (e : Event) (s : State) (l : List Event) : enabled e { s with sched := l } = enabled e s := by
  cases e <;> rfl

/-- An event does the same, whatever else is scheduled. -/
theorem runEvent_sched {e : Event} {s s' : State} (l : List Event) (h : runEvent e s = .next s') :
    runEvent e { s with sched := l } = .next { s' with sched := l } := by
  rcases runEvent_effect h with ⟨hd, rfl⟩ | ⟨he, hE⟩
  · exact runEvent_disabled (by rw [enabled_sched, hd])
  by_cases hdi : e = .dispatch
  · subst hdi
    rw [runEvent_enabled he] at h
    rw [runEvent_enabled (by rw [enabled_sched, he])]
    simp only [fire, dispatch] at h ⊢
    cases hq : s.iq with
    | nil => simp only [hq] at h ⊢; cases h; rw [hq]
    | cons i q => simp only [hq] at h ⊢; exact exec_command_sched i l h
  · exact runEvent_of_effect (by rw [enabled_sched, he]) (hE.sched l hdi) hdi

/-! ### What a fair run does -/

/-- A run keeps what every event keeps. -/
theorem Run.keeps {st : Nat → State} {ev : Nat → Event} {P : State → Prop} (h : Run st ev)
    (hk : ∀ s s' e, P s → runEvent e s = .next s' → P s') {n m : Nat} (hnm : n ≤ m) (hn : P (st n)) : P (st m) := by
  induction m, hnm using Nat.le_induction with
  | base => exact hn
  | succ m _ ih => exact hk _ _ _ ih (h m)

/-- A condition that makes a duty ready, and that lasts until an event of a stopping kind, meets such an event in a fair run,
where the events that do the duty are of that kind. -/
theorem WeaklyFair.stops {st : Nat → State} {ev : Nat → Event} {d : Duty} {P : Nat → Prop} {stop : Event → Prop} {n : Nat}
    (hf : WeaklyFair d st ev) (hn : P n) (hready : ∀ m, n ≤ m → P m → d.ready (st m))
    (hdone : ∀ e, d.doneBy e = true → stop e) (hlast : ∀ m, n ≤ m → P m → ¬ stop (ev m) → P (m + 1)) :
    ∃ m, n ≤ m ∧ stop (ev m) ∧ P m := by
  by_contra hno
  have hall : ∀ m, n ≤ m → P m := by
    intro m hm
    induction m, hm using Nat.le_induction with
    | base => exact hn
    | succ m hm ih => exact hlast m hm ih (fun hs => hno ⟨m, hm, hs, ih⟩)
  obtain ⟨m, hm, hd, -⟩ := hf n (fun m hm => hready m hm (hall m hm))
  exact hno ⟨m, hm, hdone _ hd, hall m hm⟩

end Sys2Proof.Machine
end

