-- ==== Sys2Proof/Tests/Slice0.lean ====
section
/-! SUPPORT. Tests of single steps against the vectors of `spec/95_test_vectors.md` (their ids are in the comments) and the
`example_hex` of `spec/opcode_table.json`; the smoke test of the operand checks; and, for each statement with hypotheses,
a state and operands that meet them. -/

namespace Sys2Proof.Tests

open Sys2Proof Sys2Proof.Machine Sys2Proof.Config

/-! ### The test configuration CFG-T and views of a result -/

def cfgT : Params := { capLen := 4, vbeTargetMv := 800, gainTable := [10, 20, 30, 40], iqDepth := 4 }

def s0 : State := State.resetWith cfgT

/-- A field of the next state; `none` for a fault or a refusal. -/
def see {α : Type} (o : Host.Outcome State Fault Refusal) (f : State → α) : Option α :=
  match o with
  | .next s => some (f s)
  | .fault _ => none
  | .refused _ => none

/-- A loaded VCE request of amplitude `a`, gain index 2. -/
def vce (a : Nat) : State := s0.loadVce a 2 100

/-- A loaded VBE request. -/
def vbe : State := { s0 with reqKind := .vbe, ramp := Mem.fill (rampTable given 800), reqValid := true }

/-- Inside a sweep of the request of `s`, before tick `k`. -/
def running (k : BitVec 8) (s : State) : State :=
  { s with
    sweepState := .running, timerRun := true, ampEn := true, stepIndex := k,
    dmaArmed := k != 0, adcRun := k != 0 }

/-- The ASCII bytes of digits and of `-`, for the vectors of the `a` argument. -/
def ascii (s : String) : List Byte := s.toList.map (fun c => BitVec.ofNat 8 c.toNat)

/-- CFG-T with other values of the parameters of `spec/93_implementation_defined.md`: `Ok` is spelled `OK`, the half 409.5 is
rounded down, an idle Link times out, and the block posts `Ok`, `Transmit` and `Receive`. -/
def cfgU : Params :=
  { capLen := 4, vbeTargetMv := 800, gainTable := [10, 20, 30, 40], iqDepth := 4, names := { ok := [0x4F, 0x4B] },
    halvesDown := [409], idleTimeout := true, infoPosts := true }

def u0 : State := State.resetWith cfgU

/-! ### Decoding: the frames of the opcode table, written out -/

theorem test_decode_hbAck : decode given
    [0x51, 0x54, 0x3A, 0x31, 0x3B, 0x30, 0x2E]
    = .ok (.hbAck []) := by decide
theorem test_decode_loadVce : decode given
    [0x51, 0x54, 0x3A, 0x39, 0x3B, 0x61, 0x35, 0x30, 0x2D, 0x32, 0x2D, 0x31, 0x30, 0x30, 0x2E]
    = .ok (.loadVce [0x35, 0x30, 0x2D, 0x32, 0x2D, 0x31, 0x30, 0x30]) := by decide
theorem test_decode_loadVbe : decode given
    [0x51, 0x54, 0x3A, 0x31, 0x3B, 0x62, 0x2E]
    = .ok (.loadVbe []) := by decide
theorem test_decode_start : decode given
    [0x51, 0x54, 0x3A, 0x31, 0x3B, 0x63, 0x2E]
    = .ok (.start []) := by decide
theorem test_decode_unrecognized : decode given
    [0x51, 0x54, 0x3A, 0x31, 0x3B, 0x5A, 0x2E]
    = .ok (.unrecognized 0x5A []) := by decide
theorem test_decode_txHeartbeat : decode given
    [0x52, 0x50, 0x3A, 0x33, 0x3B, 0x63, 0x2C, 0x30, 0x65, 0x6E, 0x64]
    = .ok .txHeartbeat := by decide
theorem test_decode_txStatusOk : decode given
    [0x52, 0x50, 0x3A, 0x34, 0x3B, 0x63, 0x2C, 0x4F, 0x6B, 0x65, 0x6E, 0x64]
    = .ok .txStatusOk := by decide
theorem test_decode_txStatusErrorGeneric : decode given
    ([0x52, 0x50, 0x3A, 0x31, 0x34, 0x3B, 0x63, 0x2C, 0x45, 0x72, 0x72, 0x6F]
      ++ [0x72, 0x47, 0x65, 0x6E, 0x65, 0x72, 0x69, 0x63, 0x65, 0x6E, 0x64])
    = .ok .txStatusErrorGeneric := by decide
theorem test_decode_txStatusTransmit : decode given
    ([0x52, 0x50, 0x3A, 0x31, 0x30, 0x3B, 0x63, 0x2C, 0x54, 0x72, 0x61, 0x6E]
      ++ [0x73, 0x6D, 0x69, 0x74, 0x65, 0x6E, 0x64])
    = .ok .txStatusTransmit := by decide
theorem test_decode_txStatusReceive : decode given
    [0x52, 0x50, 0x3A, 0x39, 0x3B, 0x63, 0x2C, 0x52, 0x65, 0x63, 0x65, 0x69, 0x76, 0x65, 0x65, 0x6E, 0x64]
    = .ok .txStatusReceive := by decide
theorem test_decode_txStatusTimeout : decode given
    [0x52, 0x50, 0x3A, 0x39, 0x3B, 0x63, 0x2C, 0x54, 0x69, 0x6D, 0x65, 0x6F, 0x75, 0x74, 0x65, 0x6E, 0x64]
    = .ok .txStatusTimeout := by decide
theorem test_decode_txStatusOverflow : decode given
    ([0x52, 0x50, 0x3A, 0x31, 0x30, 0x3B, 0x63, 0x2C, 0x4F, 0x76, 0x65, 0x72]
      ++ [0x66, 0x6C, 0x6F, 0x77, 0x65, 0x6E, 0x64])
    = .ok .txStatusOverflow := by decide
theorem test_decode_txStatusErrorReceive : decode given
    ([0x52, 0x50, 0x3A, 0x31, 0x34, 0x3B, 0x63, 0x2C, 0x45, 0x72, 0x72, 0x6F]
      ++ [0x72, 0x52, 0x65, 0x63, 0x65, 0x69, 0x76, 0x65, 0x65, 0x6E, 0x64])
    = .ok .txStatusErrorReceive := by decide
theorem test_decode_txStatusDisconnect : decode given
    ([0x52, 0x50, 0x3A, 0x31, 0x32, 0x3B, 0x63, 0x2C, 0x44, 0x69, 0x73, 0x63]
      ++ [0x6F, 0x6E, 0x6E, 0x65, 0x63, 0x74, 0x65, 0x6E, 0x64])
    = .ok .txStatusDisconnect := by decide
theorem test_decode_txSweepVce : decode given
    [0x52, 0x50, 0x3A, 0x37, 0x3B, 0x65, 0xAB, 0xC1, 0x23, 0xFF, 0xF0, 0x00, 0x65, 0x6E, 0x64]
    = .ok (.txSweepVce [0x0ABC, 0x0123, 0x0FFF, 0]) := by decide
theorem test_decode_txSweepVbe : decode given
    [0x52, 0x50, 0x3A, 0x34, 0x3B, 0x66, 0x65, 0x6E, 0x64, 0x65, 0x6E, 0x64]
    = .ok (.txSweepVbe [0x0656, 0x0E64]) := by decide
theorem test_decode_txText : decode given
    [0x52, 0x50, 0x3A, 0x35, 0x3B, 0x68, 0x65, 0x6C, 0x6C, 0x6F, 0x65, 0x6E, 0x64]
    = .ok (.txText [0x68, 0x65, 0x6C, 0x6C, 0x6F]) := by decide

/-! ### DECODE, vectors D -/

theorem test_d07_leading_zero :
    decodeFrame given [0x51, 0x54, 0x3A, 0x30, 0x32, 0x3B, 0x61, 0x31, 0x2E] = .ok ⟨0x61, [0x31]⟩ := by decide
theorem test_d09_empty_body : decodeFrame given [0x51, 0x54, 0x3A, 0x30, 0x3B, 0x2E] = .error .emptyBody := by decide
theorem test_d10_length_before_body :
    decodeFrame given [0x51, 0x54, 0x3A, 0x31, 0x3B, 0x2E] = .error .lengthMismatch := by decide
theorem test_d16_empty : decodeFrame given [] = .error .badHeader := by decide
theorem test_d19_no_digits : decodeFrame given [0x51, 0x54, 0x3A, 0x3B, 0x61, 0x2E] = .error .badLength := by decide
theorem test_d25_unterminated :
    decodeFrame given [0x51, 0x54, 0x3A, 0x32, 0x3B, 0x61, 0x31] = .error .unterminated := by decide
theorem test_d27_longest :
    decodeFrame given
    (ascii "QT:41;a" ++ List.replicate 40 0x31 ++ [0x2E]) = .ok ⟨0x61, List.replicate 40 0x31⟩ := by decide +kernel
theorem test_d28_arg_too_long :
    decodeFrame given
    (ascii "QT:42;a" ++ List.replicate 41 0x31 ++ [0x2E]) = .error .argTooLong := by decide +kernel
theorem test_d30_separator_in_body :
    decodeFrame given [0x51, 0x54, 0x3A, 0x32, 0x3B, 0x3B, 0x3B, 0x2E] = .ok ⟨0x3B, [0x3B]⟩ := by decide
theorem test_d35_huge_length :
    decodeFrame given (ascii "QT:99999999999999999999;a.") = .error .lengthMismatch := by decide +kernel

/-- The characters are the configuration's: with others, `AB#2*a1` and a carriage return is the frame. -/
theorem test_other_decode :
    decodeFrame { given with hdrIn := [0x41, 0x42, 0x23], sep := 0x2A, termIn := 0x0D }
      [0x41, 0x42, 0x23, 0x32, 0x2A, 0x61, 0x31, 0x0D] = .ok ⟨0x61, [0x31]⟩ := by decide
theorem test_other_encode :
    encodeFrame { given with hdrOut := [0x3E], sep := 0x2A, termOut := [0x0D, 0x0A] } [0x63, 0x2C, 0x30]
    = [0x3E, 0x33, 0x2A, 0x63, 0x2C, 0x30, 0x0D, 0x0A] := by decide

/-! ### Opcode-table words, and the step that runs them first after reset -/

theorem test_word_hbAck : decodeTableWord 8 0x30 = some (.hbAck []) := by decide
theorem test_word_loadVbe : decodeTableWord 8 0x62 = some (.loadVbe []) := by decide
theorem test_word_start : decodeTableWord 8 0x63 = some (.start []) := by decide
theorem test_word_unrecognized : decodeTableWord 8 0 = some (.unrecognized 0 []) := by decide
theorem test_word_sweepVce : decodeTableWord 8 0x65 = some (.txSweepVce [0, 0]) := by decide
/-- A longer word is the whole frame, its first byte in bits 7..0. -/
theorem test_word_whole_frame : decodeTableWord 88 0x646E65302C633B333A5052 = some .txHeartbeat := by decide
/-- `PP:0;end` is no frame of either direction. -/
theorem test_word_none : decodeTableWord 64 0x646E653B303A5050 = none := by decide
theorem test_fetch_hbAck : see (step (State.reset.withFetchWord 8 0x30)) (·.hbAck) = some true := by decide
theorem test_fetch_loadVbe : see (step (State.reset.withFetchWord 8 0x62)) (·.reqValid) = some true := by decide
theorem test_fetch_text :
    see (step (State.reset.withFetchWord 104 0x646E656F6C6C65683B353A5052)) (·.txCur)
    = some (some (.text [0x68, 0x65, 0x6C, 0x6C, 0x6F])) := by decide
theorem test_fetch_sweepVce :
    see (step (State.reset.withFetchWord 8 0x65)) (fun s => (s.txCur, s.txRest.length))
    = some (some .sweep, 12) := by decide
theorem test_fetch_sweepVbe :
    see (step (State.reset.withFetchWord 8 0x66)) (fun s => s.txRest)
    = some [0x52, 0x50, 0x3A, 0x34, 0x3B, 0x66, 0x00, 0x00, 0x00, 0x65, 0x6E, 0x64] := by decide

/-! ### Operand checks: an ill-formed term for each is refused -/

theorem test_wf_arg_length : wellFormed given (.hbAck (List.replicate 41 0)) = false := by decide
theorem test_wf_arg_terminator : wellFormed given (.start [0x2E]) = false := by decide
theorem test_wf_loadVce : wellFormed given (.loadVce [0x31, 0x2E]) = false := by decide
theorem test_wf_loadVbe : wellFormed given (.loadVbe (List.replicate 41 0x31)) = false := by decide
theorem test_wf_recognized : wellFormed given (.unrecognized 0x61 []) = false := by decide
theorem test_wf_cmd_terminator : wellFormed given (.unrecognized 0x2E []) = false := by decide
theorem test_wf_samples_odd : wellFormed given (.txSweepVce [1, 2, 3]) = false := by decide
theorem test_wf_samples_none : wellFormed given (.txSweepVbe []) = false := by decide
theorem test_wf_sample_wide : wellFormed given (.txSweepVbe [0x1000, 0]) = false := by decide
theorem test_wf_text_heartbeat : wellFormed given (.txText [0x63, 0x2C, 0x30]) = false := by decide
theorem test_wf_text_status : wellFormed given (.txText [0x63, 0x2C, 0x4F, 0x6B]) = false := by decide
theorem test_wf_text_sweep : wellFormed given (.txText [0x66, 1, 2, 3]) = false := by decide

theorem test_readable : readable { given with sep := 0x30 } = false ∧ readable { given with hdrOut := [0x51, 0x54, 0x3A, 0x31] } = false ∧
    readable { given with hdrOut := [] } = false := by decide
theorem test_readable_names : readable { given with names := { ok := [0x30] } } = false ∧
    readable { given with names := { ok := given.names.disconnect } } = false ∧
    readable { given with names := { receive := [0x54, 0x69, 0x6D, 0x65, 0x6F, 0x75, 0x74] } } = false := by decide

/-! ### Illegal configurations are refused, by the constraint they break (U19) -/

def raw : RawParams :=
  { capLen := 4, vbeTargetMv := 5000, gainTable := [10], relayVce := 0, relayVbe := 1, gswVce := 0, gswVbe := 1,
    iqDepth := 1 }

/-- The name of the broken constraint, if one is. -/
def refusal (r : RawParams) : Option ConfigError :=
  match Params.ofRaw r with
  | .ok _ => none
  | .error e => some e

theorem test_config_given : given.rampLen = 201 ∧ given.rampSteps = 200 ∧ given.ampMax = 50 := by decide
theorem test_config_legal : refusal raw = none := by decide +kernel
/-- Every parameter with a value may have another legal one. -/
theorem test_config_other : refusal { raw with
    frameCap := 63, argCap := 55, sweepUs := 2540, stepUs := 10, dacMax := 1023, vfsMv := 6399, gainOff := 0, chVce := 1,
    chVbe := 0, hbMissN := 3 } = none := by decide +kernel
theorem test_config_refused :
    [{ raw with frameCap := 6, argCap := 0 }, { raw with argCap := 43 }, { raw with stepUs := 0 },
      { raw with sweepUs := 40001 }, { raw with sweepUs := 51000 }, { raw with capLen := 3 }, { raw with capLen := 0 },
      { raw with vbeTargetMv := 5001 }, { raw with gainTable := [] },
      { raw with gainTable := List.replicate 257 0 }, { raw with gainTable := [0, 256] }, { raw with gainOff := 256 },
      { raw with chVbe := 2 }, { raw with relayVce := 2 }, { raw with iqDepth := 0 }, { raw with hbMissN := 0 }].map refusal
    = [some .frameCap, some .argCap, some .sweepUs, some .sweepUs, some .rampLen, some .capLen, some .capLen,
      some .vbeTarget, some .gainCount, some .gainCount, some .gainValue, some .gainOff, some .channel, some .oneBit,
      some .iqDepth, some .hbMissN] := by decide +kernel
/-- The characters of the wire format: `HDR_IN` has three bytes (R4), and each is a byte. -/
theorem test_config_wire :
    [{ raw with hdrIn := [0x51, 0x54] }, { raw with hdrIn := [0x51, 0x54, 0x3A, 0x3A] },
      { raw with hdrIn := [0x51, 0x54, 256] }, { raw with sep := 256 }, { raw with termIn := 256 },
      { raw with hdrOut := [256] }, { raw with termOut := [0, 256] }, { raw with argDelim := 256 },
      { raw with hdrIn := [0, 255, 0x51], sep := 0, termIn := 255, hdrOut := [], termOut := [0x0A], argDelim := 0x2C }].map refusal
    = [some .hdrIn, some .hdrIn, some .byteValue, some .byteValue, some .byteValue, some .byteValue, some .byteValue,
      some .byteValue, none] := by decide +kernel
/-- The constraints of log 30. -/
theorem test_config_widths :
    [{ raw with frameCap := 64 }, { raw with sweepUs := 0 }, { raw with dacMax := 4096 },
      { raw with vfsMv := 0, vbeTargetMv := 0 }, { raw with vfsMv := 6400 }].map refusal
    = [some .frameCapWidth, some .rampSteps, some .dacMaxWidth, some .vfsMv, some .ampMaxWidth] := by decide +kernel

/-! ### Packing and planning, vectors K and T -/

theorem test_k01 : pack [0x0ABC, 0x0123] = [0xAB, 0xC1, 0x23] := by decide
theorem test_k04 : pack [0x1234, 0x0FED] = [0x23, 0x4F, 0xED] := by decide
theorem test_t50 :
    [7, 20, 99, 100, 101, 199].map (fun i => (rampTable given 5000)[i]?)
    = [some 143, some 410, some 2027, some 2048, some 2068, some 4075] := by decide +kernel
theorem test_half_down : rampCode cfgU.toGivenParams 5000 20 = 409 ∧ rampCode cfgU.toGivenParams 5000 60 = 1229 ∧
    rampCode given 5000 20 = 410 := by decide
theorem test_v800 :
    [1, 2, 3, 100, 199, 200].map (fun i => (rampTable given 800)[i]?)
    = [some 3, some 7, some 10, some 328, some 652, some 655] := by decide +kernel

/-! ### The `a` argument, vectors A -/

theorem test_a01 : parseVceArg 0x2D 50 4 (ascii "50-2-100") = some (50, 2, 100) := by decide +kernel
theorem test_a03 : parseVceArg 0x2D 50 4 (ascii "050-002-100") = some (50, 2, 100) := by decide +kernel
theorem test_a04 : parseVceArg 0x2D 50 4 (ascii "50-3-255") = some (50, 3, 255) := by decide +kernel
theorem test_a05 : parseVceArg 0x2D 50 4 (ascii "50-2") = none := by decide +kernel
theorem test_a07 : parseVceArg 0x2D 50 4 (ascii "50-2-100-") = none := by decide +kernel
theorem test_a09 : parseVceArg 0x2D 50 4 (ascii "50--100") = none := by decide +kernel
theorem test_a10 : parseVceArg 0x2D 50 4 (ascii "-2-100") = none := by decide +kernel
theorem test_a12 : parseVceArg 0x2D 50 4 (ascii "+5-2-100") = none := by decide +kernel
theorem test_a13 : parseVceArg 0x2D 50 4 (ascii "51-0-0") = none := by decide +kernel
theorem test_a14 : parseVceArg 0x2D 50 4 (ascii "50-4-0") = none := by decide +kernel
theorem test_a_other_delimiter : parseVceArg 0x2C 50 4 (ascii "50,2,100") = some (50, 2, 100) := by decide +kernel
theorem test_a15 : parseVceArg 0x2D 50 4 (ascii "50-0-256") = none := by decide +kernel

/-! ### Commands, vectors A and C -/

/-- A-01 -/
theorem test_loadVce :
    see (exec (.loadVce (ascii "50-2-100")) s0)
    (fun s => (s.reqAmp, s.reqGain, s.reqSamples, s.reqValid, Mem.read s.ramp 7))
    = some (50, 2, 100, true, some 143) := by decide +kernel
/-- A-14: the request loaded earlier stays valid. -/
theorem test_loadVce_error :
    see (exec (.loadVce (ascii "50-4-0")) (vce 10)) (fun s => (s.statusOut, s.reqAmp, s.reqValid))
    = some ([.errorReceive], 10, true) := by decide +kernel
/-- C-13 -/
theorem test_loadVbe_keeps :
    see (exec (.loadVbe []) (vce 10)) (fun s => (s.reqKind, s.reqAmp, s.reqGain, s.reqSamples))
    = some (.vbe, 10, 2, 100) := by decide +kernel
/-- C-01 -/
theorem test_hbAck :
    see (exec (.hbAck []) { s0 with connected := false }) (fun s => (s.hbAck, s.connected))
    = some (true, true) := by decide
/-- F-02 -/
theorem test_start_vbe :
    see (exec (.start []) vbe) (fun s => (s.sweepState, s.ampEn, s.ports))
    = some (.arming, true, [.dacWr .ch1 0]) := by decide +kernel
/-- C-06 -/
theorem test_start_running : see (exec (.start []) (running 5 (vce 50))) (·.stepIndex) = some 5 := by decide +kernel
/-- C-11 -/
theorem test_unrecognized : exec (.unrecognized 0x5A []) s0 = .next s0 := rfl

/-! ### The sweep, vectors F -/

theorem test_f03_first_tick :
    see (runEvent (.tick {}) (running 0 (vce 50)))
    (fun s => (s.stepIndex, s.gainVal, s.dmaWrIdx, s.ports))
    = some (1, 30, 0, [.dacWr .ch0 0, .dmaStop, .dmaDrain, .gainWr 30, .dmaArm 4, .adcStart]) := by decide +kernel
theorem test_f05_tick_7 :
    see (runEvent (.tick {}) (running 7 (vce 50))) (fun s => (s.stepIndex, s.dacCode0, s.ports))
    = some (8, 143, [.dacWr .ch0 143]) := by decide +kernel
theorem test_f07_last_tick :
    see (runEvent (.tick {}) (running 200 (vce 50)))
    (fun s => (s.stepIndex, s.done, s.timerRun, s.sweepState, s.ports))
    = some (201, true, false, .draining,
      [.dacWr .ch0 4095, .adcStop, .dmaDrain, .dacWr .ch0 0, .gainWr 255]) := by decide +kernel
theorem test_f12_first_tick_vbe :
    see (runEvent (.tick {}) (running 0 vbe)) (fun s => (s.dmaArmed, s.adcRun, s.gainVal))
    = some (true, true, 255) := by decide +kernel
theorem test_f13_last_tick_vbe :
    see (runEvent (.tick {}) (running 200 vbe)) (·.ports)
    = some [.dacWr .ch1 655, .adcStop, .dmaDrain, .dacWr .ch1 0] := by decide +kernel
/-- Captures inside a STEP (`spec/20_memory.md` R63): before tick 0's stop none while no capture runs, after its start from
position 0, and none beyond `CAP_LEN`. -/
theorem test_first_tick_captures :
    see (runEvent (.tick { afterCode := [9], afterStart := [1, 2], afterIndex := [3, 4, 5] }) (running 0 vbe))
    (fun s => (s.dmaWrIdx, s.cap, s.ports))
    = some (4, [(0, 1), (1, 2), (2, 3), (3, 4)],
      [.dacWr .ch1 0, .dmaStop, .dmaDrain, .dmaArm 4, .adcStart, .capWr 0 1, .capWr 1 2, .capWr 2 3, .capWr 3 4]) := by
  decide +kernel
/-- Inside the last STEP the captures fall between the last code and the stop. -/
theorem test_last_tick_captures :
    see (runEvent (.tick { afterCode := [7], afterStart := [9], afterIndex := [8] }) { running 200 vbe with dmaWrIdx := 1 })
    (fun s => (s.dmaWrIdx, s.cap, s.ports))
    = some (3, [(1, 7), (2, 8)],
      [.dacWr .ch1 655, .capWr 1 7, .capWr 2 8, .adcStop, .dmaDrain, .dacWr .ch1 0]) := by decide +kernel
theorem test_f10_hwFail :
    see (runEvent (.armResult .hwFail) { vce 0 with sweepState := .arming, ampEn := true })
    (fun s => (s.sweepState, s.ampEn, s.statusOut, s.ports))
    = some (.faulted, false, [.errorGeneric], [.dacWr .ch0 0]) := by decide +kernel
theorem test_f08_drain :
    see (runEvent .drain { s0 with sweepState := .draining, done := true }) (fun s => (s.sweepState, s.txq))
    = some (.complete, [.sweep]) := by decide
theorem test_f14_no_wrap :
    see (runEvent (.capWrite 1) { s0 with dmaArmed := true, adcRun := true, dmaWrIdx := 4 }) (fun s => (s.cap, s.ports))
    = some ([], []) := by decide
theorem test_f15_no_tick : see (runEvent (.tick {}) s0) (·.stepIndex) = some 0 := by decide

/-! ### Sweep frames, vectors W; the other outbound frames are those of the decode tests -/

theorem test_w01 :
    see (exec (.txSweepVce [0x0ABC, 0x0123, 0xFFFF, 0]) s0) (·.txRest)
    = some [0x52, 0x50, 0x3A, 0x37, 0x3B, 0x65, 0xAB, 0xC1, 0x23, 0xFF, 0xF0, 0x00, 0x65, 0x6E, 0x64] := by decide
theorem test_w02 :
    see (exec (.txSweepVbe [0x0010, 0x0020]) s0) (·.txRest)
    = some [0x52, 0x50, 0x3A, 0x34, 0x3B, 0x66, 0x01, 0x00, 0x20, 0x65, 0x6E, 0x64] := by decide
theorem test_e01_heartbeat :
    see (exec .txHeartbeat s0) (·.txRest)
    = some [0x52, 0x50, 0x3A, 0x33, 0x3B, 0x63, 0x2C, 0x30, 0x65, 0x6E, 0x64] := by decide
theorem test_e02_timeout :
    see (exec .txStatusTimeout s0) (·.txRest)
    = some [0x52, 0x50, 0x3A, 0x39, 0x3B, 0x63, 0x2C, 0x54, 0x69, 0x6D, 0x65, 0x6F, 0x75, 0x74, 0x65, 0x6E, 0x64] :=
  by decide
theorem test_e03_empty_text :
    see (exec (.txText []) s0) (·.txRest) = some [0x52, 0x50, 0x3A, 0x30, 0x3B, 0x65, 0x6E, 0x64] := by decide
theorem test_f09_txDone :
    see (runEvent .txDone { s0 with sweepState := .complete, txBusy := true, txCur := some .sweep })
    (fun s => (s.sweepState, s.txBusy)) = some (.idle, false) := by decide

/-! ### The receiver and the heartbeat, vectors R and H -/

theorem test_r05_overflow :
    see (runEvent .rxByte { s0 with linkRx := [0x78], rxLen := 49, rxBuf := [(48, 0x78)] })
    (fun s => (s.rxLen, s.statusOut)) = some (0, [.overflow]) := by decide
theorem test_r04_full_frame :
    see (runEvent .rxByte { s0 with linkRx := [0x2E], rxLen := 49, rxBuf := [(48, 0x78)] })
    (fun s => (s.rxLen, s.statusOut)) = some (50, []) := by decide
theorem test_other_terminator :
    see (runEvent .rxByte { State.resetWith { termIn := 0x0D } with linkRx := [0x2E], rxLen := 1, rxBuf := [(0, 0x0D)] })
    (fun s => (s.rxLen, s.linkRx)) = some (1, [0x2E]) := by decide
theorem test_r09_idle_line : see (runEvent .rxExpire s0) (·.statusOut) = some [] := by decide
theorem test_idle_timeout : see (runEvent .rxExpire u0) (·.statusOut) = some [.timeout] := by decide
theorem test_info_post : see (runEvent (.infoPost .transmit) u0) (·.statusOut) = some [.transmit] ∧
    see (runEvent (.infoPost .disconnect) u0) (·.statusOut) = some [] ∧
    see (runEvent (.infoPost .transmit) s0) (·.statusOut) = some [] := by decide
theorem test_other_name : see (exec .txStatusOk u0) (·.txRest)
      = some [0x52, 0x50, 0x3A, 0x34, 0x3B, 0x63, 0x2C, 0x4F, 0x4B, 0x65, 0x6E, 0x64] ∧
    decode cfgU.toGivenParams [0x52, 0x50, 0x3A, 0x34, 0x3B, 0x63, 0x2C, 0x4F, 0x4B, 0x65, 0x6E, 0x64] = .ok .txStatusOk ∧
    decode cfgU.toGivenParams [0x52, 0x50, 0x3A, 0x34, 0x3B, 0x63, 0x2C, 0x4F, 0x6B, 0x65, 0x6E, 0x64]
      = .ok (.txText [0x63, 0x2C, 0x4F, 0x6B]) := by decide
theorem test_r11_lone_terminator :
    see (runEvent .rxFrame { s0 with rxLen := 1, rxBuf := [(0, 0x2E)] }) (fun s => (s.rxLen, s.statusOut))
    = some (0, [.errorReceive]) := by decide
/-- The fault of a step, if it is one. -/
def faultOf (o : Host.Outcome State Fault Refusal) : Option Fault :=
  match o with
  | .next _ => none
  | .fault f => some f
  | .refused _ => none

/-- R9: an index at `FRAME_CAP` or above is outside `rx_buf`, whatever is listed there. -/
theorem test_rxFrame_outside :
    faultOf (runEvent .rxFrame { s0 with rxLen := 51, rxBuf := (Mem.fill (List.replicate 50 0x78)) ++ [(50, 0x2E)] })
    = some .rxBufIndex := by decide +kernel
theorem test_rxTimeout_outside :
    faultOf (runEvent .rxExpire { s0 with rxLen := 63, rxBuf := [(62, 0x78)] }) = some .rxBufIndex := by decide
/-- The channel of the kind is the configuration's. -/
theorem test_tick_other_channel :
    see (runEvent (.tick {}) { running 7 (vce 50) with
      cfg := { capLen := 4, vbeTargetMv := 800, gainTable := [10, 20, 30, 40], iqDepth := 4, chVce := .ch1 } })
    (fun s => (s.dacCode0, s.dacCode1, s.ports)) = some (0, 143, [.dacWr .ch1 143]) := by decide +kernel
theorem test_h05_second_miss :
    see (runEvent .hbExpire { State.resetWith { hbMissN := 3 } with hbMiss := 1, hbWaiting := true })
    (fun s => (s.hbMiss, s.connected, s.statusOut)) = some (2, true, []) := by decide
theorem test_h03_disconnect :
    see (runEvent .hbExpire { s0 with hbWaiting := true })
    (fun s => (s.hbMiss, s.connected, s.statusOut)) = some (0, false, [.disconnect]) := by decide

/-! ### Witnesses: states and operands that meet the hypotheses of the statements together

A statement whose hypotheses split into clauses has a witness per clause, at a boundary value where there is one. -/

/-- `s` with the events `l` next. -/
def sch (l : List Event) (s : State) : State := { s with sched := l }

/-- `s` with the bytes `f` in the receive buffer. -/
def held (f : List Byte) (s : State) : State := { s with rxBuf := Mem.fill f, rxLen := BitVec.ofNat 6 f.length }

/-- `s` with the command `c` at the head of the queue. -/
def queued (c : Byte) (s : State) : State := { s with iq := [⟨c, []⟩] }

theorem wit_DispatchRunsHeadOfQueue : (sch [.dispatch] (queued 0x30 s0)).sched = [.dispatch] ∧
    (sch [.dispatch] (queued 0x30 s0)).iq = [⟨0x30, []⟩] ∧ (sch [.dispatch] (queued 0x30 s0)).sweepState ≠ .arming ∧
    (sch [.dispatch] (queued 0x30 s0)).sweepState ≠ .complete := by decide
theorem wit_DispatchRunsHeadOfQueue_consumed :
    ∃ t, exec (commandInstr ⟨0x62, []⟩) (queued 0x62 s0) = .next t := ⟨_, rfl⟩
theorem wit_DisabledEventHolds : (sch [.dispatch] s0).sched = [.dispatch] ∧ enabled .dispatch (sch [.dispatch] s0) = false ∧
    enabled .dispatch (sch [.dispatch] { queued 0x63 s0 with sweepState := .complete }) = false ∧ s0.sched = [] := by
  decide
theorem wit_DispatchRunsHeadOfQueue_other :
    ∀ c ∈ ([0x2F, 0x31, 0x60, 0x64] : List Byte), c ≠ 0x30 ∧ c ≠ 0x61 ∧ c ≠ 0x62 ∧ c ≠ 0x63 := by decide

/-- The frame `QT:1;c.` received, RX_FRAME and DISPATCH next. -/
def received : State := sch [.rxFrame, .dispatch] (held [0x51, 0x54, 0x3A, 0x31, 0x3B, 0x63, 0x2E] s0)

theorem wit_ReceivedFrameIsRun : received.sched = [.rxFrame, .dispatch] ∧ received.iq = [] ∧
    received.sweepState ≠ .arming ∧ received.sweepState ≠ .complete ∧ received.lastByte = .ok (some received.cfg.termIn) ∧
    received.frameBytes = .ok [0x51, 0x54, 0x3A, 0x31, 0x3B, 0x63, 0x2E] ∧
    decode given [0x51, 0x54, 0x3A, 0x31, 0x3B, 0x63, 0x2E] = .ok (.start []) ∧
    isInbound (.start []) = true := by decide

/-- A heartbeat and two texts pending, TX_BEGIN of the `k`-th next. -/
def pending (k : Nat) : State := sch [.txBegin k] { s0 with txq := [.heartbeat, .text [0x41], .text [0x42]] }

theorem wit_TxBeginServesRequest : (pending 1).sched = [.txBegin 1] ∧ (pending 1).txBusy = false ∧
    (pending 1).txq[1]? = some (.text [0x41]) ∧
    ∀ j p, j < 1 → (pending 1).txq[j]? = some p → requester p ≠ requester (.text [0x41]) := by
  refine ⟨by decide, by decide, by decide, fun j p hj hp => ?_⟩
  cases Nat.lt_one_iff.mp hj
  cases hp
  decide
theorem wit_TxBeginServesRequest_busy :
    (sch [.txBegin 0] { s0 with txq := [.heartbeat], txBusy := true }).txBusy = true := by decide
theorem wit_TxBeginServesRequest_none : (pending 3).sched = [.txBegin 3] ∧ (pending 3).txq[3]? = none := by decide
theorem wit_TxBeginServesRequest_order : (pending 2).txq[2]? = some (.text [0x42]) ∧ 1 < 2 ∧
    (pending 2).txq[1]? = some (.text [0x41]) ∧ requester (.text [0x41]) = requester (.text [0x42]) := by decide
theorem wit_TxBeginServesRequest_kinds : (vce 50).reqKind = .vce ∧ vbe.reqKind = .vbe := by decide

/-- A wire format with other characters: `AB#` to carriage return, `*` as the separator. -/
def otherWire : GivenParams :=
  { given with
    hdrIn := [0x41, 0x42, 0x23], sep := 0x2A, termIn := 0x0D, hdrOut := [0x3E], termOut := [0x0D, 0x0A], argDelim := 0x2C }

theorem wit_DecodeInvertsEncode : readable given = true ∧ wellFormed given (.loadVce (List.replicate 40 0x31)) = true ∧
    wellFormed given (.unrecognized 0x2F []) = true ∧ wellFormed given (.txSweepVce [0x0FFF, 0]) = true ∧
    wellFormed given (.txText []) = true ∧ wellFormed given .txStatusOk = true := by decide
theorem wit_DecodeInvertsEncode_other : readable otherWire = true ∧ wellFormed otherWire (.start [0x2E, 0x3B]) = true ∧
    wellFormed otherWire (.txText [0x0D]) = true := by decide
theorem wit_DecodeInvertsEncode_names : readable cfgU.toGivenParams = true ∧
    wellFormed cfgU.toGivenParams (.txText [0x63, 0x2C, 0x4F, 0x6B]) = true := by decide

theorem wit_LengthMismatchBothWays : isNumber [0x33] = true ∧ given.sep ∉ ([0x33] : List Byte) ∧
    given.termIn ∉ ([0x61, 0x31] : List Byte) := by decide

theorem wit_SourceDecodeScenarios : given.hdrIn = [0x51, 0x54, 0x3A] ∧ given.sep = 0x3B ∧ given.termIn = 0x2E ∧
    1 ≤ given.argCap ∧ (held [0x51, 0x54, 0x3A, 0x33, 0x3B, 0x61, 0x31, 0x2E] s0).cfg.toGivenParams = given ∧
    (held [0x51, 0x54, 0x3A, 0x33, 0x3B, 0x61, 0x31, 0x2E] s0).frameBytes
    = .ok [0x51, 0x54, 0x3A, 0x33, 0x3B, 0x61, 0x31, 0x2E] := ⟨rfl, rfl, rfl, by decide, rfl, by decide⟩

theorem wit_FirstFailingCheckIsNamed_header : given.sep ∉ ([0x32, 0x61, 0x2E] : List Byte) := by decide
theorem wit_FirstFailingCheckIsNamed_number : given.sep ∉ ([] : List Byte) ∧ isNumber [] = false ∧
    given.sep ∉ ([0x2B, 0x32] : List Byte) ∧ isNumber [0x2B, 0x32] = false := by decide
theorem wit_FirstFailingCheckIsNamed_terminator : given.sep ∉ ([0x32] : List Byte) ∧ isNumber [0x32] = true ∧
    given.termIn ∉ ([] : List Byte) := by decide
theorem wit_FirstFailingCheckIsNamed_length : given.sep ∉ ([0x31] : List Byte) ∧ isNumber [0x31] = true ∧
    given.termIn ∉ ([] : List Byte) ∧ ([] : List Byte).length ≠ parseDec [0x31] := by decide
theorem wit_FirstFailingCheckIsNamed_body : given.sep ∉ ([0x30] : List Byte) ∧ isNumber [0x30] = true ∧
    parseDec [0x30] = 0 := by decide
theorem wit_FirstFailingCheckIsNamed_argument : given.sep ∉ ([0x34, 0x32] : List Byte) ∧ isNumber [0x34, 0x32] = true ∧
    given.termIn ∉ List.replicate 42 (0x31 : Byte) ∧ (List.replicate 42 (0x31 : Byte)).length = parseDec [0x34, 0x32] ∧
    given.argCap + 1 < (List.replicate 42 (0x31 : Byte)).length := by decide

theorem wit_TextRoundTrip : isNumber [0x32] = true ∧ given.termIn ∉ ([0x61, 0x31] : List Byte) ∧ isDigit given.sep = false ∧
    decodeFrame given (given.hdrIn ++ [0x32] ++ [given.sep] ++ [0x61, 0x31] ++ [given.termIn] ++ []) = .ok ⟨0x61, [0x31]⟩ := by
  decide
theorem wit_DeclaredLengthDelimitsPayload : isDigit given.sep = false ∧ isDigit otherWire.sep = false := by decide

theorem wit_DecimalIsShortest : (200 : Nat) ≠ 0 ∧ isNumber [0x30, 0x32, 0x30, 0x30] = true ∧
    parseDec [0x30, 0x32, 0x30, 0x30] = 200 := by decide

theorem wit_PackKeepsTwelveBits : ([0xFFFF, 0x0123] : List Sample).length % 2 = 0 := by decide

theorem wit_RampTableProperties : 5000 ≤ cfgT.vfsMv ∧ 200 ≤ cfgT.rampSteps ∧ 0 ≤ cfgT.vfsMv ∧
    (rampTable given 5000)[199]? = some 4075 ∧ (rampTable given 5000)[199 + 1]? = some 4095 ∧
    (4095 : DacCode) ∈ rampTable given 5000 := by decide +kernel
theorem wit_RampTableProperties_half : 5000 ≤ cfgU.vfsMv ∧ cfgT.halvesDown = [] ∧
    2 * 5000 * 20 * cfgU.dacMax = (2 * 409 + 1) * (cfgU.vfsMv * cfgU.rampSteps) ∧ 409 ∈ cfgU.halvesDown := by decide

theorem wit_FullScaleScenario : s0.cfg.toGivenParams = given ∧ State.reset.cfg.toGivenParams = given := ⟨rfl, rfl⟩

theorem wit_LoadVceLoadsRequest : s0.cfg.toGivenParams = given ∧ s0.sweepState = .idle ∧ { s0 with sweepState := .faulted }.sweepState = .faulted ∧
    isNumber [0x35, 0x30] = true ∧ isNumber [0x30, 0x33] = true ∧ isNumber [0x32, 0x35, 0x35] = true ∧
    s0.cfg.argDelim ∉ ([0x35, 0x30] ++ [0x30, 0x33] ++ [0x32, 0x35, 0x35] : List Byte) ∧
    parseDec [0x35, 0x30] ≤ s0.cfg.ampMax ∧ parseDec [0x30, 0x33] < s0.cfg.gainCount ∧ parseDec [0x32, 0x35, 0x35] ≤ 255 := by
  decide

/-- `51-0-0`, just above the largest amplitude, is no legal argument. -/
theorem wit_LoadVceArgumentError : s0.sweepState = .idle ∧
    ¬ ∃ f0 f1 f2, ([0x35, 0x31, 0x2D, 0x30, 0x2D, 0x30] : List Byte) = f0 ++ [0x2D] ++ f1 ++ [0x2D] ++ f2 ∧
      isNumber f0 = true ∧ isNumber f1 = true ∧ isNumber f2 = true ∧ (0x2D : Byte) ∉ f0 ++ f1 ++ f2 ∧
      parseDec f0 ≤ s0.cfg.ampMax ∧ parseDec f1 < s0.cfg.gainCount ∧ parseDec f2 ≤ 255 := by
  refine ⟨rfl, ?_⟩
  rintro ⟨f0, f1, f2, h, h0, h1, h2, hd, l0, l1, l2⟩
  simp only [List.mem_append, not_or] at hd
  have hp : parseVceArg 0x2D 50 4 [0x35, 0x31, 0x2D, 0x30, 0x2D, 0x30] = some (parseDec f0, parseDec f1, parseDec f2) := by
    have l1' : parseDec f1 < 4 := l1
    exact parseVceArg_eq_some.mpr ⟨f0, f1, f2, by rw [h]; simp, hd.1.1, hd.1.2, hd.2,
      parseField_eq_some.mpr ⟨h0, rfl, l0⟩, parseField_eq_some.mpr ⟨h1, rfl, by omega⟩, parseField_eq_some.mpr ⟨h2, rfl, l2⟩⟩
  have hn : parseVceArg 0x2D 50 4 [0x35, 0x31, 0x2D, 0x30, 0x2D, 0x30] = none := by decide
  rw [hn] at hp
  cases hp

theorem wit_LoadVbeLoadsRequest : s0.cfg.toGivenParams = given ∧ s0.sweepState = .idle ∧ { s0 with sweepState := .faulted }.sweepState = .faulted := by
  decide

theorem wit_SilentRejections : (running 5 (vce 50)).sweepState ≠ .idle ∧ (running 5 (vce 50)).sweepState ≠ .faulted ∧
    s0.reqValid = false ∧ { vbe with connected := false }.connected = false := by decide

theorem wit_StartArms : (vce 50).sweepState = .idle ∧ (vce 50).reqValid = true ∧ (vce 50).connected = true ∧
    (vce 50).reqKind = .vce ∧ { vbe with sweepState := .faulted }.sweepState = .faulted ∧ vbe.reqValid = true ∧
    vbe.connected = true ∧ vbe.reqKind = .vbe := by decide

theorem wit_CommandsLeaveActiveSweep : isInbound (.hbAck []) = true ∧ isInbound (.start []) = true ∧
    (running 200 vbe).sweepState = .running ∧ { vbe with sweepState := .draining }.sweepState = .draining := by decide

/-- A request in `Arming`, the answer `a` next. -/
def arming (a : ArmResult) (s : State) : State := sch [.armResult a] { s with sweepState := .arming, ampEn := true }

theorem wit_ArmResultOutcomes : (arming .ready (vce 50)).sched = [.armResult .ready] ∧
    (arming .ready (vce 50)).sweepState = .arming := by decide
theorem wit_ArmResultOutcomes_failed : (arming .hwFail (vce 50)).sched = [.armResult .hwFail] ∧
    (arming .hwFail (vce 50)).sweepState = .arming ∧ ArmResult.hwFail ≠ .ready ∧ (arming .hwFail (vce 50)).reqKind = .vce ∧
    (arming .timerFail vbe).sched = [.armResult .timerFail] ∧ (arming .timerFail vbe).sweepState = .arming ∧
    ArmResult.timerFail ≠ .ready ∧ (arming .timerFail vbe).reqKind = .vbe := by decide
theorem wit_ArmResultOutcomes_other :
    (sch [.armResult .ready] s0).sched = [.armResult .ready] ∧ (sch [.armResult .ready] s0).sweepState ≠ .arming := by decide

/-- Tick `k` of the sweep of `s` next. -/
def ticking (k : BitVec 8) (s : State) : State := sch [.tick {}] (running k s)

theorem wit_FirstTick : (ticking 0 (vce 50)).sched = [.tick {}] ∧ (ticking 0 (vce 50)).timerRun = true ∧
    (ticking 0 (vce 50)).stepIndex = 0 ∧ Mem.read (ticking 0 (vce 50)).ramp 0 = some 0 ∧
    (ticking 0 (vce 50)).reqKind = .vce ∧
    (ticking 0 (vce 50)).cfg.gainTable[(ticking 0 (vce 50)).reqGain.toNat]? = some 30 := by decide +kernel
theorem wit_FirstTick_vbe : (ticking 0 vbe).timerRun = true ∧ (ticking 0 vbe).stepIndex = 0 ∧
    Mem.read (ticking 0 vbe).ramp 0 = some 0 ∧ (ticking 0 vbe).reqKind = .vbe := by decide +kernel

theorem wit_FirstTick_captures : (running 0 vbe).captured [9] = [] ∧
    { running 0 vbe with dmaArmed := true, adcRun := true, dmaWrIdx := 3 }.captured [9, 8] = [9] ∧
    (([1, 2] ++ [3, 4, 5] : List Sample).take vbe.cfg.capLen) = [1, 2, 3, 4] := by decide

theorem wit_MiddleTick_captures : { running 1 vbe with dmaWrIdx := 2 }.captured ([7] ++ [8, 9]) = [7, 8] ∧
    { running 1 vbe with dmaWrIdx := 4 }.captured [7] = [] := by decide

theorem wit_MiddleTick : (ticking 1 (vce 50)).sched = [.tick {}] ∧ (ticking 1 (vce 50)).timerRun = true ∧
    1 ≤ (ticking 1 (vce 50)).stepIndex.toNat ∧ (ticking 1 (vce 50)).stepIndex.toNat < (ticking 1 (vce 50)).cfg.rampSteps ∧
    Mem.read (ticking 1 (vce 50)).ramp (ticking 1 (vce 50)).stepIndex.toNat = some 20 ∧
    (ticking 1 (vce 50)).reqKind = .vce := by decide +kernel
theorem wit_MiddleTick_vbe : (ticking 199 vbe).sched = [.tick {}] ∧ (ticking 199 vbe).timerRun = true ∧
    1 ≤ (ticking 199 vbe).stepIndex.toNat ∧ (ticking 199 vbe).stepIndex.toNat < (ticking 199 vbe).cfg.rampSteps ∧
    Mem.read (ticking 199 vbe).ramp (ticking 199 vbe).stepIndex.toNat = some 652 ∧
    (ticking 199 vbe).reqKind = .vbe := by decide +kernel

theorem wit_LastTick : (ticking 200 (vce 50)).sched = [.tick {}] ∧ (ticking 200 (vce 50)).timerRun = true ∧
    (ticking 200 (vce 50)).stepIndex.toNat = (ticking 200 (vce 50)).cfg.rampSteps ∧
    Mem.read (ticking 200 (vce 50)).ramp (ticking 200 (vce 50)).cfg.rampSteps = some 4095 ∧
    (ticking 200 (vce 50)).reqKind = .vce := by decide +kernel
theorem wit_LastTick_vbe : (ticking 200 vbe).sched = [.tick {}] ∧ (ticking 200 vbe).timerRun = true ∧
    (ticking 200 vbe).stepIndex.toNat = (ticking 200 vbe).cfg.rampSteps ∧
    Mem.read (ticking 200 vbe).ramp (ticking 200 vbe).cfg.rampSteps = some 655 ∧
    (ticking 200 vbe).reqKind = .vbe := by decide +kernel

theorem wit_TimerRunIsTheOnlyMask_set :
    ∃ s', runEvent (.armResult .ready) (arming .ready vbe) = .next s' ∧ s'.timerRun ≠ (arming .ready vbe).timerRun :=
  ⟨_, rfl, by decide⟩
theorem wit_TimerRunIsTheOnlyMask_cleared :
    see (runEvent (.tick {}) (ticking 200 vbe)) (fun s' => decide (s'.timerRun ≠ (ticking 200 vbe).timerRun)) = some true := by
  decide +kernel

/-- A whole sweep: a capture inside tick 0, after it and inside the last tick, and after the last tick one that comes too
late. -/
def sweepEvents : List Event :=
  .tick { afterStart := [0x0ABC] } :: .capWrite 0x0ABC :: List.replicate 199 (.tick {})
    ++ [.tick { afterCode := [2] }, .capWrite 1]

theorem sweepEvents_mem : ∀ e, e ∈ sweepEvents → e.isTick = true ∨ ∃ v, e = .capWrite v := by
  intro e he
  simp only [sweepEvents, List.cons_append, List.mem_cons, List.mem_append, List.mem_replicate, List.not_mem_nil] at he
  rcases he with rfl | rfl | ⟨-, rfl⟩ | rfl | rfl | h
  · exact .inl rfl
  · exact .inr ⟨_, rfl⟩
  · exact .inl rfl
  · exact .inl rfl
  · exact .inr ⟨_, rfl⟩
  · exact h.elim

theorem wit_WholeSweepTrace : (sch (sweepEvents ++ [.drain]) (running 0 (vce 50))).sched = sweepEvents ++ [.drain] ∧
    (∀ e, e ∈ sweepEvents → e.isTick = true ∨ ∃ v, e = .capWrite v) ∧ sweepEvents.countP Event.isTick = s0.cfg.rampLen ∧
    (running 0 (vce 50)).timerRun = true ∧ (running 0 (vce 50)).sweepState = .running ∧
    (running 0 (vce 50)).stepIndex = 0 ∧ (rampTable given 5000).length = s0.cfg.rampLen ∧
    (∀ i, i < 201 → Mem.read (running 0 (vce 50)).ramp i = (rampTable given 5000)[i]?) ∧
    (running 0 (vce 50)).cfg.gainTable[(running 0 (vce 50)).reqGain.toNat]? = some 30 :=
  ⟨rfl, sweepEvents_mem, by decide +kernel, rfl, rfl, rfl, rampTable_length 5000,
    fun i _ => Mem.read_fill (rampTable given 5000) i, by decide⟩
theorem wit_WholeSweepTrace_vbe : (sch (sweepEvents ++ [.drain]) (running 0 vbe)).sched = sweepEvents ++ [.drain] ∧
    (∀ e, e ∈ sweepEvents → e.isTick = true ∨ ∃ v, e = .capWrite v) ∧ sweepEvents.countP Event.isTick = vbe.cfg.rampLen ∧
    (running 0 vbe).timerRun = true ∧ (running 0 vbe).sweepState = .running ∧ (running 0 vbe).stepIndex = 0 ∧
    (rampTable given 800).length = vbe.cfg.rampLen ∧
    (∀ i, i < 201 → Mem.read (running 0 vbe).ramp i = (rampTable given 800)[i]?) ∧ (running 0 vbe).reqKind ≠ .vce :=
  ⟨rfl, sweepEvents_mem, by decide +kernel, rfl, rfl, rfl, rampTable_length 800,
    fun i _ => Mem.read_fill (rampTable given 800) i, by decide⟩

theorem wit_DrainHandsOverTheCapture : (sch [.drain] { s0 with sweepState := .draining, done := true }).sched = [.drain] ∧
    (sch [.drain] { s0 with sweepState := .draining, done := true }).done = true ∧
    SweepState.draining ≠ .arming ∧ SweepState.draining ≠ .complete ∧ (sch [.drain] s0).done = false := by decide

theorem wit_CapWriteStoresSample_inside :
    ∃ t, runEvent (.capWrite 7) { s0 with dmaArmed := true, adcRun := true, dmaWrIdx := 3 } = .next t := ⟨_, rfl⟩
theorem wit_CapWriteStoresSample :
    (sch [.capWrite 7] { s0 with dmaArmed := true, adcRun := true, dmaWrIdx := 3 }).sched = [.capWrite 7] ∧
    (sch [.capWrite 7] { s0 with dmaArmed := true, adcRun := true, dmaWrIdx := 3 }).dmaWrIdx < s0.cfg.capLen ∧
    s0.cfg.capLen ≤ (sch [.capWrite 7] { s0 with dmaArmed := true, adcRun := true, dmaWrIdx := 4 }).dmaWrIdx ∧
    (sch [.capWrite 7] s0).dmaArmed = false ∧ (sch [.capWrite 7] { s0 with dmaArmed := true }).adcRun = false := by decide

/-- Forty-nine bytes held, the byte `b` at the Link, RX_BYTE next. -/
def lastRoom (b : Byte) : State := sch [.rxByte] { held (List.replicate 49 0x78) s0 with linkRx := [b] }

theorem wit_RxByteStores : (sch [.rxByte] { s0 with linkRx := [0x51] }).sched = [.rxByte] ∧
    (sch [.rxByte] { s0 with linkRx := [0x51] }).linkRx = [0x51] ∧
    (sch [.rxByte] { s0 with linkRx := [0x51] }).rxLen.toNat < s0.cfg.frameCap ∧
    (sch [.rxByte] { s0 with linkRx := [0x51] }).rxLen = 0 ∧
    (sch [.rxByte] { s0 with linkRx := [0x51] }).rxLen.toNat + 1 < s0.cfg.frameCap := by decide
theorem wit_RxByteStores_full_frame : (lastRoom 0x2E).linkRx = [0x2E] ∧ (lastRoom 0x2E).rxLen.toNat + 1 = s0.cfg.frameCap ∧
    (lastRoom 0x2E).lastByte = .ok (some 0x78) ∧ (0x78 : Byte) ≠ 0x2E := by decide +kernel
theorem wit_RxByteStores_overflow : (lastRoom 0x78).linkRx = [0x78] ∧ (0x78 : Byte) ≠ 0x2E ∧
    (lastRoom 0x78).rxLen.toNat + 1 = s0.cfg.frameCap ∧ (lastRoom 0x78).lastByte = .ok (some 0x78) := by decide +kernel
theorem wit_RxByteStores_nothing : (sch [.rxByte] s0).sched = [.rxByte] ∧ (sch [.rxByte] s0).linkRx = [] ∧
    received.lastByte = .ok (some 0x2E) := by decide

/-- A buffer longer than `rx_buf`, the event `e` next. -/
def overlong (e : Event) : State := sch [e] { s0 with linkRx := [0x51], rxLen := 51 }

theorem wit_rx_outside : (overlong .rxByte).sched = [.rxByte] ∧ (overlong .rxByte).linkRx ≠ [] ∧
    (overlong .rxByte).cfg.frameCap < (overlong .rxByte).rxLen.toNat ∧ (overlong .rxFrame).sched = [.rxFrame] ∧
    (overlong .rxFrame).cfg.frameCap < (overlong .rxFrame).rxLen.toNat ∧ (overlong .rxExpire).sched = [.rxExpire] ∧
    (overlong .rxExpire).cfg.frameCap < (overlong .rxExpire).rxLen.toNat := by decide

/-- A full buffer with no terminator, RX_BYTE next. -/
def fullBuffer : State := sch [.rxByte] { s0 with linkRx := [0x51], rxLen := 50, rxBuf := [(49, 0x78)] }

theorem wit_RxByteStores_outside : fullBuffer.sched = [.rxByte] ∧ fullBuffer.linkRx ≠ [] ∧
    fullBuffer.rxLen.toNat = fullBuffer.cfg.frameCap ∧ fullBuffer.lastByte = .ok (some 0x78) ∧
    (0x78 : Byte) ≠ fullBuffer.cfg.termIn := by decide

/-- `QT:3;a1.` received, RX_FRAME next. -/
def badFrame : State := sch [.rxFrame] (held [0x51, 0x54, 0x3A, 0x33, 0x3B, 0x61, 0x31, 0x2E] s0)

theorem wit_RxFrameDecodes : received.frameBytes = .ok [0x51, 0x54, 0x3A, 0x31, 0x3B, 0x63, 0x2E] ∧
    received.lastByte = .ok (some 0x2E) ∧ decodeFrame given [0x51, 0x54, 0x3A, 0x31, 0x3B, 0x63, 0x2E] = .ok ⟨0x63, []⟩ ∧
    received.iq.length < received.cfg.iqDepth ∧
    received.cfg.iqDepth ≤ { received with iq := List.replicate 4 ⟨0x30, []⟩ }.iq.length := by decide
theorem wit_RxFrameDecodes_partial : (sch [.rxFrame] s0).sched = [.rxFrame] ∧ (sch [.rxFrame] s0).rxLen = 0 ∧
    (sch [.rxFrame] (held [0x51] s0)).sched = [.rxFrame] ∧
    (sch [.rxFrame] (held [0x51] s0)).lastByte = .ok (some 0x51) ∧ (0x51 : Byte) ≠ s0.cfg.termIn := by decide
theorem wit_RxFrameDecodes_failed : badFrame.sched = [.rxFrame] ∧
    badFrame.frameBytes = .ok [0x51, 0x54, 0x3A, 0x33, 0x3B, 0x61, 0x31, 0x2E] ∧ badFrame.lastByte = .ok (some 0x2E) ∧
    decodeFrame given [0x51, 0x54, 0x3A, 0x33, 0x3B, 0x61, 0x31, 0x2E] = .error .lengthMismatch := by decide

theorem wit_RxTimeoutDiscardsPartialFrame_idle : (sch [.rxExpire] u0).sched = [.rxExpire] ∧ (sch [.rxExpire] u0).rxLen = 0 ∧
    (sch [.rxExpire] u0).cfg.idleTimeout = true ∧ (sch [.rxExpire] s0).cfg.idleTimeout = false := by decide
theorem wit_RxTimeoutDiscardsPartialFrame : (sch [.rxExpire] (held [0x51] s0)).sched = [.rxExpire] ∧
    (sch [.rxExpire] (held [0x51] s0)).lastByte = .ok (some 0x51) ∧ (0x51 : Byte) ≠ 0x2E ∧ (sch [.rxExpire] s0).rxLen = 0 ∧
    (sch [.rxExpire] (held [0x2E] s0)).lastByte = .ok (some 0x2E) := by decide

/-- The far end's bytes `g` and `.` at an idle receiver's Link, and after them a line feed. -/
def delivered (g : List Byte) : State :=
  { s0 with linkRx := g ++ [0x2E] ++ [0x0A], sched := List.replicate (g.length + 1) .rxByte ++ .rxFrame :: [] }

theorem wit_DeliveredFrameIsReceived_link : (sch [.linkRx 0x51] s0).sched = [.linkRx 0x51] := by decide
theorem wit_DeliveredFrameIsReceived : (0x2E : Byte) ∉ ([0x51, 0x54, 0x3A, 0x31, 0x3B, 0x63] : List Byte) ∧
    (delivered [0x51, 0x54, 0x3A, 0x31, 0x3B, 0x63]).rxLen = 0 ∧
    decodeFrame given ([0x51, 0x54, 0x3A, 0x31, 0x3B, 0x63] ++ [0x2E]) = .ok ⟨0x63, []⟩ ∧
    (delivered [0x51, 0x54, 0x3A, 0x31, 0x3B, 0x63]).iq.length < s0.cfg.iqDepth := by decide
theorem wit_DeliveredFrameIsReceived_full :
    { delivered [0x51, 0x54, 0x3A, 0x31, 0x3B, 0x63] with iq := List.replicate 4 ⟨0x30, []⟩ }.cfg.iqDepth
      ≤ { delivered [0x51, 0x54, 0x3A, 0x31, 0x3B, 0x63] with iq := List.replicate 4 ⟨0x30, []⟩ }.iq.length ∧
    ([0x51, 0x54, 0x3A, 0x31, 0x3B, 0x63, 0x2E] : List Byte)[6]? = some 0x2E := by decide
theorem wit_DeliveredFrameIsReceived_failed : (0x2E : Byte) ∉ List.replicate 49 (0x78 : Byte) ∧
    (List.replicate 49 (0x78 : Byte)).length < s0.cfg.frameCap ∧ (delivered (List.replicate 49 0x78)).rxLen = 0 ∧
    decodeFrame given (List.replicate 49 0x78 ++ [0x2E]) = .error .badHeader := by decide

theorem wit_LivenessFrame : s0.cfg.toGivenParams = given ∧ (sch [.hbKick] s0).sched = [.hbKick] ∧ (sch [.hbKick] s0).hbWaiting = false := ⟨rfl, rfl, rfl⟩
theorem wit_StatusFrames : (sch [.statusReq .timeout] s0).sched = [.statusReq .timeout] := by decide
theorem wit_TextFrame : (sch [.textReq []] s0).sched = [.textReq []] := by decide

/-- A sweep frame pending behind a heartbeat, TX_BEGIN of it next. -/
def sweepPending (s : State) : State :=
  sch [.txBegin 1] { s with txq := [.heartbeat, .sweep], sweepState := .complete, cap := [(0, 0x0ABC)] }

theorem wit_SweepFrame : ([0, 0, 0, 0] : List Sample).length % 2 = 0 ∧ ([] : List Sample).length % 2 = 0 := by decide
theorem wit_SweepFrame_served : (sweepPending (vce 50)).sched = [.txBegin 1] ∧ (sweepPending (vce 50)).txBusy = false ∧
    (sweepPending (vce 50)).txq[1]? = some .sweep ∧ (∀ j, j < 1 → (sweepPending (vce 50)).txq[j]? ≠ some .sweep) ∧
    Mem.read (sweepPending (vce 50)).cap 0 = some 0x0ABC ∧ (sweepPending (vce 50)).reqKind = .vce ∧
    (sweepPending vbe).reqKind = .vbe := by decide

/-- A liveness frame of which three bytes are left. -/
def sending : State := { s0 with txBusy := true, txCur := some .heartbeat, txRest := [0x65, 0x6E, 0x64] }

theorem wit_FrameIsSentWhole : (sch (List.replicate 3 .txByte ++ [.txDone]) sending).txBusy = true ∧
    (sch (List.replicate 3 .txByte ++ [.txDone]) sending).sched
      = List.replicate sending.txRest.length .txByte ++ .txDone :: [] := by decide
theorem wit_FramesNeverInterleave : sending.txBusy = true ∧ Event.hbKick ≠ .rst ∧
    ∃ s', runEvent .hbKick sending = .next s' := ⟨rfl, by decide, _, rfl⟩

/-- An open window in the configuration `p`, after `m` misses. -/
def window (p : Params) (m : Nat) : State := { State.resetWith p with hbWaiting := true, hbMiss := m }

/-- A configuration with `HB_MISS_N = 3`. -/
def three : Params := { hbMissN := 3 }

theorem wit_HeartbeatWindow : (window three 1).hbWaiting = true ∧ (window three 1).hbAck = false ∧
    (window three 1).hbMiss + 1 < (window three 1).cfg.hbMissN ∧
    (window three 2).cfg.hbMissN ≤ (window three 2).hbMiss + 1 ∧
    { window cfgT 0 with hbAck := true }.hbAck = true ∧ s0.hbWaiting = false := by decide
theorem wit_HeartbeatWindow_sched : (sch [.hbKick] (window cfgT 0)).sched = [.hbKick] ∧
    (sch [.hbTake] (window cfgT 0)).sched = [.hbTake] ∧ (sch [.hbExpire] (window cfgT 0)).sched = [.hbExpire] := by decide

theorem wit_OneDisconnectPerWindow : Event.hbExpire ≠ .rst ∧
    ∃ s', runEvent .hbExpire (window cfgT 0) = .next s' := ⟨by decide, _, rfl⟩

theorem wit_ResetFromAnyState : (sch [.rst] (running 100 (vce 50))).sched = [.rst] := by decide

/-! #### States with the invariant -/

/-- What the examples below share: everything of the invariant but the table is decided, with the table left out. -/
theorem inv_of_table {s : State}
    (h : Inv { s with
      reqValid := false, ramp := [], sweepState := .idle, timerRun := false, dmaArmed := false, adcRun := false,
      ampEn := false, txq := [] })
    (hs : SpecInv s) (ht : s.ramp = Mem.fill (rampTable s.cfg.toGivenParams s.rampTarget))
    (hr : s.reqKind = .vbe) (hd : s.sweepState = .draining → s.done = true) (ha : s.sweepState = .arming → s.stepIndex = 0)
    (hc : s.sweepState = .running → 1 ≤ s.stepIndex.toNat → s.dmaArmed = true ∧ s.adcRun = true)
    (hx : s.adcRun = true → s.dmaArmed = true) (he : s.ampEn = true ↔ s.sweepState = .arming ∨ s.sweepState = .running)
    (hq : s.txq.count .sweep + (if s.txCur = some .sweep then 1 else 0) ≤ 1) : Inv s where
  spec := hs
  rx := ⟨h.rx.len_le, h.rx.stored, h.rx.full_terminated⟩
  ramp_loaded := fun _ => ht
  amp_le := h.amp_le
  gain_lt := fun _ hk => by rw [hr] at hk; cases hk
  draining_done := hd
  arming_index := ha
  capture_window := hc
  adc_armed := hx
  amp_gate := he
  dac_gate := fun _ => h.dac_gate (by simp)
  dac_inactive := h.dac_inactive
  index_le := h.index_le
  tx_current := h.tx_current
  tx_idle := h.tx_idle
  sweep_once := hq
  iq_le := h.iq_le
  args_le := h.args_le
  miss_lt := h.miss_lt
  rxBuf_wf := h.rxBuf_wf
  ramp_wf := by rw [ht]; exact Mem.wf_fill (Nat.le_of_eq (rampTable_length _))
  cap_wf := h.cap_wf

/-- The decided part of the invariant. -/
theorem inv_idle : Inv { queued 0x62 s0 with linkRx := [0x51] } := by
  constructor
  case spec => constructor <;> decide
  case rx => constructor <;> decide
  all_goals decide

/-- The invariant of a VBE sweep before tick `k`, the capture window open from tick 1. -/
theorem inv_running : Inv (running 7 vbe) := by
  refine inv_of_table ?_ (by constructor <;> decide) rfl rfl (by decide) (by decide) (by decide) (by decide) (by decide)
    (by decide)
  constructor
  case spec => constructor <;> decide
  case rx => constructor <;> decide
  all_goals decide

theorem inv_first : Inv (running 0 vbe) := by
  refine inv_of_table ?_ (by constructor <;> decide) rfl rfl (by decide) (by decide) (by decide) (by decide) (by decide)
    (by decide)
  constructor
  case spec => constructor <;> decide
  case rx => constructor <;> decide
  all_goals decide

/-- A completed sweep, its frame pending. -/
def completed : State := { vbe with sweepState := .complete, stepIndex := 201, txq := [.sweep] }

theorem inv_completed : Inv completed := by
  refine inv_of_table ?_ (by constructor <;> decide) rfl rfl (by decide) (by decide) (by decide) (by decide) (by decide)
    (by decide)
  constructor
  case spec => constructor <;> decide
  case rx => constructor <;> decide
  all_goals decide

theorem wit_FirstTick_inv : Inv (running 0 vbe) ∧ (running 0 vbe).sweepState = .running ∧ (running 0 vbe).stepIndex = 0 :=
  ⟨inv_first, rfl, rfl⟩

theorem inv_sched {s : State} (l : List Event) (h : Inv s) : Inv (sch l s) where
  spec := ⟨h.spec.running_timer, h.spec.timer_running, h.spec.armed_running, h.spec.done_draining, h.spec.active_valid,
    h.spec.sweep_request, h.spec.dma_index⟩
  rx := ⟨h.rx.len_le, h.rx.stored, h.rx.full_terminated⟩
  ramp_loaded := h.ramp_loaded
  amp_le := h.amp_le
  gain_lt := h.gain_lt
  draining_done := h.draining_done
  arming_index := h.arming_index
  capture_window := h.capture_window
  adc_armed := h.adc_armed
  amp_gate := h.amp_gate
  dac_gate := h.dac_gate
  dac_inactive := h.dac_inactive
  index_le := h.index_le
  tx_current := h.tx_current
  tx_idle := h.tx_idle
  sweep_once := h.sweep_once
  iq_le := h.iq_le
  args_le := h.args_le
  miss_lt := h.miss_lt
  rxBuf_wf := h.rxBuf_wf
  ramp_wf := h.ramp_wf
  cap_wf := h.cap_wf

theorem wit_InvKeptByEveryStep : Inv (sch [.capWrite 7] (running 7 vbe)) ∧
    ∃ s', step (sch [.capWrite 7] (running 7 vbe)) = .next s' := ⟨inv_sched _ inv_running, _, rfl⟩

theorem wit_NoFaultUnderInv : Inv (sch [.rxByte] { queued 0x62 s0 with linkRx := [0x51] }) := inv_sched _ inv_idle

theorem wit_MemoriesStayCanonical : Mem.wf (sch [.hbKick] vbe).cfg.frameCap (sch [.hbKick] vbe).rxBuf = true ∧
    Mem.wf (sch [.hbKick] vbe).cfg.rampLen (sch [.hbKick] vbe).ramp = true ∧ Mem.wf (sch [.hbKick] vbe).cfg.capLen (sch [.hbKick] vbe).cap = true ∧
    ∃ s', step (sch [.hbKick] vbe) = .next s' :=
  ⟨rfl, Mem.wf_fill (Nat.le_of_eq (rampTable_length 800)), rfl, _, rfl⟩

theorem wit_SweepStateFollowsTheTable : Inv (running 7 vbe) ∧ Event.tick {} ≠ .rst ∧ (running 7 vbe).timerRun = true ∧
    see (runEvent (.tick {}) (running 7 vbe)) (fun _ => ()) = some () := ⟨inv_running, by decide, rfl, by decide +kernel⟩

theorem wit_NoSweepCancellation : Inv (running 7 vbe) ∧ (running 7 vbe).sweepState = .running ∧
    (∃ s', runEvent .hbKick (running 7 vbe) = .next s') ∧ Event.hbKick.isTick = false ∧ (∀ v, Event.hbKick ≠ .capWrite v) ∧
    Event.hbKick ≠ .rst := ⟨inv_running, rfl, ⟨_, rfl⟩, by decide, (fun _ h => by cases h), by decide⟩

theorem wit_CapNeverReadWhileArmed : Inv (running 7 vbe) ∧ (running 7 vbe).dmaArmed = true ∧
    ∃ s', runEvent (.capWrite 7) (running 7 vbe) = .next s' := ⟨inv_running, rfl, _, rfl⟩
theorem wit_CapNeverReadWhileArmed_frame : Inv completed ∧ .sweep ∈ completed.txq := ⟨inv_completed, by decide⟩

theorem wit_StatusStreamIsWriteOnly : Event.rxExpire ≠ .rst ∧
    ∃ s', runEvent .rxExpire (held [0x51] s0) = .next s' := ⟨by decide, _, rfl⟩
theorem wit_OnePostPerStep : Event.armResult .hwFail ≠ .rst ∧
    ∃ s', runEvent (.armResult .hwFail) (arming .hwFail vbe) = .next s' := ⟨by decide, _, rfl⟩
theorem wit_OnePostPerStep_info : u0.cfg.infoPosts = true ∧ StatusEvent.receive ∈ [StatusEvent.ok, .transmit, .receive] ∧
    Event.infoPost .receive ≠ .rst ∧ ∃ s', runEvent (.infoPost .receive) u0 = .next s' := ⟨rfl, by decide, by decide, _, rfl⟩
theorem wit_RequestIsASnapshot : Event.dispatch ≠ .rst ∧
    ∃ s', runEvent .dispatch (queued 0x62 s0) = .next s' ∧ s'.reqValid ≠ (queued 0x62 s0).reqValid :=
  ⟨by decide, _, rfl, by decide⟩
theorem wit_OneWriterPerMemory_cap : Inv (running 7 vbe) ∧ Event.capWrite 7 ≠ .rst ∧
    ∃ s', runEvent (.capWrite 7) (running 7 vbe) = .next s' ∧ s'.cap ≠ (running 7 vbe).cap :=
  ⟨inv_running, by decide, _, rfl, by decide⟩
theorem wit_OneWriterPerMemory_inside : Inv (running 7 vbe) ∧ Event.tick { afterCode := [7] } ≠ .rst ∧
    see (runEvent (.tick { afterCode := [7] }) (running 7 vbe)) (fun s' => decide (s'.cap ≠ (running 7 vbe).cap))
    = some true := ⟨inv_running, by decide, by decide +kernel⟩
theorem wit_OneWriterPerMemory_ramp : Inv { queued 0x62 s0 with linkRx := [0x51] } ∧
    ∃ s', runEvent .dispatch { queued 0x62 s0 with linkRx := [0x51] } = .next s' ∧ s'.ramp ≠ [] :=
  ⟨inv_idle, _, rfl, fun h => by cases h⟩
theorem wit_OneWriterPerMemory_rxBuf : Inv { queued 0x62 s0 with linkRx := [0x51] } ∧
    see (runEvent .rxByte { queued 0x62 s0 with linkRx := [0x51] }) (fun s' => decide (s'.rxBuf ≠ [])) = some true :=
  ⟨inv_idle, by decide⟩
theorem wit_StepIndexMovesInTwoPlaces : Event.tick {} ≠ .rst ∧ Event.dispatch ≠ .rst ∧
    see (runEvent (.tick {}) (running 200 vbe)) (·.stepIndex) = some 201 := ⟨by decide, by decide, by decide +kernel⟩

/-! #### Fair runs -/

/-- The heartbeat misses its windows for ever. -/
def beatEv (n : Nat) : Event := if n % 2 = 0 then .hbKick else .hbExpire

/-- The states of that run from `s`. -/
def beatSt (s : State) : Nat → State
  | 0 => s
  | n + 1 =>
    if n % 2 = 0 then { beatSt s n with txq := (beatSt s n).txq ++ [.heartbeat], hbWaiting := true }
    else { beatSt s n with
      hbWaiting := false, hbMiss := 0, connected := false, statusOut := (beatSt s n).statusOut ++ [.disconnect] }

/-- Every agent but HEARTBEAT waits: the Link delivers and accepts nothing, and no command and no sweep is there. -/
structure Waiting (s : State) : Prop where
  linkRx : s.linkRx = []
  rxLen : s.rxLen = 0
  iq : s.iq = []
  done : s.done = false
  timer : s.timerRun = false
  busy : s.txBusy = true
  rest : s.txRest ≠ []
  ack : s.hbAck = false
  miss : s.hbMiss = 0
  once : s.cfg.hbMissN = 1
  quiet : s.cfg.idleTimeout = false

theorem beat_waiting {s : State} (h : Waiting s) (hw : s.hbWaiting = false) (n : Nat) :
    Waiting (beatSt s n) ∧ (beatSt s n).hbWaiting = decide (n % 2 = 1) := by
  induction n with
  | zero => exact ⟨h, by simpa [beatSt] using hw⟩
  | succ n ih =>
    obtain ⟨⟨h1, h2, h3, h4, h5, h6, h7, h8, h9, h10, h11⟩, -⟩ := ih
    rcases Nat.mod_two_eq_zero_or_one n with hn | hn
    · rw [beatSt, if_pos hn]
      exact ⟨⟨h1, h2, h3, h4, h5, h6, h7, h8, h9, h10, h11⟩, by simp; omega⟩
    · rw [beatSt, if_neg (by omega)]
      exact ⟨⟨h1, h2, h3, h4, h5, h6, h7, h8, rfl, h10, h11⟩, by simp; omega⟩

theorem beat_run {s : State} (h : Waiting s) (hw : s.hbWaiting = false) (n : Nat) :
    enabled (beatEv n) (beatSt s n) = true ∧ runEvent (beatEv n) (beatSt s n) = .next (beatSt s (n + 1)) := by
  obtain ⟨hs, hb⟩ := beat_waiting h hw n
  rcases Nat.mod_two_eq_zero_or_one n with hn | hn
  · have hb : (beatSt s n).hbWaiting = false := by rw [hb]; simp; omega
    rw [beatEv, if_pos hn, beatSt, if_pos hn]
    have he : enabled .hbKick (beatSt s n) = true := by simp [enabled, hb]
    exact ⟨he, runEvent_of_effect he (.hbSent _ hb) (by decide)⟩
  · have hb : (beatSt s n).hbWaiting = true := by rw [hb]; simp; omega
    rw [beatEv, if_neg (by omega), beatSt, if_neg (by omega)]
    have he : enabled .hbExpire (beatSt s n) = true := by simp [enabled, hb, hs.ack]
    exact ⟨he, runEvent_of_effect he (.hbLost _ hb hs.ack (by rw [hs.once, hs.miss])) (by decide)⟩

/-- In such a state only HEARTBEAT's duty is ready. -/
theorem Waiting.idle {s : State} (h : Waiting s) {d : Duty} (hd : d ≠ .heartbeat) : ¬ d.ready s := by
  rintro ⟨e, he, hen⟩
  obtain ⟨h1, h2, h3, h4, h5, h6, h7, h8, h9, h10, h11⟩ := h
  cases e <;> simp_all [Duty.doneBy, enabled, State.lastByteFaults, State.frameComplete, State.lastByte]

/-- Two events, and then the heartbeat alone. -/
def fairSt (a b c : State) : Nat → State
  | 0 => a
  | 1 => b
  | n + 2 => beatSt c n
def fairEv (e f : Event) : Nat → Event
  | 0 => e
  | 1 => f
  | n + 2 => beatEv n

theorem fairRun {a b c : State} {e f : Event} (h1 : runEvent e a = .next b) (h2 : runEvent f b = .next c)
    (hc : Waiting c) (hw : c.hbWaiting = false) : FairRun (fairSt a b c) (fairEv e f) := by
  refine ⟨fun n => ?_, fun d n hr => ?_⟩
  · match n with
    | 0 => exact h1
    | 1 => exact h2
    | n + 2 => exact (beat_run hc hw n).2
  · by_cases hd : d = .heartbeat
    · refine ⟨n + 2, by omega, ?_, (beat_run hc hw n).1⟩
      rw [hd]; show Duty.doneBy .heartbeat (beatEv n) = true
      rw [beatEv]; split <;> rfl
    · exact absurd (hr (n + 2) (by omega)) ((beat_waiting hc hw n).1.idle hd)

/-- What the event leads to, where it answers a next state. -/
def after (e : Event) (s : State) : State :=
  match runEvent e s with
  | .next t => t
  | .fault _ => s
  | .refused _ => s

/-- The last tick of a VBE sweep, a text's frame at a Link that accepts nothing; then DRAIN. -/
def stuck (s : State) : State := { s with txBusy := true, txCur := some (.text []), txRest := [0x65] }
def lastTick : State := stuck (running 200 vbe)
def drainable : State := after (.tick {}) lastTick
def handedOver : State := after .drain drainable

theorem runEvent_after {e : Event} {s : State} (h : see (runEvent e s) (fun _ => ()) = some ()) :
    runEvent e s = .next (after e s) := by
  rw [after]
  cases hr : runEvent e s <;> simp_all [see]

theorem wit_NoSweepCancellation_fair : FairRun (fairSt lastTick drainable handedOver) (fairEv (.tick {}) .drain) := by
  refine fairRun (runEvent_after (by decide +kernel)) (runEvent_after (by decide +kernel)) ?_ (by decide +kernel)
  constructor <;> decide +kernel
theorem inv_lastTick : Inv lastTick := by
  refine inv_of_table ?_ (by constructor <;> decide) rfl rfl (by decide) (by decide) (by decide) (by decide) (by decide)
    (by decide)
  constructor
  case spec => constructor <;> decide
  case rx => constructor <;> decide
  all_goals decide
theorem wit_NoSweepCancellation_running : Inv lastTick ∧ lastTick.timerRun = true ∧ lastTick.sweepState = .running :=
  ⟨inv_lastTick, rfl, rfl⟩
/-- The same run for `done`, at its second state. -/
theorem wit_DrainHandsOverTheCapture_done : drainable.done = true := by decide +kernel

/-- A command dropped, and then the heartbeat alone. -/
def oneCommand : State := stuck (queued 0x5A s0)

theorem wit_DrainHandsOverTheCapture_command :
    FairRun (fairSt oneCommand (stuck s0) (stuck s0)) (fairEv .dispatch (.tick {})) ∧ oneCommand.iq ≠ [] ∧
    (∀ m, (fairSt oneCommand (stuck s0) (stuck s0) m).sweepState = .idle) := by
  have hw : Waiting (stuck s0) := by constructor <;> decide
  refine ⟨fairRun rfl rfl hw rfl, by decide, fun m => ?_⟩
  match m with
  | 0 => rfl
  | 1 => rfl
  | m + 2 =>
    show (beatSt (stuck s0) m).sweepState = .idle
    induction m with
    | zero => rfl
    | succ m ih => rw [beatSt]; split <;> exact ih
theorem inv_oneCommand : Inv oneCommand := by
  constructor
  case spec => constructor <;> decide
  case rx => constructor <;> decide
  all_goals decide

theorem wit_DisabledEventHolds_run : Run (fairSt lastTick drainable handedOver) (fairEv (.tick {}) .drain) :=
  wit_NoSweepCancellation_fair.1

/-- A quiescent block, a byte at its Link. -/
def quiet : State := { s0 with linkRx := [0x51] }

theorem inv_quiet : Inv quiet := by
  constructor
  case spec => constructor <;> decide
  case rx => constructor <;> decide
  all_goals decide

theorem wit_QuiescentAwaitsTheEnvironment : Inv quiet ∧ quiet.quiescent = true ∧ enabled .rxByte quiet = true :=
  ⟨inv_quiet, by decide, by decide⟩


theorem inv_u0 : Inv u0 := by
  constructor
  case spec => constructor <;> decide
  case rx => constructor <;> decide
  all_goals decide

theorem wit_QuiescentAwaitsTheEnvironment_posts : Inv u0 ∧ u0.quiescent = true ∧ enabled .rxExpire u0 = true ∧
    enabled (.infoPost .ok) u0 = true := ⟨inv_u0, by decide, by decide, by decide⟩

end Sys2Proof.Tests
end

/-! SUPPORT. Who reads `cap` (`spec/20_memory.md` R55): TX_BEGIN of a `Sweep` request and nothing else. Every other event does
the same whatever `cap` holds, and the invariants of `spec/10_state.md` R36 keep that one reader away from an armed DMA. -/

namespace Sys2Proof.Machine

/-! ### The operations and `cap` -/

/-- No enabling condition reads `cap`. -/
theorem enabled_withCap (e : Event) (s : State) (m : Mem 16) : enabled e { s with cap := m } = enabled e s := by
  cases e <;> rfl

/-- Only a `Sweep` request has an instruction made of what `cap` holds. -/
theorem requestInstr_withCap (s : State) (m : Mem 16) {q : TxRequest} (hq : q ≠ .sweep) :
    requestInstr { s with cap := m } q = requestInstr s q := by
  cases q with
  | sweep => exact absurd rfl hq
  | heartbeat => rfl
  | status ev => rfl
  | text t => rfl

/-- Where no LOAD and no START is accepted, a command acknowledges or does nothing (`spec/43_command_dispatch.md` R171, R175,
R176). -/
theorem exec_command_of_active (i : Instruction) {s : State} (h : s.acceptsSweep = false) :
    exec (commandInstr i) s = .next (if i.cmd = 0x30 then s.acknowledge else s) := by
  simp only [commandInstr]
  split
  · rfl
  split
  · simp [exec, execLoadVce, h]
  split
  · simp [exec, execLoadVbe, h]
  split
  · simp [exec, execStart, h]
  · rfl

/-- In an active sweep DISPATCH does not read `cap`. -/
theorem dispatch_withCap_of_active {s s' : State} (m : Mem 16) (ha : s.acceptsSweep = false)
    (h : dispatch s = .next s') : ∃ m', dispatch { s with cap := m } = .next { s' with cap := m' } := by
  simp only [dispatch] at h ⊢
  cases hq : s.iq with
  | nil =>
    simp only [hq] at h ⊢
    cases h
    exact ⟨m, by rw [hq]⟩
  | cons i q =>
    have ha' (c : Mem 16) : State.acceptsSweep { s with iq := q, cap := c } = false := ha
    simp only [hq] at h ⊢
    rw [exec_command_of_active i (ha' s.cap)] at h
    rw [exec_command_of_active i (ha' m)]
    cases h
    exact ⟨m, by split <;> rfl⟩

/-- No effect reads `cap` while no `Sweep` request is pending, up to what it leaves in `cap`. -/
theorem Effect.withCap {e : Event} {s s' : State} (h : Effect e s s') (m : Mem 16) (hsw : .sweep ∉ s.txq)
    (hne : e ≠ .dispatch) : ∃ m', Effect e { s with cap := m } { s' with cap := m' } := by
  have ha : State.activeCh { s with cap := m } = s.activeCh := rfl
  cases h with
  | linkRx => exact ⟨m, .linkRx _ { s with cap := m }⟩
  | rxStored s b l x h1 h2 h3 h4 h5 => exact ⟨m, .rxStored { s with cap := m } b l x h1 h2 h3 h4 h5⟩
  | rxOverflow s b l x h1 h2 h3 h4 h5 => exact ⟨m, .rxOverflow { s with cap := m } b l x h1 h2 h3 h4 h5⟩
  | rxDecoded s f i h1 h2 h3 h4 => exact ⟨m, .rxDecoded { s with cap := m } f i h1 h2 h3 h4⟩
  | rxRejected s f i h1 h2 h3 => exact ⟨m, .rxRejected { s with cap := m } f i h1 h2 h3⟩
  | rxExpired s x h1 h2 h3 => exact ⟨m, .rxExpired { s with cap := m } x h1 h2 h3⟩
  | commandDropped => exact absurd rfl hne
  | commandAck => exact absurd rfl hne
  | commandArgError => exact absurd rfl hne
  | commandVce => exact absurd rfl hne
  | commandVbe => exact absurd rfl hne
  | armVce => exact absurd rfl hne
  | armVbe => exact absurd rfl hne
  | armReady s h1 => exact ⟨m, .armReady { s with cap := m } h1⟩
  | armFailed s r st h1 h2 =>
    exact ⟨m, by simpa only [State.emitDac_eq, ha] using Effect.armFailed { s with cap := m } r st h1 h2⟩
  | tickFirstVce s ic c g w u h1 h2 h3 h4 h5 h6 h7 =>
    exact ⟨_, by
      simpa only [State.emitDac_eq, ha] using Effect.tickFirstVce { s with cap := m } ic c g w u h1 h2 h3 h4 h5 h6 h7⟩
  | tickFirstVbe s ic c w u h1 h2 h3 h4 h5 h6 =>
    exact ⟨_, by
      simpa only [State.emitDac_eq, ha] using Effect.tickFirstVbe { s with cap := m } ic c w u h1 h2 h3 h4 h5 h6⟩
  | tickMiddle s ic c w h1 h2 h3 h4 h5 =>
    exact ⟨_, by simpa only [State.emitDac_eq, ha] using Effect.tickMiddle { s with cap := m } ic c w h1 h2 h3 h4 h5⟩
  | tickLastVce s ic c w h1 h2 h3 h4 h5 =>
    exact ⟨_, by simpa only [State.emitDac_eq, ha] using Effect.tickLastVce { s with cap := m } ic c w h1 h2 h3 h4 h5⟩
  | tickLastVbe s ic c w h1 h2 h3 h4 h5 =>
    exact ⟨_, by simpa only [State.emitDac_eq, ha] using Effect.tickLastVbe { s with cap := m } ic c w h1 h2 h3 h4 h5⟩
  | capWrite s v h1 h2 h3 => exact ⟨_, .capWrite { s with cap := m } v h1 h2 h3⟩
  | drained s h1 h2 => exact ⟨m, .drained { s with cap := m } h1 h2⟩
  | txBegun s k q h1 h2 h3 =>
    have hq : q ≠ .sweep := fun he => hsw (he ▸ List.mem_of_getElem? h3)
    exact ⟨m, by simpa only [requestInstr_withCap s m hq] using Effect.txBegun { s with cap := m } k q h1 h2 h3⟩
  | txByteSent s b l h1 h2 => exact ⟨m, .txByteSent { s with cap := m } b l h1 h2⟩
  | txFinished s h1 h2 => exact ⟨m, .txFinished { s with cap := m } h1 h2⟩
  | hbSent s h1 => exact ⟨m, .hbSent { s with cap := m } h1⟩
  | hbTaken s h1 h2 => exact ⟨m, .hbTaken { s with cap := m } h1 h2⟩
  | hbMissed s h1 h2 h3 => exact ⟨m, .hbMissed { s with cap := m } h1 h2 h3⟩
  | hbLost s h1 h2 h3 => exact ⟨m, .hbLost { s with cap := m } h1 h2 h3⟩
  | textReq s t => exact ⟨m, .textReq { s with cap := m } t⟩
  | statusReq s ev => exact ⟨m, .statusReq { s with cap := m } ev⟩
  | infoPosted s ev h1 h2 => exact ⟨m, .infoPosted { s with cap := m } ev h1 h2⟩
  | rst s => exact ⟨[], .rst { s with cap := m }⟩

/-- In an active sweep with no `Sweep` request pending, an event does the same whatever `cap` holds, up to `cap` itself. -/
theorem runEvent_withCap_of_active {e : Event} {s s' : State} (m : Mem 16) (ha : s.acceptsSweep = false)
    (hsw : .sweep ∉ s.txq) (h : runEvent e s = .next s') :
    ∃ m', runEvent e { s with cap := m } = .next { s' with cap := m' } := by
  rcases runEvent_effect h with ⟨hd, rfl⟩ | ⟨he, hE⟩
  · exact ⟨m, runEvent_disabled (by rw [enabled_withCap, hd])⟩
  have he' : enabled e { s with cap := m } = true := by rw [enabled_withCap, he]
  by_cases hdi : e = .dispatch
  · subst hdi
    rw [runEvent_enabled he] at h
    rw [runEvent_enabled he']
    exact dispatch_withCap_of_active m ha h
  · obtain ⟨m', hm⟩ := hE.withCap m hsw hdi
    exact ⟨m', runEvent_of_effect he' hm hdi⟩

/-! ### What the invariants say of the reader -/

/-- A machine that is running a sweep has no `Sweep` request (`spec/10_state.md` R36, I-f). -/
theorem SpecInv.sweep_notMem_of_running {s : State} (hi : SpecInv s) (hr : s.sweepState = .running) : .sweep ∉ s.txq :=
  fun hm => by simpa [hr] using hi.sweep_request.mp (.inl hm)

/-- In `Complete` the DMA is disarmed, as everywhere outside `Running` (R36, I-c). -/
theorem SpecInv.disarmed_of_complete {s : State} (hi : SpecInv s) (hc : s.sweepState = .complete) :
    s.dmaArmed = false := by
  cases ha : s.dmaArmed with
  | false => rfl
  | true => simpa [hc] using (hi.armed_running ha).1

/-- Settles O54: an armed machine is in `Running`, where no command reaches the request and no `Sweep` request, the only reader
of `cap`, is pending. -/
theorem capNeverReadWhileArmed : Obligations.CapNeverReadWhileArmed := by
  refine ⟨fun s s' e m hi harm h => ?_, fun s hi hreq => ?_⟩
  · have hr : s.sweepState = .running := (hi.spec.armed_running harm).1
    exact runEvent_withCap_of_active m (by simp [State.acceptsSweep, hr]) (hi.spec.sweep_notMem_of_running hr) h
  · have hc : s.sweepState = .complete := hi.spec.sweep_request.mp hreq
    exact ⟨hc, hi.spec.disarmed_of_complete hc⟩

end Sys2Proof.Machine

/-! SUPPORT. The codec's frame-level statements (`spec/40_frame_codec.md` parts B and C): which error DECODE names for a bad
header and for a wrong declared length, and the format ENCODE writes. -/

namespace Sys2Proof

open Config

/-! ### Which check names which error -/

/-- The checks on the body name no error but their own two (`spec/40_frame_codec.md` R109, R111). -/
theorem decodeBody_eq_error {p : GivenParams} {body : List Byte} {e : DecodeError} (h : decodeBody p body = .error e) :
    e = .emptyBody ∨ e = .argTooLong := by
  cases body with
  | nil => cases h; exact .inl rfl
  | cons cmd arg =>
    simp only [decodeBody] at h
    split at h
    · cases h; exact .inr rfl
    · cases h

/-- Past the declared length the header is not looked at again. -/
theorem decodeTail_ne_badHeader (p : GivenParams) (n : Nat) (r : List Byte) : decodeTail p n r ≠ .error .badHeader := by
  simp only [decodeTail]
  split
  · simp
  · split
    · simp
    · intro h
      rcases decodeBody_eq_error h with he | he <;> cases he

/-- Behind the header no check names `BadHeader`; in front of it none but the first is reached (R104, R105). -/
theorem decodeFrame_eq_badHeader {p : GivenParams} {f : List Byte} :
    decodeFrame p f = .error .badHeader ↔ f.take p.hdrIn.length ≠ p.hdrIn := by
  simp only [decodeFrame]
  by_cases hf : f.take p.hdrIn.length = p.hdrIn
  · refine iff_of_false ?_ (not_not_intro hf)
    rw [if_neg (not_not_intro hf)]
    split
    · simp
    · split
      · exact decodeTail_ne_badHeader _ _ _
      · simp
  · exact iff_of_true (if_pos hf) hf

/-- DECODE on a frame whose parts are all there: check (c), then the checks on the body. -/
theorem decodeFrame_frame {p : GivenParams} {d body : List Byte} (rest : List Byte) (hd : isNumber d = true)
    (hs : p.sep ∉ d) (ht : p.termIn ∉ body) :
    decodeFrame p (p.hdrIn ++ d ++ [p.sep] ++ body ++ [p.termIn] ++ rest) =
      if body.length ≠ parseDec d then .error .lengthMismatch else decodeBody p body := by
  have hparts := decodeFrame_parts (body ++ p.termIn :: rest) hs
  rw [if_pos hd, decodeTail_parts (parseDec d) rest ht] at hparts
  simpa only [List.append_assoc, List.cons_append, List.nil_append] using hparts

/-- R108: such a frame is a `LengthMismatch` exactly where its body does not have the declared length. -/
theorem decodeFrame_eq_lengthMismatch {p : GivenParams} {d body : List Byte} (rest : List Byte) (hd : isNumber d = true)
    (hs : p.sep ∉ d) (ht : p.termIn ∉ body) :
    decodeFrame p (p.hdrIn ++ d ++ [p.sep] ++ body ++ [p.termIn] ++ rest) = .error .lengthMismatch ↔
      body.length ≠ parseDec d := by
  rw [decodeFrame_frame rest hd hs ht]
  by_cases hl : body.length = parseDec d
  · refine iff_of_false ?_ (not_not_intro hl)
    rw [if_neg (not_not_intro hl)]
    intro h
    rcases decodeBody_eq_error h with he | he <;> cases he
  · exact iff_of_true (if_pos hl) hl

/-! ### The obligations -/

/-- Settles O8: the check of the declared length decides, and no later check names its error; the two examples declare 3 and 1
for the body `a1`. -/
theorem lengthMismatchBothWays : Obligations.LengthMismatchBothWays := by
  refine ⟨fun p d body rest hd hs ht => decodeFrame_eq_lengthMismatch rest hd hs ht, ?_, ?_⟩
  · exact (decodeFrame_eq_lengthMismatch (p := given) (d := [0x33]) (body := [0x61, 0x31]) []
      (by decide) (by decide) (by decide)).mpr (by decide)
  · exact (decodeFrame_eq_lengthMismatch (p := given) (d := [0x31]) (body := [0x61, 0x31]) []
      (by decide) (by decide) (by decide)).mpr (by decide)

/-- Settles O9: the header is checked first and by no one else, and a legal configuration's has three bytes. -/
theorem badHeaderExactly : Obligations.BadHeaderExactly := by
  have hgiven (f : List Byte) : decodeFrame given f = .error .badHeader ↔ f.take 3 ≠ [0x51, 0x54, 0x3A] :=
    decodeFrame_eq_badHeader
  refine ⟨fun p f => ?_, hgiven, fun r => ⟨?_, ?_⟩⟩
  · rw [decodeFrame_eq_badHeader, p.legal.hdrIn_length]
  · exact (hgiven _).mpr (by simp)
  · exact (hgiven _).mpr (by simp)

/-- Settles O14: ENCODE is the format of R115 written out; the two examples are the payloads empty and `c,0`. -/
theorem encodeWritesTheFormat : Obligations.EncodeWritesTheFormat := by
  have hformat (p : GivenParams) (l : List Byte) :
      encodeFrame p l = p.hdrOut ++ dec l.length ++ [p.sep] ++ l ++ p.termOut := rfl
  exact ⟨hformat, hformat given, (hformat given []).trans (by decide),
    (hformat given [0x63, 0x2C, 0x30]).trans (by decide)⟩

end Sys2Proof

/-! SUPPORT. What PLAN leaves in `ramp` (`spec/41_sweep_planner.md`). -/

namespace Sys2Proof.Machine

open Config

/-- PLAN with R4's values: every entry of the table is the formula of R132. -/
theorem read_plan_of_given {s : State} (hp : s.cfg.toGivenParams = given) (m : Nat) {i : Nat} (hi : i ≤ 200) :
    Mem.read (s.plan m).ramp i = some (BitVec.ofNat 12 ((8190 * m * i + 1000000) / 2000000)) := by
  have hlen : i < given.rampLen := Nat.lt_succ_of_le hi
  rw [State.plan_ramp, hp, Mem.read_fill, rampTable_get m hlen, rampCode_given]

end Sys2Proof.Machine

namespace Sys2Proof

open Machine

/-- Settles O18: 50 tenths are 5000 millivolts, for which R132's formula gives 0 at the start and full scale at the end. -/
theorem fullScaleScenario : Obligations.FullScaleScenario := by
  intro s hp
  exact ⟨read_plan_of_given hp 5000 (Nat.zero_le 200), read_plan_of_given hp 5000 (Nat.le_refl 200)⟩

end Sys2Proof

/-! SUPPORT. DISPATCH (`spec/43_command_dispatch.md` R170): when it is enabled, what it runs, and that no command reaches
`iq`. -/

namespace Sys2Proof.Machine

/-! ### The event -/

theorem dispatcherFree_iff {s : State} :
    s.dispatcherFree = true ↔ s.sweepState ≠ .arming ∧ s.sweepState ≠ .complete := by
  simp [State.dispatcherFree]

theorem enabled_dispatch_iff {s : State} : enabled .dispatch s = true ↔ s.iq ≠ [] ∧ s.dispatcherFree = true := by
  simp [enabled]

theorem dispatch_cons {s : State} {i : Instruction} {q : List Instruction} (hq : s.iq = i :: q) :
    dispatch s = exec (commandInstr i) { s with iq := q } := by
  simp only [dispatch, hq]

/-- A free DISPATCHER takes the head of `iq` and runs it (R170). -/
theorem runEvent_dispatch {s : State} {i : Instruction} {q : List Instruction} (hq : s.iq = i :: q)
    (hf : s.dispatcherFree = true) : runEvent .dispatch s = exec (commandInstr i) { s with iq := q } := by
  have he : enabled .dispatch s = true := enabled_dispatch_iff.mpr ⟨by simp [hq], hf⟩
  rw [runEvent_enabled he]
  exact dispatch_cons hq

theorem step_dispatch {s : State} {r : List Event} {i : Instruction} {q : List Instruction}
    (hs : s.sched = .dispatch :: r) (hq : s.iq = i :: q) (hf : s.dispatcherFree = true) :
    step s = exec (commandInstr i) { s with sched := r, iq := q } := by
  rw [step_cons hs]
  exact runEvent_dispatch (s := { s with sched := r }) hq hf

/-! ### The instruction and `iq` -/

theorem commandInstr_of_unrecognized {c : Byte} (a : List Byte) (hAck : c ≠ 0x30) (hVce : c ≠ 0x61) (hVbe : c ≠ 0x62)
    (hStart : c ≠ 0x63) : commandInstr ⟨c, a⟩ = .unrecognized c a := by
  simp only [commandInstr, if_neg hAck, if_neg hVce, if_neg hVbe, if_neg hStart]

@[simp] theorem State.arm_iq (s : State) : s.arm.iq = s.iq := by
  rw [arm_eq]
  cases s.reqKind with
  | vce => rfl
  | vbe => exact State.emitDac_iq s s.cfg.chVbe 0

/-- No command puts an Instruction back into `iq`, or takes another out (R170). -/
theorem exec_command_iq {s t : State} {i : Instruction} (h : exec (commandInstr i) s = .next t) : t.iq = s.iq := by
  rcases exec_command h with rfl | rfl | ⟨-, rfl⟩ | ⟨-, a, g, c, -, -, -, rfl⟩ | ⟨-, rfl⟩ | ⟨-, -, -, rfl⟩
  case inr.inr.inr.inr.inr => exact State.arm_iq s
  all_goals rfl

end Sys2Proof.Machine

namespace Sys2Proof

open Machine

/-- Settles O1: the event's condition, its step and its selection are read off their definitions; that a command is consumed
once is that no ending of a command touches `iq`. -/
theorem dispatchRunsHeadOfQueue : Obligations.DispatchRunsHeadOfQueue := by
  refine ⟨fun s => ?_, fun s r i q hs hq hna hnc => ?_, fun s t i h => exec_command_iq h, fun a => ?_, fun c a => ?_⟩
  · rw [enabled_dispatch_iff, dispatcherFree_iff]
  · exact step_dispatch hs hq (dispatcherFree_iff.mpr ⟨hna, hnc⟩)
  · exact ⟨rfl, rfl, rfl, rfl⟩
  · exact commandInstr_of_unrecognized a

end Sys2Proof

/-! SUPPORT. The timer interrupt (`spec/60_exceptions.md` R198): what enables it, and which effects change `timer_run`. -/

namespace Sys2Proof.Machine

/-- R198: `timer_run` is the only condition of a tick. -/
theorem enabled_tick_iff {s : State} {ic : InnerCaptures} : enabled (.tick ic) s = true ↔ s.timerRun = true := Iff.rfl

/-- Every effect keeps `timer_run`, except ARM_RESULT `Ready`, which starts the timer (R22), the tick at the last step, which
stops it (R204), and reset. Where an effect also writes a DAC channel, that transfer keeps it too. -/
theorem Effect.timerRun_cases {e : Event} {s s' : State} (h : Effect e s s') :
    s'.timerRun = s.timerRun ∨
    (e = .armResult .ready ∧ s.sweepState = .arming ∧ s'.timerRun = true) ∨
    (e.isTick = true ∧ s.stepIndex.toNat = s.cfg.rampSteps ∧ s'.timerRun = false) ∨ e = .rst := by
  cases h with
  | armReady s arming => exact .inr (.inl ⟨rfl, arming, rfl⟩)
  | tickLastVce s ic c w _ _ last => exact .inr (.inr (.inl ⟨rfl, last, rfl⟩))
  | tickLastVbe s ic c w _ _ last => exact .inr (.inr (.inl ⟨rfl, last, rfl⟩))
  | rst => exact .inr (.inr (.inr rfl))
  | armVbe | armFailed | tickFirstVce | tickFirstVbe | tickMiddle => exact .inl (State.emitDac_timerRun ..)
  | _ => exact .inl rfl

end Sys2Proof.Machine

namespace Sys2Proof

open Machine

/-- Settles O30: a disabled event changes nothing, and of the effects of an enabled one only three change `timer_run`. -/
theorem timerRunIsTheOnlyMask : Obligations.TimerRunIsTheOnlyMask := by
  refine ⟨fun s ic => enabled_tick_iff, fun s s' e h hne => ?_⟩
  rcases runEvent_effect h with ⟨-, rfl⟩ | ⟨-, hE⟩
  · exact absurd rfl hne
  · exact hE.timerRun_cases.resolve_left hne

end Sys2Proof

/-! SUPPORT. The invariant (`spec/10_state.md` R36 and what makes it inductive): it holds after every reset, every effect of an
event keeps it, and under it no event faults. -/

namespace Sys2Proof.Machine

open Config

/-! ### The receive buffer -/

/-- The last byte is read where it lies inside the buffer and holds a value. -/
theorem lastByte_eq_some {s : State} {b : Byte} :
    s.lastByte = .ok (some b) ↔
      s.rxLen ≠ 0 ∧ s.rxLen.toNat - 1 < s.cfg.frameCap ∧ Mem.read s.rxBuf (s.rxLen.toNat - 1) = some b := by
  simp only [State.lastByte]
  split
  · simp [*]
  · rw [← Mem.get_ok (outside := .rxBufIndex) (unset := .rxBufUnspecified)]
    split <;> simp_all

/-- With no byte held there is nothing to say of the buffer. -/
theorem RxInv.of_empty {s : State} (h : s.rxLen = 0) : RxInv s where
  len_le := by simp [h]
  stored := by simp [h]
  full_terminated := by
    have := s.cfg.legal.frameCap_min
    have h0 : s.rxLen.toNat = 0 := by simp [h]
    omega

/-- A byte stored at `rx_len` that does not fill the buffer, or ends the frame (`spec/40_frame_codec.md` R101). -/
theorem RxInv.store {s : State} {b : Byte} (h : RxInv s) (l : List Byte) (room : s.rxLen.toNat < s.cfg.frameCap)
    (fits : b = s.cfg.termIn ∨ s.rxLen.toNat + 1 < s.cfg.frameCap) :
    RxInv { s with linkRx := l, rxBuf := Mem.write s.rxBuf s.rxLen.toNat b, rxLen := s.rxLen + 1 } where
  len_le := by simp only [rxLen_succ room]; exact room
  stored := by
    intro i hi
    simp only [rxLen_succ room] at hi
    simp only [Mem.read_write]
    split
    · rfl
    · exact h.stored i (by omega)
  full_terminated := by
    intro hfull
    simp only [rxLen_succ room] at hfull
    have hb : b = s.cfg.termIn := fits.resolve_right (by omega)
    have hne : s.rxLen + 1 ≠ 0 := fun h0 => absurd (rxLen_succ room) (by rw [h0]; simp)
    refine lastByte_eq_some.mpr ⟨hne, ?_⟩
    simp only [rxLen_succ room, Nat.add_sub_cancel, Mem.read_write_same, hb]
    exact ⟨room, trivial⟩

/-! ### The capture memory -/

/-- What is taken at a point of a STEP never passes the end of `cap`. -/
theorem captured_fits {s : State} (vs : List Sample) (h : s.dmaWrIdx ≤ s.cfg.capLen) :
    s.dmaWrIdx + (s.captured vs).length ≤ s.cfg.capLen := by
  rcases captured_room vs s with he | ⟨-, -, hr⟩
  · simpa [he] using h
  · exact hr

/-- The captures at a point of a STEP keep `cap` canonical. -/
theorem wf_writeRun_captured {s : State} (vs : List Sample) (h : Mem.wf s.cfg.capLen s.cap = true) :
    Mem.wf s.cfg.capLen (Mem.writeRun s.cap s.dmaWrIdx (s.captured vs)) = true :=
  Mem.wf_writeRun _ h ((captured_room vs s).imp_right fun hr => hr.2.2)

/-- The captures after the start of tick 0 keep `cap` canonical. -/
theorem wf_writeRun_take {n : Nat} {m : Mem 16} (vs : List Sample) (h : Mem.wf n m = true) :
    Mem.wf n (Mem.writeRun m 0 (vs.take n)) = true :=
  Mem.wf_writeRun _ h (.inr (by simp))

/-! ### What the invariant says of a state -/

namespace Inv

variable {s : State}

/-- The timer runs in `Running` alone, inside the table (R36, I-a and I-b). -/
theorem running_of_timer (h : Inv s) (ht : s.timerRun = true) : s.sweepState = .running := h.spec.timer_running ht

/-- Outside `Running` and `Draining` the timer, the DMA, the ADC and the completion signal are off. -/
theorem quiet (h : Inv s) (hr : s.sweepState ≠ .running) (hd : s.sweepState ≠ .draining) :
    ¬ s.timerRun = true ∧ ¬ s.dmaArmed = true ∧ ¬ s.adcRun = true ∧ ¬ s.done = true := by
  have harm : ¬ s.dmaArmed = true := fun ha => hr (h.spec.armed_running ha).1
  exact ⟨mt h.spec.timer_running hr, harm, mt h.adc_armed harm, mt h.spec.done_draining hd⟩

/-- While another state than `Complete` holds, no `Sweep` request is pending or served (R36, I-f). -/
theorem no_sweep (h : Inv s) (hc : s.sweepState ≠ .complete) : .sweep ∉ s.txq ∧ s.txCur ≠ some .sweep :=
  not_or.mp (mt h.spec.sweep_request.mp hc)

/-- The invariant says nothing of the schedule. -/
theorem withSchedule (h : Inv s) (r : List Event) (n : Nat) : Inv { s with sched := r, draws := n } :=
  { h with spec := { h.spec with }, rx := { h.rx with } }

/-! ### The invariant after reset -/

theorem resetWith (cfg : Params) : Inv (State.resetWith cfg) where
  spec := by constructor <;> simp [State.resetWith]
  rx := RxInv.of_empty rfl
  ramp_loaded := by simp [State.resetWith]
  amp_le := by simp [State.resetWith]
  gain_lt := by simp [State.resetWith]
  draining_done := by simp [State.resetWith]
  arming_index := by simp [State.resetWith]
  capture_window := by simp [State.resetWith]
  adc_armed := by simp [State.resetWith]
  amp_gate := by simp [State.resetWith]
  dac_gate := by simp [State.resetWith]
  dac_inactive := by simp only [State.inactiveCode, State.resetWith]; split <;> rfl
  index_le := by simp [State.resetWith]
  tx_current := by simp [State.resetWith]
  tx_idle := by simp [State.resetWith]
  sweep_once := by simp [State.resetWith]
  iq_le := by simp [State.resetWith]
  args_le := by simp [State.resetWith]
  miss_lt := cfg.legal.hbMissN_min
  rxBuf_wf := rfl
  ramp_wf := rfl
  cap_wf := rfl

theorem applyReset (s : State) : Inv s.applyReset :=
  { resetWith s.cfg with spec := { (resetWith s.cfg).spec with }, rx := { (resetWith s.cfg).rx with } }

/-! ### Commands -/

/-- Both DAC channels are at 0 outside `Running`. -/
theorem dac_zero_of_accepts (h : Inv s) (ha : s.acceptsSweep = true) : s.dacCode0 = 0 ∧ s.dacCode1 = 0 :=
  h.dac_gate (by rcases acceptsSweep_iff.mp ha with hs | hs <;> simp [hs])

/-- The head of `iq` is taken. -/
theorem takeHead {i : Instruction} {q : List Instruction} (h : Inv s) (head : s.iq = i :: q) : Inv { s with iq := q } :=
  { h with
    spec := { h.spec with }
    rx := { h.rx with }
    iq_le := by have := h.iq_le; rw [head] at this; exact (Nat.le_succ _).trans this
    args_le := fun j hj => h.args_le j (by rw [head]; exact List.mem_cons_of_mem i hj) }

/-- An event is posted, or a flag of the heartbeat's is set. -/
theorem report (h : Inv s) (o : List StatusEvent) (ack conn : Bool) :
    Inv { s with statusOut := o, hbAck := ack, connected := conn } :=
  { h with spec := { h.spec with }, rx := { h.rx with } }

/-- A loaded VCE request is in range, with its table (`spec/43_command_dispatch.md` R172). -/
theorem loadVce {a g c : Nat} (h : Inv s) (accepts : s.acceptsSweep = true) (amp : a ≤ s.cfg.ampMax)
    (gain : g < s.cfg.gainCount) : Inv (s.loadVce a g c) := by
  have hamp : (BitVec.ofNat 6 a).toNat = a := Nat.mod_eq_of_lt (by have := s.cfg.legal.ampMax_max; omega)
  have hgain : (BitVec.ofNat 8 g).toNat = g := Nat.mod_eq_of_lt (by have := s.cfg.legal.gainCount_max; omega)
  obtain ⟨h0, h1⟩ := h.dac_zero_of_accepts accepts
  exact { h with
    spec := { h.spec with active_valid := fun _ => rfl }
    rx := { h.rx with }
    ramp_loaded := fun _ => by simp only [loadVce_eq, State.rampTarget, hamp]
    amp_le := by rw [loadVce_eq, hamp]; exact amp
    gain_lt := fun _ _ => by rw [loadVce_eq, hgain]; exact gain
    dac_inactive := by simp only [State.inactiveCode, loadVce_eq, h0, h1]; split <;> rfl
    ramp_wf := Mem.wf_fill (rampTable_length _).le }

/-- A loaded VBE request, with its table (R173). -/
theorem loadVbe (h : Inv s) (accepts : s.acceptsSweep = true) :
    Inv { s with reqKind := .vbe, ramp := Mem.fill (rampTable s.cfg.toGivenParams s.cfg.vbeTargetMv), reqValid := true } := by
  obtain ⟨h0, h1⟩ := h.dac_zero_of_accepts accepts
  exact { h with
    spec := { h.spec with active_valid := fun _ => rfl }
    rx := { h.rx with }
    ramp_loaded := fun _ => rfl
    gain_lt := fun _ hk => by cases hk
    dac_inactive := by simp only [State.inactiveCode, h0, h1]; split <;> rfl
    ramp_wf := Mem.wf_fill (rampTable_length _).le }

/-- ARM from a state without a sweep (`spec/42_acquisition_fsm.md` R144), whatever the front end's switches are set to. -/
theorem arm (h : Inv s) (accepts : s.acceptsSweep = true) (valid : s.reqValid = true) (relay gainSw : Bool)
    (p : List PortCall) :
    Inv { s with
      stepIndex := 0, ampEn := true, relay := relay, gainSw := gainSw, ports := p, sweepState := .arming } := by
  have hst : s.sweepState ≠ .running ∧ s.sweepState ≠ .draining ∧ s.sweepState ≠ .complete := by
    rcases acceptsSweep_iff.mp accepts with hs | hs <;> simp [hs]
  obtain ⟨ht, hd, -, hdone⟩ := h.quiet hst.1 hst.2.1
  exact { h with
    spec := { h.spec with
      running_timer := nofun
      timer_running := fun h' => absurd h' ht
      armed_running := fun h' => absurd h' hd
      done_draining := fun h' => absurd h' hdone
      active_valid := fun _ => valid
      sweep_request := iff_of_false (mt h.spec.sweep_request.mp hst.2.2) nofun }
    rx := { h.rx with }
    draining_done := nofun
    arming_index := fun _ => rfl
    capture_window := nofun
    amp_gate := by simp
    dac_gate := fun _ => h.dac_zero_of_accepts accepts
    index_le := by simp }

/-- Any channel driven to 0 while both are at 0. -/
theorem emitDac_zero (h : Inv s) (ch : Channel) (h0 : s.dacCode0 = 0) (h1 : s.dacCode1 = 0) : Inv (s.emitDac ch 0) := by
  rw [State.emitDac_eq]
  exact { h with
    spec := { h.spec with }
    rx := { h.rx with }
    dac_gate := fun _ => by simp [h0, h1]
    dac_inactive := by simp only [State.inactiveCode, h0, h1, ite_self]; split <;> rfl }

/-! ### The sweep -/

/-- The front end is ready (R146). -/
theorem armReady (h : Inv s) (arming : s.sweepState = .arming) : Inv { s with timerRun := true, sweepState := .running } := by
  have hi : s.stepIndex.toNat = 0 := by simp [h.arming_index arming]
  obtain ⟨-, hd, -, hdone⟩ := h.quiet (by simp [arming]) (by simp [arming])
  exact { h with
    spec := { h.spec with
      running_timer := fun _ => ⟨rfl, by simp [hi, rampLen_eq]⟩
      timer_running := fun _ => rfl
      armed_running := fun h' => absurd h' hd
      done_draining := fun h' => absurd h' hdone
      active_valid := fun _ => h.spec.active_valid (by simp [arming])
      sweep_request := iff_of_false (mt h.spec.sweep_request.mp (by simp [arming])) nofun }
    rx := { h.rx with }
    draining_done := nofun
    arming_index := nofun
    capture_window := fun _ h1 => by simp [hi] at h1
    amp_gate := iff_of_true (h.amp_gate.mpr (.inl arming)) (.inr rfl)
    dac_gate := fun hne => absurd rfl hne }

/-- ARM has failed (R146): the state left is one without a sweep. -/
theorem armFailed {st : SweepState} (h : Inv s) (arming : s.sweepState = .arming) (hst : st = .faulted ∨ st = .idle)
    (o : List StatusEvent) : Inv { s with ampEn := false, sweepState := st, statusOut := o } := by
  obtain ⟨ht, hd, -, hdone⟩ := h.quiet (by simp [arming]) (by simp [arming])
  have hsw := mt h.spec.sweep_request.mp (show s.sweepState ≠ .complete by simp [arming])
  have hdac := h.dac_gate (show s.sweepState ≠ .running by simp [arming])
  rcases hst with rfl | rfl <;>
  exact { h with
    spec := { h.spec with
      running_timer := nofun
      timer_running := fun h' => absurd h' ht
      armed_running := fun h' => absurd h' hd
      done_draining := fun h' => absurd h' hdone
      active_valid := nofun
      sweep_request := iff_of_false hsw nofun }
    rx := { h.rx with }
    draining_done := nofun
    arming_index := nofun
    capture_window := nofun
    amp_gate := by simp
    dac_gate := fun _ => hdac }

/-- A tick writes the active channel and leaves the other at 0. -/
theorem inactive_emitDac (h : Inv s) (c : DacCode) : (s.emitDac s.activeCh c).inactiveCode = 0 := by
  have h0 := h.dac_inactive
  simp only [State.inactiveCode, activeCh_emitDac, State.emitDac_dacCode0, State.emitDac_dacCode1] at h0 ⊢
  cases hch : s.activeCh <;> simpa [hch] using h0

/-- The ramp code of a tick that does not end the sweep (R148, 1). -/
theorem emitDac_running (h : Inv s) (hr : s.sweepState = .running) (c : DacCode) : Inv (s.emitDac s.activeCh c) := by
  have h0 := h.inactive_emitDac c
  rw [State.emitDac_eq] at h0 ⊢
  exact { h with
    spec := { h.spec with }
    rx := { h.rx with }
    dac_gate := fun hne => absurd hr hne
    dac_inactive := h0 }

/-- Tick 0 opens the capture (R149). -/
theorem openCapture (h : Inv s) (hr : s.sweepState = .running) (g : Byte) (m : Mem 16) (n : Nat) (p : List PortCall)
    (hm : Mem.wf s.cfg.capLen m = true) (hn : n ≤ s.cfg.capLen) :
    Inv { s with
      gainVal := g, cap := m, dmaWrIdx := n, dmaArmed := true, adcRun := true, stepIndex := 1, ports := p } := by
  have hlen : 1 < s.cfg.rampLen := Nat.lt_succ_of_le s.cfg.legal.rampSteps_pos
  exact { h with
    spec := { h.spec with
      running_timer := fun _ => ⟨(h.spec.running_timer hr).1, hlen⟩
      armed_running := fun _ => ⟨hr, le_rfl⟩
      dma_index := hn }
    rx := { h.rx with }
    arming_index := fun h' => by simp [hr] at h'
    capture_window := fun _ _ => ⟨rfl, rfl⟩
    adc_armed := fun _ => rfl
    index_le := hlen.le
    cap_wf := hm }

/-- A capture, by CAP_WRITE or inside a STEP, changes `cap` and the write position alone (`spec/20_memory.md` R60). -/
theorem captured (h : Inv s) (m : Mem 16) (n : Nat) (p : List PortCall) (hm : Mem.wf s.cfg.capLen m = true)
    (hn : n ≤ s.cfg.capLen) : Inv { s with cap := m, dmaWrIdx := n, ports := p } :=
  { h with spec := { h.spec with dma_index := hn }, rx := { h.rx with }, cap_wf := hm }

/-- The index advances inside the sweep (R150). -/
theorem advance (h : Inv s) (hr : s.sweepState = .running) (low : 1 ≤ s.stepIndex.toNat)
    (high : s.stepIndex.toNat < s.cfg.rampSteps) : Inv { s with stepIndex := s.stepIndex + 1 } := by
  obtain ⟨ht, hlt⟩ := h.spec.running_timer hr
  have hsucc := stepIndex_succ hlt
  have hlen := rampLen_eq s.cfg.toGivenParams
  exact { h with
    spec := { h.spec with
      running_timer := fun _ => ⟨ht, by simp only [hsucc]; omega⟩
      armed_running := fun _ => ⟨hr, by simp only [hsucc]; omega⟩ }
    rx := { h.rx with }
    arming_index := fun h' => by simp [hr] at h'
    capture_window := fun _ _ => h.capture_window hr low
    index_le := by simp only [hsucc]; omega }

/-- The last tick closes the capture and gates the front end off (R151). -/
theorem closeCapture (h : Inv s) (hr : s.sweepState = .running) (g : Byte) (p : List PortCall) :
    Inv { s.emitDac s.activeCh 0 with
      stepIndex := BitVec.ofNat 8 s.cfg.rampLen, adcRun := false, dmaArmed := false, ampEn := false, gainVal := g,
      done := true, timerRun := false, sweepState := .draining, ports := p } := by
  have h0 := h.inactive_emitDac 0
  have hdac : (s.emitDac s.activeCh 0).dacCode0 = 0 ∧ (s.emitDac s.activeCh 0).dacCode1 = 0 := by
    have h1 := h.dac_inactive
    simp only [State.inactiveCode] at h1
    cases hch : s.activeCh <;> simp only [hch] at h1 <;> simp [h1]
  rw [State.emitDac_eq] at h0 hdac ⊢
  exact { h with
    spec := { h.spec with
      running_timer := nofun
      timer_running := nofun
      armed_running := nofun
      done_draining := fun _ => rfl
      active_valid := fun _ => h.spec.active_valid (by simp [hr])
      sweep_request := iff_of_false (mt h.spec.sweep_request.mp (by simp [hr])) nofun }
    rx := { h.rx with }
    draining_done := fun _ => rfl
    arming_index := nofun
    capture_window := nofun
    adc_armed := nofun
    amp_gate := by simp
    dac_gate := fun _ => hdac
    dac_inactive := h0
    index_le := (rampLen_toNat s.cfg).le }

/-- Tick 0 with the captures inside it, for either kind. -/
theorem firstTick (h : Inv s) (hr : s.sweepState = .running) (c : DacCode) (g : Byte) (vs us : List Sample)
    (p : List PortCall) :
    Inv { s.emitDac s.activeCh c with
      gainVal := g, cap := Mem.writeRun (Mem.writeRun s.cap s.dmaWrIdx (s.captured vs)) 0 (us.take s.cfg.capLen),
      dmaWrIdx := (us.take s.cfg.capLen).length, dmaArmed := true, adcRun := true, stepIndex := 1, ports := p } := by
  have hdac := h.emitDac_running hr c
  rw [State.emitDac_eq] at hdac ⊢
  exact hdac.openCapture hr _ _ _ _ (wf_writeRun_take _ (wf_writeRun_captured _ h.cap_wf)) (by simp)

/-- The last tick with the captures inside it, for either kind. -/
theorem lastTick (h : Inv s) (hr : s.sweepState = .running) (g : Byte) (vs : List Sample) (p : List PortCall) :
    Inv { s.emitDac s.activeCh 0 with
      cap := Mem.writeRun s.cap s.dmaWrIdx (s.captured vs), dmaWrIdx := s.dmaWrIdx + (s.captured vs).length,
      stepIndex := BitVec.ofNat 8 s.cfg.rampLen, adcRun := false, dmaArmed := false, ampEn := false, gainVal := g,
      done := true, timerRun := false, sweepState := .draining, ports := p } := by
  have hcap := h.captured _ _ s.ports (wf_writeRun_captured vs h.cap_wf) (captured_fits vs h.spec.dma_index)
  have hclose := hcap.closeCapture hr g p
  rw [State.emitDac_eq] at hclose ⊢
  exact hclose

/-- DRAIN takes the completion signal and makes the one `Sweep` request (R153). -/
theorem drained (h : Inv s) (hdone : s.done = true) :
    Inv { s with done := false, sweepState := .complete, txq := s.txq ++ [.sweep] } := by
  have hs := h.spec.done_draining hdone
  obtain ⟨hq, hc⟩ := h.no_sweep (by simp [hs])
  have ht : ¬ s.timerRun = true := mt h.spec.timer_running (by simp [hs])
  have hd : ¬ s.dmaArmed = true := fun ha => by simpa [hs] using (h.spec.armed_running ha).1
  exact { h with
    spec := { h.spec with
      running_timer := nofun
      timer_running := fun h' => absurd h' ht
      armed_running := fun h' => absurd h' hd
      done_draining := nofun
      active_valid := fun _ => h.spec.active_valid (by simp [hs])
      sweep_request := by simp }
    rx := { h.rx with }
    draining_done := nofun
    arming_index := nofun
    capture_window := nofun
    amp_gate := iff_of_false (mt h.amp_gate.mp (by simp [hs])) (by simp)
    dac_gate := fun _ => h.dac_gate (by simp [hs])
    sweep_once := by simp [List.count_eq_zero.mpr hq, hc] }

/-! ### The transmitter -/

/-- A request other than `Sweep` is added to those pending. -/
theorem addRequest {q : TxRequest} (h : Inv s) (hq : q ≠ .sweep) (w : Bool) :
    Inv { s with txq := s.txq ++ [q], hbWaiting := w } :=
  { h with
    spec := { h.spec with sweep_request := by simpa [hq.symm] using h.spec.sweep_request }
    rx := { h.rx with }
    sweep_once := by simpa [List.count_append, List.count_singleton, hq] using h.sweep_once }

/-- A request moves from the queue to the transmitter (`spec/40_frame_codec.md` R123). -/
theorem txBegun {k : Nat} {q : TxRequest} (h : Inv s) (idle : s.txBusy = false) (chosen : s.txq[k]? = some q)
    (f : List Byte) : Inv { s with txq := s.txq.eraseIdx k, txBusy := true, txCur := some q, txRest := f } := by
  have hcur : s.txCur = none := by simpa [idle] using h.tx_current
  exact { h with
    spec := { h.spec with
      sweep_request := (sweep_eraseIdx_iff chosen).trans (by simpa [hcur] using h.spec.sweep_request) }
    rx := { h.rx with }
    tx_current := rfl
    tx_idle := nofun
    sweep_once := (sweep_eraseIdx_count chosen).le.trans (by simpa [hcur] using h.sweep_once) }

/-- TX_DONE of a frame that is no sweep's (R124). -/
theorem txFinished_other (h : Inv s) (rest : s.txRest = []) (hc : s.txCur ≠ some .sweep) :
    Inv { s with txBusy := false, txCur := none } :=
  { h with
    spec := { h.spec with sweep_request := by simpa [hc] using h.spec.sweep_request }
    rx := { h.rx with }
    tx_current := rfl
    tx_idle := fun _ => rest
    sweep_once := by simpa [hc] using h.sweep_once }

/-- TX_DONE of the sweep frame, after which the block is idle (R124). -/
theorem txFinished_sweep (h : Inv s) (rest : s.txRest = []) (hc : s.txCur = some .sweep) :
    Inv { s with txBusy := false, txCur := none, sweepState := .idle } := by
  have hs := h.spec.sweep_request.mp (.inr hc)
  obtain ⟨ht, hd, -, hdone⟩ := h.quiet (by simp [hs]) (by simp [hs])
  have hq : s.txq.count .sweep = 0 := by simpa [hc] using h.sweep_once
  exact { h with
    spec := { h.spec with
      running_timer := nofun
      timer_running := fun h' => absurd h' ht
      armed_running := fun h' => absurd h' hd
      done_draining := fun h' => absurd h' hdone
      active_valid := nofun
      sweep_request := iff_of_false (by simpa using List.count_eq_zero.mp hq) nofun }
    rx := { h.rx with }
    draining_done := nofun
    arming_index := nofun
    capture_window := nofun
    amp_gate := iff_of_false (mt h.amp_gate.mp (by simp [hs])) (by simp)
    dac_gate := fun _ => h.dac_gate (by simp [hs])
    tx_current := rfl
    tx_idle := fun _ => rest
    sweep_once := by simp [hq] }

end Inv

/-! ### Every effect -/

/-- Every effect of an event keeps the invariant. -/
theorem Effect.inv {e : Event} {s s' : State} (hE : Effect e s s') (h : Inv s) : Inv s' := by
  cases hE with
  | linkRx b => exact { h with spec := { h.spec with }, rx := { h.rx with } }
  | rxStored s b l x link last incomplete room fits =>
    exact { h with
      spec := { h.spec with }
      rx := h.rx.store l room fits
      rxBuf_wf := Mem.wf_write b h.rxBuf_wf room }
  | rxOverflow s b l x link last incomplete noTerm full =>
    exact { h with
      spec := { h.spec with }
      rx := RxInv.of_empty rfl
      rxBuf_wf := Mem.wf_write b h.rxBuf_wf (Nat.lt_of_succ_le full.le) }
  | rxDecoded s f i complete bytes decoded room =>
    exact { h with
      spec := { h.spec with }
      rx := RxInv.of_empty rfl
      iq_le := by simpa using room
      args_le := fun j hj => by
        rcases List.mem_append.mp hj with hj | hj
        · exact h.args_le j hj
        · rw [List.mem_singleton.mp hj]; exact decodeFrame_arg_length decoded }
  | rxRejected | rxExpired => exact { h with spec := { h.spec with }, rx := RxInv.of_empty rfl }
  | commandDropped s i q head => exact h.takeHead head
  | commandAck s i q head => exact (h.takeHead head).report _ _ _
  | commandArgError s i q head => exact (h.takeHead head).report _ _ _
  | commandVce s i q a g c head accepts amp gain => exact (h.takeHead head).loadVce accepts amp gain
  | commandVbe s i q head accepts => exact (h.takeHead head).loadVbe accepts
  | armVce s i q head accepts valid => exact (h.takeHead head).arm accepts valid _ _ _
  | armVbe s i q head accepts valid =>
    obtain ⟨h0, h1⟩ := h.dac_zero_of_accepts accepts
    have hdac := (h.takeHead head).emitDac_zero s.cfg.chVbe h0 h1
    rw [State.emitDac_eq] at hdac ⊢
    exact hdac.arm accepts valid _ _ _
  | armReady s arming => exact h.armReady arming
  | armFailed s r st arming result =>
    obtain ⟨h0, h1⟩ := h.dac_gate (by simp [arming])
    have hdac := h.emitDac_zero s.activeCh h0 h1
    rw [State.emitDac_eq] at hdac ⊢
    exact hdac.armFailed arming (by rcases result with ⟨-, hst⟩ | ⟨-, hst⟩ <;> simp [hst]) _
  | tickFirstVce s ic c g w u timer code first kind gain stale taken =>
    subst stale taken
    exact h.firstTick (h.running_of_timer timer) c g _ _ _
  | tickFirstVbe s ic c w u timer code first kind stale taken =>
    subst stale taken
    exact h.firstTick (h.running_of_timer timer) c (s.emitDac s.activeCh c).gainVal _ _ _
  | tickMiddle s ic c w timer code low high taken =>
    have hr := h.running_of_timer timer
    have hdac := h.emitDac_running hr c
    rw [State.emitDac_eq] at hdac ⊢
    subst taken
    exact (hdac.advance hr low high).captured _ _ _ (wf_writeRun_captured _ h.cap_wf) (captured_fits _ h.spec.dma_index)
  | tickLastVce s ic c w timer code last kind taken =>
    subst taken
    exact h.lastTick (h.running_of_timer timer) s.cfg.gainOff _ _
  | tickLastVbe s ic c w timer code last kind taken =>
    subst taken
    exact h.lastTick (h.running_of_timer timer) (s.emitDac s.activeCh 0).gainVal _ _
  | capWrite s v armed adc room => exact h.captured _ _ _ (Mem.wf_write v h.cap_wf room) room
  | drained s signalled => exact h.drained signalled
  | txBegun s k q idle head chosen => exact h.txBegun idle chosen _
  | txByteSent s b l busy rest =>
    exact { h with
      spec := { h.spec with }
      rx := { h.rx with }
      tx_idle := fun h' => by simp [busy] at h' }
  | txFinished s busy rest =>
    by_cases hc : s.txCur = some .sweep
    · simp only [if_pos hc]; exact h.txFinished_sweep rest hc
    · simp only [if_neg hc]; exact h.txFinished_other rest hc
  | hbSent | textReq | statusReq => exact h.addRequest (by simp) _
  | hbTaken => exact { h with spec := { h.spec with }, rx := { h.rx with }, miss_lt := s.cfg.legal.hbMissN_min }
  | hbMissed s opened silent few => exact { h with spec := { h.spec with }, rx := { h.rx with }, miss_lt := few }
  | hbLost => exact { h with spec := { h.spec with }, rx := { h.rx with }, miss_lt := s.cfg.legal.hbMissN_min }
  | infoPosted => exact h.report _ _ _
  | rst => exact Inv.applyReset _

/-- Every event that answers a next state keeps the invariant. -/
theorem runEvent_inv {e : Event} {s s' : State} (h : Inv s) (hrun : runEvent e s = .next s') : Inv s' := by
  rcases runEvent_effect hrun with ⟨-, rfl⟩ | ⟨-, hE⟩
  · exact h
  · exact hE.inv h

/-- Settles O49: a step is one event run in a state that differs in the schedule alone, and every effect of an event keeps the
invariant. -/
theorem invKeptByEveryStep : Obligations.InvKeptByEveryStep := by
  intro s s' h hstep
  obtain ⟨e, r, n, he⟩ := step_eq_runEvent s
  exact runEvent_inv (h.withSchedule r n) (he ▸ hstep)

/-- Settles O48: the invariant holds after reset in every configuration, the board's among them. -/
theorem invAtReset : Obligations.InvAtReset := Inv.resetWith Config.boot

/-! ### No fault -/

/-- All bytes held can be read (`spec/10_state.md` R13). -/
theorem RxInv.frameBytes_ok {s : State} (h : RxInv s) : ∃ f, s.frameBytes = .ok f := by
  have hread : ∀ n a, a + n = s.rxLen.toNat →
      ∃ f, Mem.getRun s.cfg.frameCap .rxBufIndex .rxBufUnspecified s.rxBuf a n = .ok f := by
    intro n
    induction n with
    | zero => exact fun a _ => ⟨[], rfl⟩
    | succ n ih =>
      intro a ha
      obtain ⟨vs, hvs⟩ := ih (a + 1) (by omega)
      obtain ⟨v, hv⟩ := Option.isSome_iff_exists.mp (h.stored a (by omega))
      have hlen := h.len_le
      have hget := (Mem.get_ok (size := s.cfg.frameCap) (outside := .rxBufIndex) (unset := .rxBufUnspecified)).mpr
        ⟨(by omega : a < s.cfg.frameCap), hv⟩
      exact ⟨v :: vs, by simp only [Mem.getRun, hget, hvs]⟩
  exact hread _ 0 (Nat.zero_add _)

theorem RxInv.lastByte_ok {s : State} (h : RxInv s) : ∃ x, s.lastByte = .ok x :=
  h.frameBytes_ok.elim fun _ hf => ⟨_, lastByte_of_frameBytes hf⟩

/-- While no complete frame is pending there is room for a byte. -/
theorem RxInv.room {s : State} (h : RxInv s) (hc : s.frameComplete = false) : s.rxLen.toNat < s.cfg.frameCap := by
  refine lt_of_le_of_ne h.len_le fun hfull => ?_
  rw [frameComplete_iff.mpr (h.full_terminated hfull)] at hc
  cases hc

/-- RX_BYTE stays inside the buffer. -/
theorem rxByte_completes {s : State} (h : RxInv s) (hc : s.frameComplete = false) : ∃ s', rxByte s = .ok s' := by
  obtain ⟨x, hx⟩ := h.lastByte_ok
  cases hl : s.linkRx with
  | nil => exact ⟨s, by simp only [rxByte, hx, hl]⟩
  | cons b l =>
    rw [rxByte_store hl hx]
    rcases storeByte_cases b (s := { s with linkRx := l }) (h.room hc) with ⟨-, hs⟩ | ⟨-, -, hs⟩ <;> exact ⟨_, hs⟩

/-- The gain of a loaded VCE request is in the table. -/
theorem Inv.gain_ok {s : State} (h : Inv s) (hv : s.reqValid = true) (hk : s.reqKind = .vce) :
    ∃ g, s.cfg.gainTable[s.reqGain.toNat]? = some g :=
  ⟨_, List.getElem?_eq_getElem (h.gain_lt hv hk)⟩

/-- While a sweep is active the table has the entry of every step. -/
theorem Inv.rampEntry_ok {s : State} (h : Inv s) (hr : s.sweepState = .running) : ∃ c, s.rampEntry = .ok c := by
  have hlt := (h.spec.running_timer hr).2
  have hload := h.ramp_loaded (h.spec.active_valid (by simp [hr]))
  exact ⟨_, Machine.rampEntry_ok.mpr ⟨hlt, by rw [hload, Mem.read_fill, rampTable_get _ hlt]⟩⟩

/-- The table has the tick's entry, and the gain table the request's. -/
theorem tick_completes {s : State} (h : Inv s) (ht : s.timerRun = true) (ic : InnerCaptures) :
    ∃ s', tick ic s = .ok s' := by
  have hr := h.running_of_timer ht
  obtain ⟨c, hc⟩ := h.rampEntry_ok hr
  by_cases h0 : s.stepIndex = 0
  · have hopen : ∃ s1, (State.captures ic.afterCode (s.emitDac s.activeCh c)).openCapture = .ok s1 ∧ s1.stepIndex = 0 := by
      cases hk : s.reqKind with
      | vbe => exact ⟨_, openCapture_vbe (by simp [hk]), by simp [h0]⟩
      | vce =>
        obtain ⟨g, hg⟩ := h.gain_ok (h.spec.active_valid (by simp [hr])) hk
        exact ⟨_, openCapture_vce (by simp [hk]) (by simpa using hg), by simp [h0]⟩
    obtain ⟨s1, ho, h1⟩ := hopen
    exact ⟨_, tick_first hc h0 ho h1⟩
  · by_cases hl : s.stepIndex.toNat = s.cfg.rampSteps
    · exact ⟨_, tick_last ic hc hl⟩
    · exact ⟨_, tick_middle ic hc h0 hl⟩

theorem rxFrame_completes {s : State} (h : RxInv s) : ∃ s', rxFrame s = .ok s' := by
  obtain ⟨f, hf⟩ := h.frameBytes_ok
  simp only [rxFrame, hf]
  split <;> exact ⟨_, rfl⟩

theorem dispatch_completes (s : State) : ∃ s', dispatch s = .next s' := by
  cases hq : s.iq with
  | nil => exact ⟨s, by simp only [dispatch, hq]⟩
  | cons i q => rw [dispatch_cons hq]; exact exec_command_completes i _

theorem txBegin_completes (k : Nat) (s : State) : ∃ s', txBegin k s = .next s' := by
  simp only [txBegin]
  split
  · exact ⟨s, rfl⟩
  · exact ⟨_, exec_request ..⟩

theorem outcome_completes {x : Except Fault State} (h : ∃ s, x = .ok s) : ∃ s', outcome x = .next s' :=
  h.imp fun _ hs => by rw [hs]; rfl

/-- An enabled event of a state with the invariant does not fault. -/
theorem fire_completes {e : Event} {s : State} (h : Inv s) (he : enabled e s = true) : ∃ s', fire e s = .next s' := by
  cases e with
  | rxByte =>
    simp only [enabled, Bool.and_eq_true, Bool.not_eq_true'] at he
    exact outcome_completes (rxByte_completes h.rx he.2)
  | rxFrame => exact outcome_completes (rxFrame_completes h.rx)
  | rxExpire =>
    obtain ⟨x, hx⟩ := h.rx.lastByte_ok
    exact outcome_completes ⟨s.receiveFailure .timeout, by simp only [rxTimeout, hx]⟩
  | dispatch => exact dispatch_completes s
  | tick ic => exact outcome_completes (tick_completes h he ic)
  | txBegin k => exact txBegin_completes k s
  | _ => exact ⟨_, rfl⟩

theorem runEvent_completes {s : State} (h : Inv s) (e : Event) : ∃ s', runEvent e s = .next s' := by
  cases he : enabled e s with
  | false => exact ⟨s, runEvent_disabled he⟩
  | true => rw [runEvent_enabled he]; exact fire_completes h he

/-- Settles O50: only the reads of `rx_buf`, of `ramp` and of the gain table can fault, and the invariant puts each of them
inside its memory, at an element with a value. -/
theorem noFaultUnderInv : Obligations.NoFaultUnderInv := by
  intro s h
  obtain ⟨e, r, n, he⟩ := step_eq_runEvent s
  rw [he]
  exact runEvent_completes (h.withSchedule r n) e

end Sys2Proof.Machine

/-! SUPPORT. What no step but its own changes: the state of the sweep, the step index, the request, the memories, the stream of
status events and the frame being sent, each read off the list of effects. -/

namespace Sys2Proof.Machine

open Config

/-! ### The state of the sweep (`spec/42_acquisition_fsm.md` R141) -/

/-- An effect keeps `sweep_state` or takes a row of R141. -/
theorem Effect.sweepState_cases {e : Event} {s s' : State} (h : Effect e s s') (hi : Inv s) (hne : e ≠ .rst) :
    s'.sweepState = s.sweepState ∨ Transition s.sweepState e s'.sweepState := by
  cases h with
  | armVce s i q head accepts | armVbe s i q head accepts =>
    rcases acceptsSweep_iff.mp accepts with hs | hs <;> rw [hs]
    · exact .inr .startFromIdle
    · exact .inr .startFromFaulted
  | armReady s arming => rw [arming]; exact .inr .ready
  | armFailed s r st arming result =>
    rw [arming]
    rcases result with ⟨rfl, rfl⟩ | ⟨rfl, rfl⟩
    · exact .inr .hwFail
    · exact .inr .timerFail
  | tickLastVce s ic c w timer | tickLastVbe s ic c w timer =>
    rw [hi.running_of_timer timer]; exact .inr (.lastTick ic)
  | drained s signalled => rw [hi.spec.done_draining signalled]; exact .inr .drained
  | txFinished s busy rest =>
    by_cases hc : s.txCur = some .sweep
    · rw [hi.spec.sweep_request.mp (.inr hc)]
      simp only [if_pos hc]
      exact .inr .sent
    · exact .inl (if_neg hc)
  | tickFirstVce | tickFirstVbe | tickMiddle => exact .inl (State.emitDac_sweepState ..)
  | rst => exact absurd rfl hne
  | _ => exact .inl rfl

/-- Of the ticks only the one at index `S` ends in `Draining`. -/
theorem Effect.tick_draining_iff {s s' : State} {ic : InnerCaptures} (h : Effect (.tick ic) s s')
    (hr : s.sweepState = .running) : s'.sweepState = .draining ↔ s.stepIndex.toNat = s.cfg.rampSteps := by
  have hsteps := s.cfg.legal.rampSteps_pos
  cases h with
  | tickFirstVce s ic c g w u timer code atFirst | tickFirstVbe s ic c w u timer code atFirst =>
    have hs : s.stepIndex.toNat = 0 := by simp [atFirst]
    exact iff_of_false (by simp [hr]) (by omega)
  | tickMiddle s ic c w timer code low high => exact iff_of_false (by simp [hr]) high.ne
  | tickLastVce s ic c w timer code last | tickLastVbe s ic c w timer code last => exact iff_of_true rfl last

/-- Settles O52: every effect is looked up in the table, and the last tick alone leaves `Running`. -/
theorem sweepStateFollowsTheTable : Obligations.SweepStateFollowsTheTable := by
  intro s s' e hi hne h
  rcases runEvent_effect h with ⟨hd, rfl⟩ | ⟨-, hE⟩
  · refine ⟨.inl rfl, fun htick ht => ?_⟩
    cases e with
    | tick ic => exact absurd ht (Bool.eq_false_iff.mp hd)
    | _ => cases htick
  · refine ⟨hE.sweepState_cases hi hne, fun htick ht => ?_⟩
    cases e with
    | tick ic => exact hE.tick_draining_iff (hi.running_of_timer ht)
    | _ => cases htick

/-! ### The step index (`spec/10_state.md` R21) -/

/-- An effect that is no tick keeps the step index, or is ARM's. -/
theorem Effect.stepIndex_cases {e : Event} {s s' : State} (h : Effect e s s') (hne : e ≠ .rst) :
    (s'.stepIndex = s.stepIndex ∧ e.isTick = false) ∨
    (e = .dispatch ∧ s'.sweepState = .arming ∧ s'.stepIndex = 0) ∨
    (e.isTick = true ∧ s.timerRun = true ∧ s'.stepIndex.toNat = s.stepIndex.toNat + 1 ∧ s'.stepIndex.toNat ≤ s.cfg.rampLen ∧
      (s'.stepIndex.toNat = s.cfg.rampLen → s'.timerRun = false)) := by
  have hsteps := s.cfg.legal.rampSteps_pos
  have hlen := rampLen_eq s.cfg.toGivenParams
  cases h with
  | armVce | armVbe => exact .inr (.inl ⟨rfl, rfl, rfl⟩)
  | armFailed => exact .inl ⟨State.emitDac_stepIndex .., rfl⟩
  | tickFirstVce s ic c g w u timer code atFirst | tickFirstVbe s ic c w u timer code atFirst =>
    have hs : s.stepIndex.toNat = 0 := by simp [atFirst]
    refine .inr (.inr ⟨rfl, timer, ?_, ?_, fun hl => ?_⟩)
    · simp [hs]
    · change 1 ≤ s.cfg.rampLen; omega
    · change 1 = s.cfg.rampLen at hl; omega
  | tickMiddle s ic c w timer code low high =>
    have hs := stepIndex_succ (s := s) (by omega)
    exact .inr (.inr ⟨rfl, timer, hs, by simp only [hs]; omega, fun hl => by simp only [hs] at hl; omega⟩)
  | tickLastVce s ic c w timer code last | tickLastVbe s ic c w timer code last =>
    have hs := rampLen_toNat s.cfg
    exact .inr (.inr ⟨rfl, timer, by simp only [hs]; omega, hs.le, fun _ => rfl⟩)
  | rst => exact absurd rfl hne
  | _ => exact .inl ⟨rfl, rfl⟩

/-- Settles O59: ARM and the tick are the only effects that write the index. -/
theorem stepIndexMovesInTwoPlaces : Obligations.StepIndexMovesInTwoPlaces := by
  intro s s' e hne h
  rcases runEvent_effect h with ⟨hd, rfl⟩ | ⟨-, hE⟩
  · refine .inl ⟨rfl, fun htick => ?_⟩
    cases e with
    | tick ic => exact hd
    | _ => cases htick
  · exact (hE.stepIndex_cases hne).imp_left fun ⟨hs, ht⟩ => ⟨hs, fun htick => by simp [ht] at htick⟩

/-! ### The request (`spec/10_state.md` R17) -/

/-- The request and its table are loaded by a DISPATCH in `Idle` or `Faulted` alone. -/
theorem Effect.request_cases {e : Event} {s s' : State} (h : Effect e s s') (hne : e ≠ .rst) :
    (s'.reqValid = s.reqValid ∧ s'.reqKind = s.reqKind ∧ s'.reqAmp = s.reqAmp ∧ s'.reqGain = s.reqGain ∧
      s'.reqSamples = s.reqSamples ∧ s'.ramp = s.ramp) ∨
    (e = .dispatch ∧ (s.sweepState = .idle ∨ s.sweepState = .faulted) ∧ s'.sweepState = s.sweepState) := by
  cases h with
  | commandVce s i q a g c head accepts => exact .inr ⟨rfl, acceptsSweep_iff.mp accepts, rfl⟩
  | commandVbe s i q head accepts => exact .inr ⟨rfl, acceptsSweep_iff.mp accepts, rfl⟩
  | armVbe | armFailed | tickFirstVce | tickFirstVbe | tickMiddle | tickLastVce | tickLastVbe => simp
  | rst => exact absurd rfl hne
  | _ => exact .inl ⟨rfl, rfl, rfl, rfl, rfl, rfl⟩

/-- Settles O57: a disabled event changes nothing, and of the effects only the two LOADs write the request. -/
theorem requestIsASnapshot : Obligations.RequestIsASnapshot := by
  intro s s' e hne h
  rcases runEvent_effect h with ⟨-, rfl⟩ | ⟨-, hE⟩
  · exact .inl ⟨rfl, rfl, rfl, rfl, rfl, rfl⟩
  · exact hE.request_cases hne

/-! ### The memories (`spec/20_memory.md` R46, R48, R56) -/

/-- Every effect keeps the configuration. -/
theorem Effect.cfg_eq {e : Event} {s s' : State} (h : Effect e s s') : s'.cfg = s.cfg := by
  cases h with
  | armVbe | armFailed | tickFirstVce | tickFirstVbe | tickMiddle | tickLastVce | tickLastVbe =>
    exact State.emitDac_cfg ..
  | _ => rfl

/-- Only RX_BYTE writes `rx_buf`, below `FRAME_CAP`; reset empties it. -/
theorem Effect.rxBuf_cases {e : Event} {s s' : State} (h : Effect e s s') :
    s'.rxBuf = s.rxBuf ∨
    (e = .rxByte ∧ ∃ b, s.rxLen.toNat < s.cfg.frameCap ∧ s'.rxBuf = Mem.write s.rxBuf s.rxLen.toNat b) ∨
    (e = .rst ∧ s'.rxBuf = []) := by
  cases h with
  | rxStored s b l x link last incomplete room => exact .inr (.inl ⟨rfl, b, room, rfl⟩)
  | rxOverflow s b l x link last incomplete noTerm full =>
    exact .inr (.inl ⟨rfl, b, Nat.lt_of_succ_le full.le, rfl⟩)
  | rst => exact .inr (.inr ⟨rfl, rfl⟩)
  | armVbe | armFailed | tickFirstVce | tickFirstVbe | tickMiddle | tickLastVce | tickLastVbe =>
    exact .inl (State.emitDac_rxBuf ..)
  | _ => exact .inl rfl

/-- Only a LOAD writes `ramp`, with a whole table; reset empties it. -/
theorem Effect.ramp_cases {e : Event} {s s' : State} (h : Effect e s s') :
    s'.ramp = s.ramp ∨
    (e = .dispatch ∧ s.acceptsSweep = true ∧ ∃ m, s'.ramp = Mem.fill (rampTable s.cfg.toGivenParams m)) ∨
    (e = .rst ∧ s'.ramp = []) := by
  cases h with
  | commandVce s i q a g c head accepts => exact .inr (.inl ⟨rfl, accepts, _, rfl⟩)
  | commandVbe s i q head accepts => exact .inr (.inl ⟨rfl, accepts, _, rfl⟩)
  | rst => exact .inr (.inr ⟨rfl, rfl⟩)
  | armVbe | armFailed | tickFirstVce | tickFirstVbe | tickMiddle | tickLastVce | tickLastVbe =>
    exact .inl (State.emitDac_ramp ..)
  | _ => exact .inl rfl

/-- Only CAP_WRITE, while the capture runs, and a tick write `cap`; reset empties it. -/
theorem Effect.cap_cases {e : Event} {s s' : State} (h : Effect e s s') :
    s'.cap = s.cap ∨
    ((∃ v, e = .capWrite v ∧ s'.cap = Mem.write s.cap s.dmaWrIdx v) ∧ s.dmaArmed = true ∧ s.dmaWrIdx < s.cfg.capLen) ∨
    (e.isTick = true ∧ s.timerRun = true ∧
      (Mem.wf s.cfg.capLen s.cap = true → Mem.wf s.cfg.capLen s'.cap = true)) ∨
    (e = .rst ∧ s'.cap = []) := by
  cases h with
  | capWrite s v armed adc room => exact .inr (.inl ⟨⟨v, rfl, rfl⟩, armed, room⟩)
  | tickFirstVce s ic c g w u timer code first kind gain stale taken =>
    exact .inr (.inr (.inl ⟨rfl, timer, fun hw => stale ▸ taken ▸ wf_writeRun_take _ (wf_writeRun_captured _ hw)⟩))
  | tickFirstVbe s ic c w u timer code first kind stale taken =>
    exact .inr (.inr (.inl ⟨rfl, timer, fun hw => stale ▸ taken ▸ wf_writeRun_take _ (wf_writeRun_captured _ hw)⟩))
  | tickMiddle s ic c w timer code low high taken =>
    exact .inr (.inr (.inl ⟨rfl, timer, fun hw => taken ▸ wf_writeRun_captured _ hw⟩))
  | tickLastVce s ic c w timer code last kind taken | tickLastVbe s ic c w timer code last kind taken =>
    exact .inr (.inr (.inl ⟨rfl, timer, fun hw => taken ▸ wf_writeRun_captured _ hw⟩))
  | rst => exact .inr (.inr (.inr ⟨rfl, rfl⟩))
  | armVbe | armFailed => exact .inl (State.emitDac_cap ..)
  | _ => exact .inl rfl

/-- Settles O58: the writer of each memory is the one of its list of effects, and with the invariant the DMA and the timer run
inside the sweep only. -/
theorem oneWriterPerMemory : Obligations.OneWriterPerMemory := by
  intro s s' e hi hne h
  rcases runEvent_effect h with ⟨-, rfl⟩ | ⟨-, hE⟩
  · exact ⟨absurd rfl, absurd rfl, absurd rfl⟩
  have hlen := rampLen_eq s.cfg.toGivenParams
  refine ⟨fun hcap => ?_, fun hramp => ?_, fun hbuf => ?_⟩
  · rcases hE.cap_cases with hc | ⟨⟨v, rfl, -⟩, harm, -⟩ | ⟨htick, ht, -⟩ | ⟨hr, -⟩
    · exact absurd hc hcap
    · obtain ⟨hr, hone⟩ := hi.spec.armed_running harm
      exact ⟨.inl ⟨⟨v, rfl⟩, hone⟩, hr, by have := (hi.spec.running_timer hr).2; omega⟩
    · have hr := hi.running_of_timer ht
      exact ⟨.inr htick, hr, by have := (hi.spec.running_timer hr).2; omega⟩
    · exact absurd hr hne
  · rcases hE.ramp_cases with hr | ⟨he, ha, -⟩ | ⟨hr, -⟩
    · exact absurd hr hramp
    · exact ⟨he, acceptsSweep_iff.mp ha⟩
    · exact absurd hr hne
  · rcases hE.rxBuf_cases with hb | ⟨he, -⟩ | ⟨hr, -⟩
    · exact absurd hb hbuf
    · exact he
    · exact absurd hr hne

/-- Settles O51: a write inside a canonical memory keeps it canonical, and so do a whole table and an empty memory. -/
theorem memoriesStayCanonical : Obligations.MemoriesStayCanonical := by
  intro s s' hbuf hramp hcap hstep
  obtain ⟨e, r, n, he⟩ := step_eq_runEvent s
  rw [he] at hstep
  rcases runEvent_effect hstep with ⟨-, rfl⟩ | ⟨-, hE⟩
  · exact ⟨hbuf, hramp, hcap, rfl⟩
  refine ⟨?_, ?_, ?_, hE.cfg_eq⟩ <;> rw [hE.cfg_eq]
  · rcases hE.rxBuf_cases with hb | ⟨-, b, hlt, hb⟩ | ⟨-, hb⟩ <;> rw [hb]
    · exact hbuf
    · exact Mem.wf_write b hbuf hlt
    · rfl
  · rcases hE.ramp_cases with hr | ⟨-, -, m, hr⟩ | ⟨-, hr⟩ <;> rw [hr]
    · exact hramp
    · exact Mem.wf_fill (rampTable_length m).le
    · rfl
  · rcases hE.cap_cases with hc | ⟨⟨v, -, hc⟩, -, hlt⟩ | ⟨-, -, hwf⟩ | ⟨-, hc⟩
    · rw [hc]; exact hcap
    · rw [hc]; exact Mem.wf_write v hcap hlt
    · exact hwf hcap
    · rw [hc]; rfl

/-! ### The frame being sent (`spec/20_memory.md` R66) -/

/-- While a frame is being sent only the Link and TX_DONE touch it. -/
theorem Effect.frame_cases {e : Event} {s s' : State} (h : Effect e s s') (hbusy : s.txBusy = true) (hne : e ≠ .rst) :
    (s'.txBusy = true ∧ s'.txCur = s.txCur ∧ s'.txOut ++ s'.txRest = s.txOut ++ s.txRest) ∨
    (e = .txDone ∧ s.txRest = [] ∧ s'.txBusy = false ∧ s'.txCur = none ∧ s'.txOut = s.txOut) := by
  cases h with
  | txBegun s k q idle => simp [hbusy] at idle
  | txByteSent s b l busy rest => exact .inl ⟨busy, rfl, by simp [rest]⟩
  | txFinished s busy rest => exact .inr ⟨rfl, rest, rfl, rfl, rfl⟩
  | armVbe | armFailed | tickFirstVce | tickFirstVbe | tickMiddle | tickLastVce | tickLastVbe => simp [hbusy]
  | rst => exact absurd rfl hne
  | _ => exact .inl ⟨hbusy, rfl, rfl⟩

/-- Settles O43: the byte that the Link accepts moves from the bytes to be sent to those sent, and TX_DONE comes after the
last. -/
theorem framesNeverInterleave : Obligations.FramesNeverInterleave := by
  intro s s' e hbusy hne h
  rcases runEvent_effect h with ⟨-, rfl⟩ | ⟨-, hE⟩
  · exact .inl ⟨hbusy, rfl, rfl⟩
  · exact hE.frame_cases hbusy hne

end Sys2Proof.Machine

/-! SUPPORT. The stream of status events (`spec/60_exceptions.md` R190 to R195): who posts what, that no step reads the stream,
and the window of the heartbeat. -/

namespace Sys2Proof.Machine

open Config

/-! ### Who posts what -/

theorem isInfo_iff {ev : StatusEvent} : ev.isInfo = true ↔ ev ∈ [.ok, .transmit, .receive] := by cases ev <;> decide

/-- The event `ev` is one that the step of `e` may post (R191, R194; `spec/93_implementation_defined.md` U8). -/
structure PostedBy (s : State) (e : Event) (ev : StatusEvent) : Prop where
  code : ev ∈ [.errorGeneric, .timeout, .overflow, .errorReceive, .disconnect] ∨
    s.cfg.infoPosts = true ∧ e = .infoPost ev ∧ ev ∈ [.ok, .transmit, .receive]
  overflow : ev = .overflow → e = .rxByte
  timeout : ev = .timeout → e = .rxExpire
  disconnect : ev = .disconnect → e = .hbExpire
  errorReceive : ev = .errorReceive → e = .rxFrame ∨ e = .dispatch
  errorGeneric : ev = .errorGeneric → e = .armResult .hwFail ∨ e = .armResult .timerFail

/-- An informational post is of its own event. -/
theorem PostedBy.info {s : State} {ev : StatusEvent} (posts : s.cfg.infoPosts = true) (info : ev.isInfo = true) :
    PostedBy s (.infoPost ev) ev := by
  have hmem := isInfo_iff.mp info
  constructor
  case code => exact .inr ⟨posts, rfl, hmem⟩
  all_goals rintro rfl; simp at hmem

/-- An effect posts nothing, or one event that is its agent's to post. -/
theorem Effect.post_cases {e : Event} {s s' : State} (h : Effect e s s') (hne : e ≠ .rst) :
    s'.statusOut = s.statusOut ∨ ∃ ev, s'.statusOut = s.statusOut ++ [ev] ∧ PostedBy s e ev := by
  cases h with
  | rxOverflow => exact .inr ⟨.overflow, rfl, .inl (by simp), fun _ => rfl, nofun, nofun, nofun, nofun⟩
  | rxRejected => exact .inr ⟨.errorReceive, rfl, .inl (by simp), nofun, nofun, nofun, fun _ => .inl rfl, nofun⟩
  | rxExpired => exact .inr ⟨.timeout, rfl, .inl (by simp), nofun, fun _ => rfl, nofun, nofun, nofun⟩
  | commandArgError => exact .inr ⟨.errorReceive, rfl, .inl (by simp), nofun, nofun, nofun, fun _ => .inr rfl, nofun⟩
  | armFailed s r st arming result =>
    refine .inr ⟨.errorGeneric, rfl, .inl (by simp), nofun, nofun, nofun, nofun, fun _ => ?_⟩
    rcases result with ⟨rfl, -⟩ | ⟨rfl, -⟩
    · exact .inl rfl
    · exact .inr rfl
  | hbLost => exact .inr ⟨.disconnect, rfl, .inl (by simp), nofun, nofun, fun _ => rfl, nofun, nofun⟩
  | infoPosted s ev posts info => exact .inr ⟨ev, rfl, .info posts info⟩
  | armVbe | tickFirstVce | tickFirstVbe | tickMiddle | tickLastVce | tickLastVbe =>
    exact .inl (State.emitDac_statusOut ..)
  | rst => exact absurd rfl hne
  | _ => exact .inl rfl

/-- Settles O56: an informational post is all that its event does, and every other post is found in the list of effects. -/
theorem onePostPerStep : Obligations.OnePostPerStep := by
  refine ⟨fun s ev hposts hev => ?_, fun s s' e hne h => ?_⟩
  · exact runEvent_enabled (e := .infoPost ev) (by simp [enabled, hposts, isInfo_iff.mpr hev])
  · rcases runEvent_effect h with ⟨-, rfl⟩ | ⟨-, hE⟩
    · exact .inl rfl
    · exact (hE.post_cases hne).imp_right fun ⟨ev, hs, hp⟩ =>
        ⟨ev, hs, hp.code, hp.overflow, hp.timeout, hp.disconnect, hp.errorReceive, hp.errorGeneric⟩

/-! ### No step reads the stream -/

theorem isInbound_commandInstr (i : Instruction) : isInbound (commandInstr i) = true := by
  simp only [commandInstr]
  split
  · rfl
  split
  · rfl
  split
  · rfl
  split <;> rfl

/-- What `R` does from `s` to `s'` it does whatever the stream holds, appending the same events. -/
def AppendsOnly (R : State → State → Prop) (s s' : State) : Prop :=
  ∃ p, s'.statusOut = s.statusOut ++ p ∧ ∀ l, R { s with statusOut := l } { s' with statusOut := l ++ p }

theorem AppendsOnly.silent {R : State → State → Prop} {s s' : State} (hs : s'.statusOut = s.statusOut)
    (h : ∀ l, R { s with statusOut := l } { s' with statusOut := l }) : AppendsOnly R s s' :=
  ⟨[], by rw [hs, List.append_nil], fun l => by rw [List.append_nil]; exact h l⟩

theorem AppendsOnly.posted {R : State → State → Prop} {s s' : State} (ev : StatusEvent)
    (hs : s'.statusOut = s.statusOut ++ [ev])
    (h : ∀ l, R { s with statusOut := l } { s' with statusOut := l ++ [ev] }) : AppendsOnly R s s' :=
  ⟨[ev], hs, h⟩

theorem AppendsOnly.imp {R T : State → State → Prop} {s s' : State} (h : AppendsOnly R s s')
    (hRT : ∀ l p, R { s with statusOut := l } { s' with statusOut := p } →
      T { s with statusOut := l } { s' with statusOut := p }) : AppendsOnly T s s' := by
  obtain ⟨p, hs, hp⟩ := h
  exact ⟨p, hs, fun l => hRT _ _ (hp l)⟩

/-- ARM does not read the stream. -/
theorem arm_withStatus (s : State) (l : List StatusEvent) :
    State.arm { s with statusOut := l } = { s.arm with statusOut := l } := by
  obtain ⟨⟩ := s
  simp only [arm_eq]
  split <;> simp only [State.emitDac_eq]

@[simp] theorem State.arm_statusOut (s : State) : s.arm.statusOut = s.statusOut := by
  rw [arm_eq]
  cases s.reqKind with
  | vce => rfl
  | vbe => exact State.emitDac_statusOut ..

/-- An inbound row does the same whatever has been posted. -/
theorem exec_inbound_appendsOnly {i : Instr} {s s' : State} (hin : isInbound i = true) (h : exec i s = .next s') :
    AppendsOnly (fun a b => exec i a = .next b) s s' := by
  have ha (l : List StatusEvent) : State.acceptsSweep { s with statusOut := l } = s.acceptsSweep := rfl
  cases i with
  | hbAck arg => cases h; exact .silent rfl fun l => rfl
  | unrecognized cmd arg => cases h; exact .silent rfl fun l => rfl
  | loadVce arg =>
    simp only [exec, execLoadVce] at h
    split at h
    · rename_i hacc
      cases hp : parseVceArg s.cfg.argDelim s.cfg.ampMax s.cfg.gainCount arg with
      | none =>
        simp only [hp] at h
        cases h
        exact .posted .errorReceive rfl fun l => by simp only [exec, execLoadVce, ha, if_pos hacc, hp]; rfl
      | some x =>
        simp only [hp] at h
        cases h
        exact .silent rfl fun l => by simp only [exec, execLoadVce, ha, if_pos hacc, hp]; rfl
    · rename_i hacc
      cases h
      exact .silent rfl fun l => by simp only [exec, execLoadVce, ha, if_neg hacc]
  | loadVbe arg =>
    simp only [exec, execLoadVbe] at h
    split at h
    · rename_i hacc
      cases h
      exact .silent rfl fun l => by simp only [exec, execLoadVbe, ha, if_pos hacc]; rfl
    · rename_i hacc
      cases h
      exact .silent rfl fun l => by simp only [exec, execLoadVbe, ha, if_neg hacc]
  | start arg =>
    simp only [exec, execStart] at h
    split at h
    · rename_i hc
      cases h
      exact .silent s.arm_statusOut fun l => by simp only [exec, execStart, ha, if_pos hc, arm_withStatus]
    · rename_i hc
      cases h
      exact .silent rfl fun l => by simp only [exec, execStart, ha, if_neg hc]
  | _ => cases hin

/-- An effect, DISPATCH's and reset's apart, is the same whatever has been posted. -/
theorem Effect.appendsOnly {e : Event} {s s' : State} (h : Effect e s s') (hne : e ≠ .rst) (hdi : e ≠ .dispatch) :
    AppendsOnly (Effect e) s s' := by
  have ha (l : List StatusEvent) : State.activeCh { s with statusOut := l } = s.activeCh := rfl
  cases h with
  | linkRx => exact .silent rfl fun l => .linkRx _ _
  | rxStored s b k x h1 h2 h3 h4 h5 => exact .silent rfl fun l => .rxStored { s with statusOut := l } b k x h1 h2 h3 h4 h5
  | rxOverflow s b k x h1 h2 h3 h4 h5 =>
    exact .posted .overflow rfl fun l => .rxOverflow { s with statusOut := l } b k x h1 h2 h3 h4 h5
  | rxDecoded s f i h1 h2 h3 h4 => exact .silent rfl fun l => .rxDecoded { s with statusOut := l } f i h1 h2 h3 h4
  | rxRejected s f i h1 h2 h3 =>
    exact .posted .errorReceive rfl fun l => .rxRejected { s with statusOut := l } f i h1 h2 h3
  | rxExpired s x h1 h2 h3 => exact .posted .timeout rfl fun l => .rxExpired { s with statusOut := l } x h1 h2 h3
  | armReady s h1 => exact .silent rfl fun l => .armReady { s with statusOut := l } h1
  | armFailed s r st h1 h2 =>
    refine .posted .errorGeneric rfl fun l => ?_
    simpa only [State.emitDac_eq, ha] using Effect.armFailed { s with statusOut := l } r st h1 h2
  | tickFirstVce s ic c g w u h1 h2 h3 h4 h5 h6 h7 =>
    refine .silent (State.emitDac_statusOut ..) fun l => ?_
    simpa only [State.emitDac_eq, ha] using Effect.tickFirstVce { s with statusOut := l } ic c g w u h1 h2 h3 h4 h5 h6 h7
  | tickFirstVbe s ic c w u h1 h2 h3 h4 h5 h6 =>
    refine .silent (State.emitDac_statusOut ..) fun l => ?_
    simpa only [State.emitDac_eq, ha] using Effect.tickFirstVbe { s with statusOut := l } ic c w u h1 h2 h3 h4 h5 h6
  | tickMiddle s ic c w h1 h2 h3 h4 h5 =>
    refine .silent (State.emitDac_statusOut ..) fun l => ?_
    simpa only [State.emitDac_eq, ha] using Effect.tickMiddle { s with statusOut := l } ic c w h1 h2 h3 h4 h5
  | tickLastVce s ic c w h1 h2 h3 h4 h5 =>
    refine .silent (State.emitDac_statusOut ..) fun l => ?_
    simpa only [State.emitDac_eq, ha] using Effect.tickLastVce { s with statusOut := l } ic c w h1 h2 h3 h4 h5
  | tickLastVbe s ic c w h1 h2 h3 h4 h5 =>
    refine .silent (State.emitDac_statusOut ..) fun l => ?_
    simpa only [State.emitDac_eq, ha] using Effect.tickLastVbe { s with statusOut := l } ic c w h1 h2 h3 h4 h5
  | capWrite s v h1 h2 h3 => exact .silent rfl fun l => .capWrite { s with statusOut := l } v h1 h2 h3
  | drained s h1 h2 => exact .silent rfl fun l => .drained { s with statusOut := l } h1 h2
  | txBegun s k q h1 h2 h3 => exact .silent rfl fun l => .txBegun { s with statusOut := l } k q h1 h2 h3
  | txByteSent s b k h1 h2 => exact .silent rfl fun l => .txByteSent { s with statusOut := l } b k h1 h2
  | txFinished s h1 h2 => exact .silent rfl fun l => .txFinished { s with statusOut := l } h1 h2
  | hbSent s h1 => exact .silent rfl fun l => .hbSent { s with statusOut := l } h1
  | hbTaken s h1 h2 => exact .silent rfl fun l => .hbTaken { s with statusOut := l } h1 h2
  | hbMissed s h1 h2 h3 => exact .silent rfl fun l => .hbMissed { s with statusOut := l } h1 h2 h3
  | hbLost s h1 h2 h3 => exact .posted .disconnect rfl fun l => .hbLost { s with statusOut := l } h1 h2 h3
  | textReq s t => exact .silent rfl fun l => .textReq { s with statusOut := l } t
  | statusReq s ev => exact .silent rfl fun l => .statusReq { s with statusOut := l } ev
  | infoPosted s ev h1 h2 => exact .posted ev rfl fun l => .infoPosted { s with statusOut := l } ev h1 h2
  | rst => exact absurd rfl hne
  | commandDropped => exact absurd rfl hdi
  | commandAck => exact absurd rfl hdi
  | commandArgError => exact absurd rfl hdi
  | commandVce => exact absurd rfl hdi
  | commandVbe => exact absurd rfl hdi
  | armVce => exact absurd rfl hdi
  | armVbe => exact absurd rfl hdi

/-- No enabling condition reads the stream. -/
theorem enabled_withStatus (e : Event) (s : State) (l : List StatusEvent) :
    enabled e { s with statusOut := l } = enabled e s := by cases e <;> rfl

/-- DISPATCH does the same whatever has been posted. -/
theorem dispatch_appendsOnly {s s' : State} (h : dispatch s = .next s') :
    AppendsOnly (fun a b => dispatch a = .next b) s s' := by
  cases hq : s.iq with
  | nil =>
    simp only [dispatch, hq] at h
    cases h
    exact .silent rfl fun l => by simp only [dispatch, hq]
  | cons i q =>
    rw [dispatch_cons hq] at h
    obtain ⟨p, hs, hp⟩ := exec_inbound_appendsOnly (isInbound_commandInstr i) h
    exact ⟨p, hs, fun l => (dispatch_cons (s := { s with statusOut := l }) hq).trans (hp l)⟩

/-- Settles O55: the list of effects is the same whatever the stream holds, and so are the commands. -/
theorem statusStreamIsWriteOnly : Obligations.StatusStreamIsWriteOnly := by
  intro s s' e hne h
  rcases runEvent_effect h with ⟨hd, rfl⟩ | ⟨he, hE⟩
  · exact AppendsOnly.silent (R := fun a b => runEvent e a = .next b) rfl fun l =>
      runEvent_disabled (by rw [enabled_withStatus, hd])
  have he' (l : List StatusEvent) : enabled e { s with statusOut := l } = true := by rw [enabled_withStatus, he]
  by_cases hdi : e = .dispatch
  · subst hdi
    rw [runEvent_enabled he] at h
    exact (dispatch_appendsOnly h).imp (T := fun a b => runEvent .dispatch a = .next b) fun l p hp => (runEvent_enabled (he' l)).trans hp
  · exact (hE.appendsOnly hne hdi).imp (T := fun a b => runEvent e a = .next b) fun l p hp => runEvent_of_effect (he' l) hp hdi

/-! ### The heartbeat's window (`spec/60_exceptions.md` R219 to R221, R226) -/

/-- HB_TIMEOUT finds the `HB_MISS_N`-th miss in a row. -/
def State.losesLink (s : State) : Prop := s.hbWaiting = true ∧ s.hbAck = false ∧ s.cfg.hbMissN ≤ s.hbMiss + 1

/-- `Disconnect` is posted by the HB_TIMEOUT that finds the link lost, once, and by nothing else. -/
theorem Effect.count_disconnect {e : Event} {s s' : State} (h : Effect e s s') (hne : e ≠ .rst) :
    (e = .hbExpire ∧ s.losesLink ∧ s'.statusOut.count .disconnect = s.statusOut.count .disconnect + 1) ∨
    (¬ (e = .hbExpire ∧ s.losesLink) ∧ s'.statusOut.count .disconnect = s.statusOut.count .disconnect) := by
  have hpost {ev : StatusEvent} (hev : ev ≠ .disconnect) :
      (s.statusOut ++ [ev]).count .disconnect = s.statusOut.count .disconnect := by
    simp [List.count_append, hev]
  cases h with
  | hbLost s opened silent many => exact .inl ⟨rfl, ⟨opened, silent, many⟩, by simp [List.count_append]⟩
  | hbMissed s opened silent few => exact .inr ⟨fun ⟨_, hl⟩ => Nat.not_le_of_lt few hl.2.2, rfl⟩
  | rxOverflow | rxRejected | rxExpired | commandArgError => exact .inr ⟨nofun, hpost (by simp)⟩
  | armFailed => exact .inr ⟨nofun, hpost (by simp)⟩
  | infoPosted s ev posts info => exact .inr ⟨nofun, hpost (by rintro rfl; cases info)⟩
  | armVbe | tickFirstVce | tickFirstVbe | tickMiddle | tickLastVce | tickLastVbe =>
    exact .inr ⟨nofun, by simp only [State.emitDac_statusOut]⟩
  | rst => exact absurd rfl hne
  | _ => exact .inr ⟨nofun, rfl⟩

/-- HB_SEND alone opens a window, and HB_TIMEOUT leaves it closed. -/
theorem Effect.hbWaiting_cases {e : Event} {s s' : State} (h : Effect e s s') (hne : e ≠ .rst) :
    e = .hbKick ∨ s'.hbWaiting = false ∨ (e ≠ .hbExpire ∧ s'.hbWaiting = s.hbWaiting) := by
  cases h with
  | hbSent => exact .inl rfl
  | hbTaken | hbMissed | hbLost => exact .inr (.inl rfl)
  | armVbe | armFailed | tickFirstVce | tickFirstVbe | tickMiddle | tickLastVce | tickLastVbe =>
    exact .inr (.inr ⟨nofun, State.emitDac_hbWaiting ..⟩)
  | rst => exact absurd rfl hne
  | _ => exact .inr (.inr ⟨nofun, rfl⟩)

/-- Settles O45: of the effects one posts `Disconnect`, one opens a window, and HB_TIMEOUT's two close it. -/
theorem oneDisconnectPerWindow : Obligations.OneDisconnectPerWindow := by
  intro s s' e hne h
  rcases runEvent_effect h with ⟨hd, rfl⟩ | ⟨he, hE⟩
  · have hidle : e = .hbExpire → ¬ (s'.hbWaiting = true ∧ s'.hbAck = false) := by
      rintro rfl ⟨hw, ha⟩
      simp [enabled, hw, ha] at hd
    refine ⟨?_, fun hx hw => ⟨hw, ?_⟩, fun hw hw' => by simp [hw] at hw'⟩
    · rw [if_neg fun ⟨hx, hw, ha, _⟩ => hidle hx ⟨hw, ha⟩, Nat.add_zero]
    · simpa [hw] using hidle hx
  refine ⟨?_, fun hx hw => ?_, fun hw hw' => ?_⟩
  · rcases hE.count_disconnect hne with ⟨hx, hl, hc⟩ | ⟨hl, hc⟩
    · rw [if_pos ⟨hx, hl⟩, hc]
    · simp only [State.losesLink] at hl
      rw [if_neg hl, hc, Nat.add_zero]
  · rcases hE.hbWaiting_cases hne with hk | hc | ⟨hn, -⟩
    · cases hx.symm.trans hk
    · simp [hw] at hc
    · exact absurd hx hn
  · rcases hE.hbWaiting_cases hne with hk | hc | ⟨-, hs⟩
    · exact hk
    · simp [hw'] at hc
    · simp [hs, hw] at hw'

/-! ### Quiescence (`spec/70_reset_and_hazards.md` R252) -/

theorem quiescent_iff {s : State} :
    s.quiescent = true ↔ s.rxLen = 0 ∧ s.iq = [] ∧ s.txq = [] ∧ s.txBusy = false ∧ s.done = false ∧
      s.hbWaiting = false ∧ s.acceptsSweep = true := by
  simp [State.quiescent, acceptsSweep_iff, and_assoc]

theorem lastByte_of_empty {s : State} (h : s.rxLen = 0) : s.lastByte = .ok none := by simp [State.lastByte, h]

theorem frameComplete_of_empty {s : State} (h : s.rxLen = 0) : s.frameComplete = false := by
  simp [State.frameComplete, lastByte_of_empty h]

/-- Settles O60: in a quiescent state the condition of every other event fails, of the tick and the capture by the
invariant. -/
theorem quiescentAwaitsTheEnvironment : Obligations.QuiescentAwaitsTheEnvironment := by
  intro s e hi hq he
  obtain ⟨hlen, hiq, htxq, hbusy, hdone, hwait, hacc⟩ := quiescent_iff.mp hq
  have hst := acceptsSweep_iff.mp hacc
  have hoff := hi.quiet (by rcases hst with hs | hs <;> simp [hs]) (by rcases hst with hs | hs <;> simp [hs])
  cases e with
  | linkRx b => exact .inl ⟨b, rfl⟩
  | rxByte =>
    simp only [enabled, Bool.and_eq_true, Bool.not_eq_true', List.isEmpty_eq_false_iff] at he
    exact .inr (.inl ⟨rfl, he.1⟩)
  | rxFrame => simp [enabled, State.lastByteFaults, lastByte_of_empty hlen, frameComplete_of_empty hlen] at he
  | rxExpire =>
    have hidle : s.cfg.idleTimeout = true := by simpa [enabled, hlen, frameComplete_of_empty hlen] using he
    simp [hidle]
  | dispatch => simp [enabled, hiq] at he
  | armResult r => rcases hst with hs | hs <;> simp [enabled, hs] at he
  | tick ic => exact absurd he hoff.1
  | capWrite v => simp [enabled, State.capturing, hoff.2.1] at he
  | drain => simp [enabled, hdone] at he
  | txBegin k => simp [enabled, servable, htxq] at he
  | txByte => simp [enabled, hbusy] at he
  | txDone => simp [enabled, hbusy] at he
  | hbKick => simp
  | hbTake => simp [enabled, hwait] at he
  | hbExpire => simp [enabled, hwait] at he
  | textReq t => simp
  | statusReq ev => simp
  | infoPost ev =>
    simp only [enabled, Bool.and_eq_true] at he
    simp [he.1]
  | rst => simp

end Sys2Proof.Machine

/-! SUPPORT. The codec's remaining statements (`spec/00_scope.md` R8, `spec/30_encoding.md`, `spec/40_frame_codec.md` parts B and
C): decimal numbers, packing, what DECODE accepts and refuses, and that decoding inverts encoding. -/

namespace Sys2Proof

open Config

/-! ### Decimal numbers -/

/-- A digit string is below the power of ten of its length. -/
theorem parseDec_lt {d : List Byte} (h : d.all isDigit = true) : parseDec d < 10 ^ d.length := by
  induction d using List.reverseRecOn with
  | nil => decide
  | append_singleton d b ih =>
    simp only [List.all_append, List.all_cons, List.all_nil, Bool.and_true, Bool.and_eq_true] at h
    have hd := ih h.1
    have hb : b.toNat ≤ 0x39 := by
      have := h.2
      simp only [isDigit, Bool.and_eq_true, decide_eq_true_eq] at this
      exact this.2
    rw [parseDec_concat, List.length_append, List.length_singleton, Nat.pow_succ]
    omega

theorem decDigits_ne_nil {fuel n : Nat} (h : n < fuel) : decDigits fuel n [] ≠ [] := by
  cases fuel with
  | zero => omega
  | succ fuel => rw [decDigits_succ]; simp

/-- The digits of a number above 0 do not begin with `0`. -/
theorem head_decDigits {fuel n : Nat} (h : n < fuel) (h0 : n ≠ 0) : (decDigits fuel n []).head? ≠ some 0x30 := by
  induction fuel generalizing n with
  | zero => omega
  | succ fuel ih =>
    rw [decDigits_succ]
    split
    · intro hd
      simp only [List.nil_append, List.head?_cons, Option.some.injEq] at hd
      have := digit_toNat (Nat.mod_lt n (by decide : 0 < 10))
      rw [hd] at this
      change 0x30 = 0x30 + n % 10 at this
      omega
    · have hlt : n / 10 < fuel := by omega
      rw [List.head?_append_of_ne_nil _ (decDigits_ne_nil hlt)]
      exact ih hlt (by assumption)

/-- A number above 0 has as many digits as it needs. -/
theorem pow_le_of_decDigits {fuel n : Nat} (h : n < fuel) (h0 : n ≠ 0) : 10 ^ ((decDigits fuel n []).length - 1) ≤ n := by
  induction fuel generalizing n with
  | zero => omega
  | succ fuel ih =>
    rw [decDigits_succ]
    split
    · simp; omega
    · have hlt : n / 10 < fuel := by omega
      have hlen := List.length_pos_of_ne_nil (decDigits_ne_nil hlt)
      have hpow := ih hlt (by assumption)
      obtain ⟨k, hk⟩ : ∃ k, (decDigits fuel (n / 10) []).length = k + 1 := ⟨_, (Nat.succ_pred_eq_of_pos hlen).symm⟩
      simp only [List.length_append, List.length_singleton, hk, Nat.add_sub_cancel, Nat.pow_succ] at hpow ⊢
      omega

/-- No digit string of a number is shorter than `dec` of it. -/
theorem dec_length_le {d : List Byte} (hd : isNumber d = true) : (dec (parseDec d)).length ≤ d.length := by
  simp only [isNumber, Bool.and_eq_true, Bool.not_eq_true', List.isEmpty_eq_false_iff] at hd
  by_cases h0 : parseDec d = 0
  · rw [h0]; exact List.length_pos_of_ne_nil hd.1
  · by_contra hlt
    have hpow : 10 ^ d.length ≤ 10 ^ ((dec (parseDec d)).length - 1) := Nat.pow_le_pow_right (by decide) (by omega)
    have hlow := pow_le_of_decDigits (Nat.lt_succ_self (parseDec d)) h0
    exact absurd (parseDec_lt hd.2) (Nat.not_lt.mpr (hpow.trans hlow))

/-- Settles O15: the digits of `dec` have the value, do not begin with `0`, and are as few as the value allows. -/
theorem decimalIsShortest : Obligations.DecimalIsShortest := fun n =>
  ⟨isNumber_dec n, parseDec_dec n, head_decDigits (Nat.lt_succ_self n), rfl,
    fun _ hd hn => hn ▸ dec_length_le hd⟩

/-! ### Packing -/

/-- The far end recovers the low twelve bits of every sample (`spec/40_frame_codec.md` R122). -/
theorem unpack_pack {l : List Sample} (h : l.length % 2 = 0) : unpack (pack l) = some (l.map (fun v => v &&& 0x0FFF)) := by
  induction l using pack.induct with
  | case1 x y rest ih =>
    have hr : rest.length % 2 = 0 := by simp only [List.length_cons] at h; omega
    simp only [pack, packPair, List.cons_append, List.nil_append, unpack, ih hr, unpack_first, unpack_second, List.map_cons]
  | case2 l hl =>
    cases l with
    | nil => rfl
    | cons x l =>
      cases l with
      | nil => simp at h
      | cons y rest => exact absurd rfl (hl x y rest)

/-- Settles O16: each pair comes back from its three bytes, whose values are those of the fields. -/
theorem packKeepsTwelveBits : Obligations.PackKeepsTwelveBits := by
  refine ⟨fun l h => ⟨unpack_pack h, pack_length h⟩, fun x y => ?_⟩
  simp only [pack, packPair, List.append_nil, List.map_cons, List.map_nil, extract_toNat, packMiddle_toNat, pow_zero,
    Nat.div_one]
  rfl

/-! ### What DECODE accepts -/

theorem decodeBody_eq_ok {p : GivenParams} {body : List Byte} {cmd : Byte} {arg : List Byte} :
    decodeBody p body = .ok ⟨cmd, arg⟩ ↔ body = cmd :: arg ∧ arg.length ≤ p.argCap := by
  cases body with
  | nil => simp [decodeBody]
  | cons c a =>
    simp only [decodeBody]
    split
    · rename_i hlt
      refine iff_of_false nofun ?_
      rintro ⟨h, hle⟩
      cases h
      omega
    · rename_i hle
      constructor
      · intro h; cases h; exact ⟨rfl, Nat.le_of_not_lt hle⟩
      · rintro ⟨h, -⟩; cases h; rfl

/-- Past the separator: the body of the declared length, the terminator, any bytes. -/
theorem decodeTail_eq_ok {p : GivenParams} {n : Nat} {r : List Byte} {cmd : Byte} {arg : List Byte} :
    decodeTail p n r = .ok ⟨cmd, arg⟩ ↔
      ∃ rest, r = (cmd :: arg) ++ p.termIn :: rest ∧ p.termIn ∉ cmd :: arg ∧ n = (cmd :: arg).length ∧
        arg.length ≤ p.argCap := by
  constructor
  · intro h
    simp only [decodeTail] at h
    split at h
    · cases h
    · rename_i body rest hc
      split at h
      · cases h
      · rename_i hlen
        obtain ⟨rfl, harg⟩ := decodeBody_eq_ok.mp h
        obtain ⟨hr, hn⟩ := cutAt_eq_some.mp hc
        exact ⟨rest, hr, hn, (not_not.mp hlen).symm, harg⟩
  · rintro ⟨rest, rfl, hn, hlen, harg⟩
    rw [decodeTail_parts n rest hn, if_neg (not_not_intro hlen.symm)]
    exact decodeBody_eq_ok.mpr ⟨rfl, harg⟩

/-- Settles O7: each check that passes gives one part of the frame, and a frame made of such parts passes each check. -/
theorem decodeAcceptsExactlyLegalFrames : Obligations.DecodeAcceptsExactlyLegalFrames := by
  intro p f cmd arg
  constructor
  · intro h
    simp only [decodeFrame] at h
    split at h
    · cases h
    · rename_i hhdr
      split at h
      · cases h
      · rename_i d r hc
        split at h
        · rename_i hnum
          obtain ⟨hr, hsep⟩ := cutAt_eq_some.mp hc
          obtain ⟨rest, rfl, hterm, hlen, harg⟩ := decodeTail_eq_ok.mp h
          refine ⟨d, rest, ?_, hnum, hsep, hlen, harg, hterm⟩
          rw [append_drop_of_take (not_not.mp hhdr), hr]
          simp
        · cases h
  · rintro ⟨d, rest, rfl, hnum, hsep, hlen, harg, hterm⟩
    rw [decodeFrame_frame rest hnum hsep hterm, if_neg (not_not_intro hlen.symm)]
    exact decodeBody_eq_ok.mpr ⟨rfl, harg⟩

/-- Settles O11: DECODE on the parts of a frame is its checks in order. -/
theorem firstFailingCheckIsNamed : Obligations.FirstFailingCheckIsNamed := by
  intro p d r body rest
  refine ⟨decodeFrame_noSep, fun hs hd => ?_, fun hs hd ht => ?_, fun hs hd ht hlen => ?_, fun hs hd hzero => ?_,
    fun hs hd ht hlen hlong => ?_⟩
  · have hparts := decodeFrame_parts r hs
    simpa [hd] using hparts
  · have hparts := decodeFrame_parts r hs
    simpa [hd, decodeTail, cutAt_eq_none.mpr ht] using hparts
  · exact (decodeFrame_eq_lengthMismatch rest hd hs ht).mpr hlen
  · have hbody := decodeFrame_frame (body := []) rest hd hs List.not_mem_nil
    rw [List.append_nil] at hbody
    rw [hbody, if_neg (by simp [hzero])]
    rfl
  · rw [decodeFrame_frame rest hd hs ht, if_neg (not_not_intro hlen)]
    cases body with
    | nil => simp at hlong
    | cons cmd arg => exact if_pos (Nat.lt_of_succ_lt_succ hlong)

/-- Settles O10: the body `a1` has two bytes, which 3 does not declare and 2 does. -/
theorem sourceDecodeScenarios : Obligations.SourceDecodeScenarios := by
  intro p hhdr hsep hterm
  have hframe (n : Byte) (hn : isNumber [n] = true) (hne : p.sep ∉ [n]) :
      decodeFrame p [0x51, 0x54, 0x3A, n, 0x3B, 0x61, 0x31, 0x2E] =
        if [0x61, 0x31].length ≠ parseDec [n] then .error .lengthMismatch else decodeBody p [0x61, 0x31] := by
    have h := decodeFrame_frame (body := [0x61, 0x31]) [] hn hne (by rw [hterm]; decide)
    rwa [hhdr, hsep, hterm] at h
  have hlong : decodeFrame p [0x51, 0x54, 0x3A, 0x33, 0x3B, 0x61, 0x31, 0x2E] = .error .lengthMismatch :=
    hframe 0x33 (by decide) (by rw [hsep]; decide)
  refine ⟨hlong, fun s hp hf => ?_, fun hcap => ?_⟩
  · simp only [Machine.rxFrame, hf, hp, hlong]; rfl
  · rw [hframe 0x32 (by decide) (by rw [hsep]; decide), if_neg (by decide)]
    exact decodeBody_eq_ok.mpr ⟨rfl, hcap⟩

/-! ### The outbound frame -/

/-- The declared length delimits the payload (`spec/30_encoding.md` R85). -/
theorem outboundPayload_encodeFrame {p : GivenParams} (l : List Byte) (hs : isDigit p.sep = false) :
    outboundPayload p (encodeFrame p l) = .ok l := by
  have hdrop : (encodeFrame p l).drop p.hdrOut.length = dec l.length ++ p.sep :: (l ++ p.termOut) := by simp [encodeFrame]
  simp only [outboundPayload, hdrop, cutAt_append _ (notMem_dec _ hs), parseDec_dec, if_true, List.length_append,
    Nat.le_add_right, true_and, List.drop_left, List.take_left]

/-- Settles O13: the declared length is cut at its first separator, wherever the payload holds another. -/
theorem declaredLengthDelimitsPayload : Obligations.DeclaredLengthDelimitsPayload := fun _ l hs =>
  outboundPayload_encodeFrame l hs

/-- Settles O12: an accepted frame declares its body's length, which ENCODE writes in its shortest form. -/
theorem textRoundTrip : Obligations.TextRoundTrip := by
  intro p d rest cmd arg hnum hterm hsep h
  have hlen : (cmd :: arg).length = parseDec d := by
    rw [decodeFrame_frame rest hnum (notMem_of_isNumber hnum hsep) hterm] at h
    by_contra hne
    rw [if_pos hne] at h
    cases h
  exact ⟨by rw [← hlen]; rfl, outboundPayload_encodeFrame _ hsep⟩

/-! ### Decoding inverts encoding -/

/-- The three conditions of a format that can be read back, as propositions. -/
theorem readable_iff {p : GivenParams} : readable p = true ↔
    isDigit p.sep = false ∧ ¬ p.hdrIn <+: p.hdrOut ∧ ¬ p.hdrOut <+: p.hdrIn ∧ namesApart p = true := by
  simp [readable, ← List.isPrefixOf_iff_prefix, and_assoc]

/-- An outbound frame is read by its payload. -/
theorem decode_encodeFrame {p : GivenParams} (l : List Byte) (hs : isDigit p.sep = false) :
    decode p (encodeFrame p l) = .ok (payloadInstr p l) := by
  have ht : (encodeFrame p l).take p.hdrOut.length = p.hdrOut := by simp [encodeFrame]
  simp only [decode, if_pos ht, outboundPayload_encodeFrame l hs]

theorem bodyOk_iff {p : GivenParams} {cmd : Byte} {arg : List Byte} :
    bodyOk p cmd arg = true ↔ arg.length ≤ p.argCap ∧ p.termIn ∉ cmd :: arg := by
  simp only [bodyOk, Bool.and_eq_true, decide_eq_true_eq, List.all_eq_true, bne_iff_ne, ne_eq]
  exact and_congr_right fun _ => ⟨fun h hm => h _ hm rfl, fun h b hb he => h (he ▸ hb)⟩

/-- A command's own frame is accepted as that command (`spec/30_encoding.md` R71, R87). -/
theorem decodeFrame_inboundFrame {p : GivenParams} {cmd : Byte} {arg : List Byte} (hs : isDigit p.sep = false)
    (hb : bodyOk p cmd arg = true) : decodeFrame p (inboundFrame p cmd arg) = .ok ⟨cmd, arg⟩ := by
  obtain ⟨harg, hterm⟩ := bodyOk_iff.mp hb
  have h := decodeFrame_frame [] (isNumber_dec (arg.length + 1)) (notMem_dec _ hs) hterm
  rw [List.append_nil, parseDec_dec, if_neg (by simp)] at h
  exact h.trans (decodeBody_eq_ok.mpr ⟨rfl, harg⟩)

/-- No inbound frame begins with the outbound header, where neither header begins the other (R73). -/
theorem take_inboundFrame_ne {p : GivenParams} (cmd : Byte) (arg : List Byte) (hio : ¬ p.hdrIn <+: p.hdrOut)
    (hoi : ¬ p.hdrOut <+: p.hdrIn) : (inboundFrame p cmd arg).take p.hdrOut.length ≠ p.hdrOut := by
  intro h
  have hout : p.hdrOut <+: inboundFrame p cmd arg := List.prefix_iff_eq_take.mpr h.symm
  have hin : p.hdrIn <+: inboundFrame p cmd arg := by
    simp only [inboundFrame, List.append_assoc]
    exact List.prefix_append _ _
  exact (List.prefix_or_prefix_of_prefix hin hout).elim hio hoi

/-- An inbound frame is read as its command. -/
theorem decode_inboundFrame {p : GivenParams} {cmd : Byte} {arg : List Byte} (hr : readable p = true)
    (hb : bodyOk p cmd arg = true) : decode p (inboundFrame p cmd arg) = .ok (commandInstr ⟨cmd, arg⟩) := by
  obtain ⟨hs, hio, hoi, -⟩ := readable_iff.mp hr
  simp only [decode, if_neg (take_inboundFrame_ne cmd arg hio hoi), decodeFrame_inboundFrame hs hb]

theorem payloadInstr_heartbeat (p : GivenParams) : payloadInstr p heartbeatPayload = .txHeartbeat := if_pos rfl

theorem payloadInstr_status {p : GivenParams} (hn : namesApart p = true) (ev : StatusEvent) :
    payloadInstr p (statusPayload p ev) = statusInstr ev := by
  have hof : statusOf p (statusPayload p ev) = some ev := (statusOf_eq_some hn).mpr rfl
  simp only [payloadInstr, if_neg (statusPayload_ne_heartbeat hn ev), hof]

theorem lowTwelve_of_lt {v : Sample} (h : v.toNat < 4096) : v &&& 0x0FFF = v :=
  BitVec.eq_of_toNat_eq (by rw [lowTwelve_toNat, Nat.mod_eq_of_lt h])

/-- A sweep payload begins with none of the bytes of a fixed one (`spec/30_encoding.md` R78). -/
theorem statusOf_sweepPayload (p : GivenParams) (k : CurveKind) (l : List Sample) : statusOf p (sweepPayload k l) = none := by
  refine statusOf_eq_none.mpr fun ev he => ?_
  simp only [statusPayload, sweepPayload, List.cons.injEq] at he
  cases k <;> exact absurd he.1 (by decide)

theorem sweepPayload_ne_heartbeat (k : CurveKind) (l : List Sample) : sweepPayload k l ≠ heartbeatPayload := by
  intro he
  simp only [heartbeatPayload, sweepPayload, List.cons.injEq] at he
  cases k <;> exact absurd he.1 (by decide)

theorem sweepOf_cons (k : CurveKind) (b : Byte) (packed : List Byte) :
    sweepOf k (b :: packed) = if b = kindByte k ∧ packed ≠ [] then unpack packed else none := rfl

/-- Well-formed samples come back from their bytes as they are. -/
theorem sweepOf_sweepPayload {l : List Sample} (h : samplesOk l = true) (k : CurveKind) :
    sweepOf k (sweepPayload k l) = some l := by
  simp only [samplesOk, Bool.and_eq_true, decide_eq_true_eq, List.all_eq_true] at h
  obtain ⟨⟨hlen, heven⟩, hlow⟩ := h
  have hne : pack l ≠ [] := by
    have := pack_length heven
    refine List.ne_nil_of_length_pos ?_
    omega
  have hid : l.map (fun v => v &&& 0x0FFF) = l := (List.map_congr_left fun v hv => lowTwelve_of_lt (hlow v hv)).trans l.map_id
  rw [sweepPayload, sweepOf_cons, if_pos ⟨rfl, hne⟩, unpack_pack heven, hid]

/-- A payload of one kind carries no sweep of the other. -/
theorem sweepOf_vce_vbe (l : List Sample) : sweepOf .vce (sweepPayload .vbe l) = none := by
  rw [sweepPayload, sweepOf_cons, if_neg fun h => absurd h.1 (by decide)]

theorem payloadInstr_sweep (p : GivenParams) {l : List Sample} (h : samplesOk l = true) :
    payloadInstr p (sweepPayload .vce l) = .txSweepVce l ∧ payloadInstr p (sweepPayload .vbe l) = .txSweepVbe l := by
  constructor
  · simp only [payloadInstr, if_neg (sweepPayload_ne_heartbeat _ l), statusOf_sweepPayload, sweepOf_sweepPayload h]
  · simp only [payloadInstr, if_neg (sweepPayload_ne_heartbeat _ l), statusOf_sweepPayload, sweepOf_vce_vbe,
      sweepOf_sweepPayload h]

/-- Packed bytes come in threes. -/
theorem length_of_unpack {bytes : List Byte} {l : List Sample} (h : unpack bytes = some l) : bytes.length % 3 = 0 := by
  induction bytes using unpack.induct generalizing l with
  | case1 => rfl
  | case2 b0 b1 b2 rest hrest => simp [unpack, hrest] at h
  | case3 b0 b1 b2 rest l' hrest ih =>
    have := ih hrest
    simp only [List.length_cons]
    omega
  | case4 bytes hnil hthree =>
    rw [unpack] at h
    · cases h
    · exact hnil
    · exact hthree

/-- What reads as a sweep has a sweep's form (`spec/30_encoding.md` R89). -/
theorem sweepShaped_of_sweepOf {k : CurveKind} {payload : List Byte} {l : List Sample} (h : sweepOf k payload = some l) :
    sweepShaped payload = true := by
  cases payload with
  | nil => cases h
  | cons b packed =>
    simp only [sweepOf] at h
    split at h
    · rename_i hc
      have hlen := length_of_unpack h
      cases k <;> simp [sweepShaped, hc.1, hc.2, hlen]
    · cases h

/-- A text that is no other row's payload is read as a text (R80). -/
theorem payloadInstr_text {p : GivenParams} {text : List Byte} (h : textOk p text = true) :
    payloadInstr p text = .txText text := by
  simp only [textOk, Bool.and_eq_true, bne_iff_ne, List.all_eq_true, Bool.not_eq_true'] at h
  obtain ⟨⟨hhb, hst⟩, hsw⟩ := h
  have hstatus : statusOf p text = none := statusOf_eq_none.mpr fun ev => hst ev (mem_statusEvents ev)
  have hsweep (k : CurveKind) : sweepOf k text = none := by
    cases hk : sweepOf k text with
    | none => rfl
    | some l => rw [sweepShaped_of_sweepOf hk] at hsw; cases hsw
  simp only [payloadInstr, if_neg hhb, hstatus, hsweep]

/-- Settles O5: an inbound row's frame is read by DECODE, an outbound row's by its declared length and then by the form of its
payload. -/
theorem decodeInvertsEncode : Obligations.DecodeInvertsEncode := by
  refine ⟨by decide, fun p i hr hw => ?_⟩
  obtain ⟨hs, -, -, hn⟩ := readable_iff.mp hr
  have hstatus (ev : StatusEvent) : decode p (encodeFrame p (statusPayload p ev)) = .ok (statusInstr ev) := by
    rw [decode_encodeFrame _ hs, payloadInstr_status hn]
  cases i with
  | hbAck arg => exact decode_inboundFrame hr hw
  | loadVce arg => exact decode_inboundFrame hr hw
  | loadVbe arg => exact decode_inboundFrame hr hw
  | start arg => exact decode_inboundFrame hr hw
  | unrecognized cmd arg =>
    simp only [wellFormed, Bool.and_eq_true] at hw
    have hcmd := hw.1
    simp only [unrecognizedOk, Bool.and_eq_true, bne_iff_ne] at hcmd
    obtain ⟨⟨⟨hAck, hVce⟩, hVbe⟩, hStart⟩ := hcmd
    rw [encode, decode_inboundFrame hr hw.2, Machine.commandInstr_of_unrecognized arg hAck hVce hVbe hStart]
  | txHeartbeat => rw [encode, decode_encodeFrame _ hs, payloadInstr_heartbeat]
  | txStatusOk => exact hstatus .ok
  | txStatusErrorGeneric => exact hstatus .errorGeneric
  | txStatusTransmit => exact hstatus .transmit
  | txStatusReceive => exact hstatus .receive
  | txStatusTimeout => exact hstatus .timeout
  | txStatusOverflow => exact hstatus .overflow
  | txStatusErrorReceive => exact hstatus .errorReceive
  | txStatusDisconnect => exact hstatus .disconnect
  | txSweepVce l => rw [encode, decode_encodeFrame _ hs, (payloadInstr_sweep p hw).1]
  | txSweepVbe l => rw [encode, decode_encodeFrame _ hs, (payloadInstr_sweep p hw).2]
  | txText text => rw [encode, decode_encodeFrame _ hs, payloadInstr_text hw]

/-- Settles O6: each of the five is the frame of a well-formed instruction of its row. -/
theorem framesDecodeToTheirRows : Obligations.FramesDecodeToTheirRows := by
  obtain ⟨hr, hdec⟩ := decodeInvertsEncode
  exact ⟨hdec given (.hbAck []) hr (by decide),
    hdec given (.loadVce [0x35, 0x30, 0x2D, 0x32, 0x2D, 0x31, 0x30, 0x30]) hr (by decide),
    hdec given (.start []) hr (by decide), hdec given .txHeartbeat hr rfl,
    hdec given (.txSweepVbe [0x0010, 0x0020]) hr (by decide)⟩

end Sys2Proof

/-! SUPPORT. The Sweep Planner's tables (`spec/41_sweep_planner.md`) and the commands (`spec/43_command_dispatch.md` R171 to
R179). -/

namespace Sys2Proof.Machine

open Config

/-! ### The entries of a table -/

/-- Every code of the planner is a nearest one (R132, `spec/93_implementation_defined.md` U4). -/
theorem rampCode_nearest (p : Params) (m i : Nat) : NearestCode p.toGivenParams m i (rampCode p.toGivenParams m i) :=
  roundHalf_nearest _ _ (Nat.mul_pos p.legal.vfsMv_pos p.legal.rampSteps_pos)

/-- The formula of R132, where every half is rounded up. -/
theorem rampCode_up {p : GivenParams} (h : p.halvesDown = []) (m i : Nat) :
    rampCode p m i = (2 * m * i * p.dacMax + p.vfsMv * p.rampSteps) / (2 * p.vfsMv * p.rampSteps) := by
  rw [rampCode, roundHalf_up h, Nat.mul_assoc 2 p.vfsMv]

/-- A target or an index of 0 has the code 0. -/
theorem rampCode_zero (p : Params) {m i : Nat} (h : m * i = 0) : rampCode p.toGivenParams m i = 0 := by
  have hpos : 0 < p.vfsMv * p.rampSteps := Nat.mul_pos p.legal.vfsMv_pos p.legal.rampSteps_pos
  have hle := roundHalf_le p.toGivenParams (2 * m * i * p.dacMax) (p.vfsMv * p.rampSteps)
  rw [Nat.mul_assoc 2, h, Nat.mul_zero, Nat.zero_mul, Nat.zero_add, Nat.div_eq_of_lt (by omega)] at hle
  rw [rampCode, Nat.mul_assoc 2, h, Nat.mul_zero, Nat.zero_mul]
  exact Nat.le_zero.mp hle

/-- The last code is the target scaled to full scale and rounded half up. -/
theorem rampCode_last {p : Params} (h : p.halvesDown = []) (m : Nat) :
    rampCode p.toGivenParams m p.rampSteps = (2 * m * p.dacMax + p.vfsMv) / (2 * p.vfsMv) := by
  have hnum : 2 * m * p.rampSteps * p.dacMax + p.vfsMv * p.rampSteps = (2 * m * p.dacMax + p.vfsMv) * p.rampSteps := by ring
  rw [rampCode_up h, hnum, Nat.mul_div_mul_right _ _ p.legal.rampSteps_pos]

/-- A legal table's entry is its code: it fits twelve bits. -/
theorem rampTable_toNat {p : Params} {m i : Nat} (hm : m ≤ p.vfsMv) (hi : i ≤ p.rampSteps) :
    ((rampTable p.toGivenParams m)[i]?).map BitVec.toNat = some (rampCode p.toGivenParams m i) := by
  have hle := rampCode_le p.legal.vfsMv_pos p.legal.rampSteps_pos hm hi
  have hmax := p.legal.dacMax_max
  rw [rampTable_get m (Nat.lt_succ_of_le hi), Option.map_some, BitVec.toNat_ofNat, Nat.mod_eq_of_lt (by omega)]

/-- The entries of a table, by index. -/
theorem rampTable_entry {p : Params} {m i : Nat} {c : DacCode} (hm : m ≤ p.vfsMv)
    (h : (rampTable p.toGivenParams m)[i]? = some c) : i ≤ p.rampSteps ∧ c.toNat = rampCode p.toGivenParams m i := by
  have hi : i ≤ p.rampSteps := by
    by_contra hlt
    rw [rampTable_get_none m (by rw [rampLen_eq]; omega)] at h
    cases h
  have hc := rampTable_toNat hm hi
  rw [h, Option.map_some, Option.some.injEq] at hc
  exact ⟨hi, hc⟩

theorem rampTable_mem {p : Params} {m : Nat} {c : DacCode} (hm : m ≤ p.vfsMv) (h : c ∈ rampTable p.toGivenParams m) :
    ∃ i, i ≤ p.rampSteps ∧ c.toNat = rampCode p.toGivenParams m i := by
  obtain ⟨i, hi⟩ := List.mem_iff_getElem?.mp h
  exact ⟨i, rampTable_entry hm hi⟩

/-- The configuration with R4's values and the smallest OPEN ones. -/
def givenConfig : Params := {}

/-- Settles O17: every claim on the entries is one on the ramp function. -/
theorem rampTableProperties : Obligations.RampTableProperties := by
  refine ⟨fun p m hm => ⟨rampTable_length m, fun i hi => ⟨_, rampTable_toNat hm hi, rampCode_nearest p m i⟩,
    fun i hh hi => ?_, ?_, fun i c c' hc hc' => ?_, fun hh => ?_, fun c hc => ?_, ?_⟩, fun m hm => ⟨rfl, fun i hi => ?_⟩⟩
  · rw [rampTable_toNat hm hi, rampCode_up hh]
  · rw [rampTable_toNat hm (Nat.zero_le _), rampCode_zero p (Nat.mul_zero m)]
  · rw [(rampTable_entry hm hc).2, (rampTable_entry hm hc').2]
    exact rampCode_mono m (Nat.le_succ i)
  · rw [rampTable_toNat hm le_rfl, rampCode_last hh]
  · obtain ⟨i, hi, hci⟩ := rampTable_mem hm hc
    exact hci ▸ rampCode_le p.legal.vfsMv_pos p.legal.rampSteps_pos hm hi
  · rintro rfl c hc
    obtain ⟨i, -, hci⟩ := rampTable_mem hm hc
    rw [hci, rampCode_zero p (Nat.zero_mul i)]
  · rw [← rampCode_given]
    exact rampTable_toNat (p := givenConfig) hm hi

/-! ### The loaded table -/

/-- What PLAN's memory says of a target (R130, R132): the nearest codes up to index `S` and nothing beyond. -/
structure HoldsRamp (p : Params) (m : Nat) (table : Mem 12) : Prop where
  nearest : ∀ i, i ≤ p.rampSteps → ∃ c, Mem.read table i = some (BitVec.ofNat 12 c) ∧ NearestCode p.toGivenParams m i c
  formula : ∀ i, p.halvesDown = [] → i ≤ p.rampSteps → Mem.read table i = some (BitVec.ofNat 12
    ((2 * m * i * p.dacMax + p.vfsMv * p.rampSteps) / (2 * p.vfsMv * p.rampSteps)))
  beyond : ∀ i, p.rampSteps < i → Mem.read table i = none
  given_formula : p.toGivenParams = given → ∀ i, i ≤ 200 →
    Mem.read table i = some (BitVec.ofNat 12 ((8190 * m * i + 1000000) / 2000000))

theorem holdsRamp_fill (p : Params) (m : Nat) : HoldsRamp p m (Mem.fill (rampTable p.toGivenParams m)) where
  nearest i hi := ⟨_, by rw [Mem.read_fill, rampTable_get m (Nat.lt_succ_of_le hi)], rampCode_nearest p m i⟩
  formula i hh hi := by rw [Mem.read_fill, rampTable_get m (Nat.lt_succ_of_le hi), rampCode_up hh]
  beyond i hi := by rw [Mem.read_fill, rampTable_get_none m hi]
  given_formula hp i hi := by
    have hlt : i < given.rampLen := Nat.lt_succ_of_le hi
    rw [Mem.read_fill, hp, rampTable_get m hlt, rampCode_given]

/-- R4's formula for a target in tenths of a volt (R133). -/
theorem given_formula_tenths (a i : Nat) : (8190 * (100 * a) * i + 1000000) / 2000000 = (819 * a * i + 1000) / 2000 := by
  rw [show 8190 * (100 * a) * i + 1000000 = 1000 * (819 * a * i + 1000) by ring, show 2000000 = 1000 * 2000 from rfl,
    Nat.mul_div_mul_left _ _ (by decide)]

/-! ### The `a` argument -/

/-- Three numbers in range make an `a` argument (`spec/30_encoding.md` R76). -/
theorem parseVceArg_of_fields {delim : Byte} {most n : Nat} {f0 f1 f2 : List Byte} (h0 : isNumber f0 = true)
    (h1 : isNumber f1 = true) (h2 : isNumber f2 = true) (hd : delim ∉ f0 ++ f1 ++ f2) (a : parseDec f0 ≤ most)
    (g : parseDec f1 < n) (c : parseDec f2 ≤ 255) :
    parseVceArg delim most n (f0 ++ [delim] ++ f1 ++ [delim] ++ f2) = some (parseDec f0, parseDec f1, parseDec f2) := by
  simp only [List.mem_append, not_or] at hd
  obtain ⟨⟨d0, d1⟩, d2⟩ := hd
  exact parseVceArg_eq_some.mpr ⟨f0, f1, f2, by simp, d0, d1, d2, parseField_eq_some.mpr ⟨h0, rfl, a⟩,
    parseField_eq_some.mpr ⟨h1, rfl, Nat.le_sub_one_of_lt g⟩, parseField_eq_some.mpr ⟨h2, rfl, c⟩⟩

/-- Nothing else does. -/
theorem fields_of_parseVceArg {delim : Byte} {most n a g c : Nat} {arg : List Byte} (hn : 1 ≤ n)
    (h : parseVceArg delim most n arg = some (a, g, c)) :
    ∃ f0 f1 f2, arg = f0 ++ [delim] ++ f1 ++ [delim] ++ f2 ∧ isNumber f0 = true ∧ isNumber f1 = true ∧
      isNumber f2 = true ∧ delim ∉ f0 ++ f1 ++ f2 ∧ parseDec f0 ≤ most ∧ parseDec f1 < n ∧ parseDec f2 ≤ 255 := by
  obtain ⟨f0, f1, f2, rfl, d0, d1, d2, h0, h1, h2⟩ := parseVceArg_eq_some.mp h
  obtain ⟨n0, rfl, ha⟩ := parseField_eq_some.mp h0
  obtain ⟨n1, rfl, hg⟩ := parseField_eq_some.mp h1
  obtain ⟨n2, rfl, hc⟩ := parseField_eq_some.mp h2
  exact ⟨f0, f1, f2, by simp, n0, n1, n2, by simp [d0, d1, d2], ha, by omega, hc⟩

/-! ### The LOADs -/

theorem exec_loadVce_some {s : State} {arg : List Byte} {a g c : Nat} (hacc : s.acceptsSweep = true)
    (hp : parseVceArg s.cfg.argDelim s.cfg.ampMax s.cfg.gainCount arg = some (a, g, c)) :
    exec (.loadVce arg) s = .next (s.loadVce a g c) := by
  simp only [exec, execLoadVce, if_pos hacc, hp]

theorem exec_loadVce_none {s : State} {arg : List Byte} (hacc : s.acceptsSweep = true)
    (hp : parseVceArg s.cfg.argDelim s.cfg.ampMax s.cfg.gainCount arg = none) :
    exec (.loadVce arg) s = .next (s.post .errorReceive) := by
  simp only [exec, execLoadVce, if_pos hacc, hp]

/-- Settles O20: the argument parses to its three numbers, and the table is PLAN's for the target of R133. -/
theorem loadVceLoadsRequest : Obligations.LoadVceLoadsRequest := by
  intro s f0 f1 f2 hst h0 h1 h2 hd ha hg hc
  have hramp := holdsRamp_fill s.cfg (100 * parseDec f0)
  have hexec := exec_loadVce_some (acceptsSweep_iff.mpr hst) (parseVceArg_of_fields h0 h1 h2 hd ha hg hc)
  exact ⟨_, hexec, hramp.nearest, hramp.formula, hramp.beyond,
    fun hp i hi => given_formula_tenths _ i ▸ hramp.given_formula hp i hi⟩

/-- Settles O21: an argument that parses is three numbers in range. -/
theorem loadVceArgumentError : Obligations.LoadVceArgumentError := by
  intro s arg hst hno
  cases hp : parseVceArg s.cfg.argDelim s.cfg.ampMax s.cfg.gainCount arg with
  | none => exact exec_loadVce_none (acceptsSweep_iff.mpr hst) hp
  | some x => exact absurd (fields_of_parseVceArg s.cfg.legal.gainCount_min hp) hno

/-- Settles O22: the table is PLAN's for the target of R134. -/
theorem loadVbeLoadsRequest : Obligations.LoadVbeLoadsRequest := by
  intro s arg hst
  have hramp := holdsRamp_fill s.cfg s.cfg.vbeTargetMv
  have hexec : exec (.loadVbe arg) s = .next { ({ s with reqKind := .vbe } : State).planVbe with reqValid := true } := by
    simp only [exec, execLoadVbe, if_pos (acceptsSweep_iff.mpr hst)]
  exact ⟨_, hexec, hramp.nearest, hramp.formula, hramp.beyond, hramp.given_formula⟩

/-! ### The other commands -/

/-- Settles O19: it is the arm of HB_ACK as `exec` gives it. -/
theorem hbAckAcknowledges : Obligations.HbAckAcknowledges := fun _ _ => rfl

/-- An active sweep accepts no LOAD and no START (R176). -/
theorem exec_sweep_rejected {s : State} (hacc : s.acceptsSweep = false) (arg : List Byte) :
    exec (.loadVce arg) s = .next s ∧ exec (.loadVbe arg) s = .next s ∧ exec (.start arg) s = .next s := by
  simp [exec, execLoadVce, execLoadVbe, execStart, hacc]

theorem acceptsSweep_eq_false {s : State} : s.acceptsSweep = false ↔ s.sweepState ≠ .idle ∧ s.sweepState ≠ .faulted := by
  rw [← not_or, ← acceptsSweep_iff, Bool.not_eq_true]

/-- Settles O23: each command's own condition, before any of its effects. -/
theorem silentRejections : Obligations.SilentRejections := by
  refine fun s arg => ⟨fun hi hf => exec_sweep_rejected (acceptsSweep_eq_false.mpr ⟨hi, hf⟩) arg, fun h => ?_, fun _ => rfl⟩
  refine if_neg ?_
  rintro ⟨-, hv, hc⟩
  rcases h with h | h
  · simp [h] at hv
  · simp [h] at hc

/-- Settles O24: an accepted START is ARM, which for VBE also drives its channel to 0. -/
theorem startArms : Obligations.StartArms := by
  intro s arg hst hv hc
  have hexec : exec (.start arg) s = .next s.arm := if_pos ⟨acceptsSweep_iff.mpr hst, hv, hc⟩
  rw [arm_eq] at hexec
  refine ⟨fun hk => ?_, fun hk => ?_⟩
  · rw [hexec, hk]
  · rw [hexec, hk]
    simp only [State.emitDac_eq, hk]

/-- Settles O25: `Running` and `Draining` accept no sweep. -/
theorem commandsLeaveActiveSweep : Obligations.CommandsLeaveActiveSweep := by
  intro s i hin hst
  have hacc : s.acceptsSweep = false := by
    rcases hst with hs | hs <;> exact acceptsSweep_eq_false.mpr (by simp [hs])
  have hrej := exec_sweep_rejected hacc
  cases i with
  | hbAck arg => exact .inl ⟨arg, rfl, rfl⟩
  | loadVce arg => exact .inr ⟨nofun, (hrej arg).1⟩
  | loadVbe arg => exact .inr ⟨nofun, (hrej arg).2.1⟩
  | start arg => exact .inr ⟨nofun, (hrej arg).2.2⟩
  | unrecognized cmd arg => exact .inr ⟨nofun, rfl⟩
  | _ => cases hin

end Sys2Proof.Machine

/-! SUPPORT. Single steps written out: an enabled event's step is its effect, a disabled one leaves the schedule alone; with the
statements on one step of each agent. -/

namespace Sys2Proof.Machine

open Config

/-! ### A step is its event's effect -/

theorem step_disabled {s : State} {e : Event} {r : List Event} (hs : s.sched = e :: r) (hd : enabled e s = false) :
    step s = .next { s with sched := r } := by
  rw [step_cons hs]
  exact runEvent_disabled (by rw [enabled_sched, hd])

theorem step_effect {s t : State} {e : Event} {r : List Event} (hs : s.sched = e :: r) (he : enabled e s = true)
    (hE : Effect e { s with sched := r } t) (hne : e ≠ .dispatch := by nofun) : step s = .next t := by
  rw [step_cons hs]
  exact runEvent_of_effect (by rw [enabled_sched, he]) hE hne

/-- The states of a run are those of the machine with the run's events scheduled. -/
theorem Run.core_run {st : Nat → State} {ev : Nat → Event} (h : Run st ev) (n k : Nat) (r : List Event) :
    Host.Core.run Sys2Proof.core n ({ st k with sched := (List.range' k n).map ev ++ r } : State) =
      .next ({ st (k + n) with sched := r } : State) := by
  induction n generalizing k with
  | zero => rfl
  | succ n ih =>
    have hstep : step { st k with sched := ev k :: ((List.range' (k + 1) n).map ev ++ r) } =
        .next { st (k + 1) with sched := (List.range' (k + 1) n).map ev ++ r } :=
      (step_cons rfl).trans (runEvent_sched (s := st k) _ (h k))
    rw [List.range'_succ, List.map_cons, List.cons_append, core_run_succ hstep, ih (k + 1), Nat.add_right_comm,
      Nat.add_assoc]

/-- Settles O2: a run is the fold of its own events, which `core_run` states from any index on. -/
theorem disabledEventHolds : Obligations.DisabledEventHolds := by
  refine ⟨fun s e r hs hd => step_disabled hs hd, fun s hs => step_nil hs, fun st ev h n r => ?_⟩
  have hrun := h.core_run n 0 r
  rwa [← List.range_eq_range', Nat.zero_add] at hrun

/-! ### Received frames -/

/-- A payload is an outbound row's. -/
theorem isInbound_payloadInstr (p : GivenParams) (l : List Byte) : isInbound (payloadInstr p l) = false := by
  simp only [payloadInstr]
  split
  · rfl
  split
  · rename_i ev _; cases ev <;> rfl
  split
  · rfl
  split <;> rfl

/-- An inbound row is read by DECODE, and is the command of its Instruction. -/
theorem decodeFrame_of_decode {p : GivenParams} {f : List Byte} {i : Instr} (h : decode p f = .ok i)
    (hin : isInbound i = true) : ∃ j, decodeFrame p f = .ok j ∧ commandInstr j = i := by
  simp only [decode] at h
  split at h
  · split at h
    · cases h
      rw [isInbound_payloadInstr] at hin
      cases hin
    · cases h
  · split at h
    · rename_i j hj
      cases h
      exact ⟨j, hj, rfl⟩
    · cases h

theorem frameComplete_eq_false {s : State} {x : Option Byte} (h : s.lastByte = .ok x) (hx : x ≠ some s.cfg.termIn) :
    s.frameComplete = false := by
  rw [Bool.eq_false_iff, ne_eq, frameComplete_iff, h]
  exact fun he => hx (Except.ok.inj he)

/-- RX_FRAME is enabled at a complete frame that fails to decode, or decodes with room in `iq`. -/
theorem enabled_rxFrame_iff {s : State} {f : List Byte} (hf : s.frameBytes = .ok f) :
    enabled .rxFrame s = true ↔ s.frameComplete = true ∧
      (s.iq.length < s.cfg.iqDepth ∨ ∃ err, decodeFrame s.cfg.toGivenParams f = .error err) := by
  have hnf : s.lastByteFaults = false := lastByteFaults_iff.mpr ⟨_, lastByte_of_frameBytes hf⟩
  simp only [enabled, hnf, Bool.false_or, Bool.and_eq_true, State.frameTakable, hf]
  cases decodeFrame s.cfg.toGivenParams f <;> simp

/-- RX_FRAME of a frame that decodes, with room in `iq` (`spec/40_frame_codec.md` R102). -/
theorem step_rxFrame_ok {s : State} {r : List Event} {f : List Byte} {i : Instruction} (hs : s.sched = .rxFrame :: r)
    (hlast : s.lastByte = .ok (some s.cfg.termIn)) (hf : s.frameBytes = .ok f)
    (hi : decodeFrame s.cfg.toGivenParams f = .ok i) (room : s.iq.length < s.cfg.iqDepth) :
    step s = .next { s with sched := r, rxLen := 0, iq := s.iq ++ [i] } :=
  step_effect hs ((enabled_rxFrame_iff hf).mpr ⟨frameComplete_iff.mpr hlast, .inl room⟩)
    (.rxDecoded { s with sched := r } f i (frameComplete_iff.mpr hlast) hf hi room)

/-- RX_FRAME of a frame that decodes, while `iq` is full. -/
theorem step_rxFrame_held {s : State} {r : List Event} {f : List Byte} {i : Instruction} (hs : s.sched = .rxFrame :: r)
    (hf : s.frameBytes = .ok f) (hi : decodeFrame s.cfg.toGivenParams f = .ok i) (full : s.cfg.iqDepth ≤ s.iq.length) :
    step s = .next { s with sched := r } := by
  refine step_disabled hs (Bool.eq_false_iff.mpr fun he => ?_)
  rcases ((enabled_rxFrame_iff hf).mp he).2 with hlt | ⟨err, herr⟩
  · omega
  · rw [hi] at herr; cases herr

/-- RX_FRAME of a frame that does not decode. -/
theorem step_rxFrame_error {s : State} {r : List Event} {f : List Byte} {err : DecodeError} (hs : s.sched = .rxFrame :: r)
    (hlast : s.lastByte = .ok (some s.cfg.termIn)) (hf : s.frameBytes = .ok f)
    (he : decodeFrame s.cfg.toGivenParams f = .error err) :
    step s = .next { s with sched := r, rxLen := 0, statusOut := s.statusOut ++ [.errorReceive] } :=
  step_effect hs ((enabled_rxFrame_iff hf).mpr ⟨frameComplete_iff.mpr hlast, .inr ⟨err, he⟩⟩)
    (.rxRejected { s with sched := r } f err (frameComplete_iff.mpr hlast) hf he)

/-- Settles O3: the frame's Instruction goes into the empty `iq`, and DISPATCH takes it from there. -/
theorem receivedFrameIsRun : Obligations.ReceivedFrameIsRun := by
  intro s r f i hs hiq hna hnc hlast hf hdec hin
  obtain ⟨j, hj, rfl⟩ := decodeFrame_of_decode hdec hin
  refine ⟨_, step_rxFrame_ok hs hlast hf hj (by rw [hiq]; exact s.cfg.legal.iqDepth_min), ?_⟩
  rw [step_dispatch (s := { s with sched := .dispatch :: r, rxLen := 0, iq := s.iq ++ [j] }) (i := j) (q := []) rfl
    (by simp [hiq]) (dispatcherFree_iff.mpr ⟨hna, hnc⟩), ← hiq]

/-! ### RECEIVER's single steps -/

/-- A read of the last byte past the buffer faults (`spec/00_scope.md` R9). -/
theorem lastByte_outside {s : State} (h : s.cfg.frameCap < s.rxLen.toNat) : s.lastByte = .error .rxBufIndex := by
  have h0 : s.rxLen ≠ 0 := by rintro h0; simp [h0] at h
  have hge : ¬ s.rxLen.toNat - 1 < s.cfg.frameCap := by omega
  simp only [State.lastByte, if_neg h0, Mem.get, if_neg hge]

theorem frameComplete_outside {s : State} (h : s.cfg.frameCap < s.rxLen.toNat) : s.frameComplete = false := by
  simp [State.frameComplete, lastByte_outside h]

/-- The last byte of an incomplete buffer is readable, and no terminator. -/
theorem lastByte_incomplete {s : State} (h : s.rxLen = 0 ∨ ∃ c, s.lastByte = .ok (some c) ∧ c ≠ s.cfg.termIn) :
    ∃ x, s.lastByte = .ok x ∧ x ≠ some s.cfg.termIn := by
  rcases h with h0 | ⟨c, hc, hne⟩
  · exact ⟨none, lastByte_of_empty h0, nofun⟩
  · exact ⟨some c, hc, fun he => hne (Option.some.inj he)⟩

theorem enabled_rxByte_iff {s : State} : enabled .rxByte s = true ↔ s.linkRx ≠ [] ∧ s.frameComplete = false := by
  simp [enabled]

/-- RX_BYTE where its store would be at `FRAME_CAP` (`spec/20_memory.md` R48). -/
theorem storeByte_outside {s : State} (b : Byte) (h : s.cfg.frameCap ≤ s.rxLen.toNat) :
    storeByte b s = .error .rxBufIndex := by
  simp [storeByte, Mem.put, Nat.not_lt.mpr h]

theorem step_fault {s : State} {e : Event} {r : List Event} {f : Fault} (hs : s.sched = e :: r) (he : enabled e s = true)
    (hf : fire e { s with sched := r } = .fault f) : step s = .fault f := by
  rw [step_cons hs, runEvent_enabled (by rw [enabled_sched, he]), hf]

/-- Settles O34: the store and the overflow are RX_BYTE's two effects; outside the buffer the read of the last byte faults, or
the write of the next one. -/
theorem rxByteStores : Obligations.RxByteStores := by
  refine fun s r hs => ⟨fun b l hl room hinc => ?_, fun h => ?_, fun hl h => ?_⟩
  · obtain ⟨x, hx, hxt⟩ := lastByte_incomplete hinc
    have hfc := frameComplete_eq_false hx hxt
    have he := enabled_rxByte_iff.mpr ⟨by simp [hl], hfc⟩
    exact ⟨_, Mem.read_write_same s.rxBuf _ b, fun i hi => Mem.read_write_other s.rxBuf b hi,
      fun hfits => step_effect hs he (.rxStored { s with sched := r } b l x hl hx hfc room hfits),
      fun hbt hfull => step_effect hs he (.rxOverflow { s with sched := r } b l x hl hx hfc hbt hfull)⟩
  · refine step_disabled hs (Bool.eq_false_iff.mpr fun he => ?_)
    obtain ⟨hne, hfc⟩ := enabled_rxByte_iff.mp he
    rcases h with h | h
    · exact hne h
    · rw [frameComplete_iff.mpr h] at hfc; cases hfc
  · obtain ⟨b, l, hbl⟩ := List.exists_cons_of_ne_nil hl
    rcases h with hout | ⟨hfull, c, hc, hct⟩
    · refine step_fault hs (enabled_rxByte_iff.mpr ⟨hl, frameComplete_outside hout⟩) ?_
      have hlast : State.lastByte { s with sched := r } = .error .rxBufIndex := lastByte_outside hout
      simp only [fire, rxByte, hlast, outcome]
    · have hfc := frameComplete_eq_false hc fun he => hct (Option.some.inj he)
      refine step_fault hs (enabled_rxByte_iff.mpr ⟨hl, hfc⟩) ?_
      have hlast : State.lastByte { s with sched := r } = .ok (some c) := hc
      have hput : storeByte b { s with sched := r, linkRx := l } = .error .rxBufIndex := storeByte_outside b hfull.ge
      rw [fire, rxByte_store (s := { s with sched := r }) hbl hlast, hput, outcome]

/-- Settles O35: a clause for each answer of DECODE, and the read outside the buffer faults in `frameBytes`. -/
theorem rxFrameDecodes : Obligations.RxFrameDecodes := by
  refine fun s r hs => ⟨fun hinc => ?_, fun f hf hlast => ⟨fun i hi room => step_rxFrame_ok hs hlast hf hi room,
    fun i hi full => step_rxFrame_held hs hf hi full, fun err he => step_rxFrame_error hs hlast hf he⟩, fun hout => ?_⟩
  · obtain ⟨x, hx, hxt⟩ := lastByte_incomplete hinc
    have hnf : s.lastByteFaults = false := lastByteFaults_iff.mpr ⟨x, hx⟩
    exact step_disabled hs (by simp [enabled, hnf, frameComplete_eq_false hx hxt])
  · have hlast : s.lastByte = .error .rxBufIndex := lastByte_outside hout
    have hfb : ∀ f, s.frameBytes ≠ .ok f := fun f hf => by
      rw [lastByte_of_frameBytes hf] at hlast
      cases hlast
    have hen : enabled .rxFrame s = true := by simp [enabled, State.lastByteFaults, hlast]
    cases hf : s.frameBytes with
    | ok f => exact absurd hf (hfb f)
    | error x =>
      refine ⟨x, step_fault hs hen ?_⟩
      have hf' : State.frameBytes { s with sched := r } = .error x := hf
      simp only [fire, rxFrame, hf', outcome]

theorem enabled_rxExpire_iff {s : State} :
    enabled .rxExpire s = true ↔ (s.rxLen ≠ 0 ∨ s.cfg.idleTimeout = true) ∧ s.frameComplete = false := by
  simp [enabled]

/-- Settles O36: RX_TIMEOUT's one effect, which at an idle Link has nothing to discard. -/
theorem rxTimeoutDiscardsPartialFrame : Obligations.RxTimeoutDiscardsPartialFrame := by
  refine fun s r hs => ⟨fun c hc hct => ?_, fun h => ?_, fun h0 hidle => ?_, fun hout => ?_⟩
  · have h0 : s.rxLen ≠ 0 := (lastByte_eq_some.mp hc).1
    have hfc := frameComplete_eq_false hc fun he => hct (Option.some.inj he)
    exact step_effect hs (enabled_rxExpire_iff.mpr ⟨.inl h0, hfc⟩) (.rxExpired { s with sched := r } _ (.inl h0) hc hfc)
  · refine step_disabled hs (Bool.eq_false_iff.mpr fun he => ?_)
    obtain ⟨hheld, hfc⟩ := enabled_rxExpire_iff.mp he
    rcases h with ⟨h0, hidle⟩ | hlast
    · simp [h0, hidle] at hheld
    · rw [frameComplete_iff.mpr hlast] at hfc; cases hfc
  · have hfc := frameComplete_of_empty h0
    rw [step_effect hs (enabled_rxExpire_iff.mpr ⟨.inr hidle, hfc⟩)
      (.rxExpired { s with sched := r } none (.inr hidle) (lastByte_of_empty h0) hfc), ← h0]
  · have h0 : s.rxLen ≠ 0 := by rintro h0; simp [h0] at hout
    refine step_fault hs (enabled_rxExpire_iff.mpr ⟨.inl h0, frameComplete_outside hout⟩) ?_
    have hlast : State.lastByte { s with sched := r } = .error .rxBufIndex := lastByte_outside hout
    simp only [fire, rxTimeout, hlast, outcome]

/-! ### SERIALIZER's single steps -/

/-- The k-th request may be served where no earlier one is of its requester (`spec/20_memory.md` R66). -/
theorem servable_iff {l : List TxRequest} {k : Nat} :
    servable l k = true ↔
      ∃ q, l[k]? = some q ∧ ∀ j p, j < k → l[j]? = some p → requester p ≠ requester q := by
  simp only [servable]
  cases hk : l[k]? with
  | none => simp
  | some q =>
    simp only [List.all_eq_true, bne_iff_ne, Option.some.injEq, exists_eq_left']
    constructor
    · intro h j p hj hp
      exact h p (List.mem_of_getElem? (by rwa [List.getElem?_take_of_lt hj]))
    · intro h p hp
      obtain ⟨j, hj⟩ := List.mem_iff_getElem?.mp hp
      rw [List.getElem?_take] at hj
      split at hj
      · exact h j p (by assumption) hj
      · cases hj

theorem enabled_txBegin_iff {s : State} {k : Nat} :
    enabled (.txBegin k) s = true ↔ s.txBusy = false ∧ servable s.txq k = true := by
  simp [enabled]

/-- What a request stands for does not depend on the queue or the schedule. -/
theorem step_txBegin {s : State} {r : List Event} {k : Nat} {q : TxRequest} (hs : s.sched = .txBegin k :: r)
    (hbusy : s.txBusy = false) (hq : s.txq[k]? = some q)
    (hfirst : ∀ j p, j < k → s.txq[j]? = some p → requester p ≠ requester q) :
    step s = exec (requestInstr s q) { s with sched := r, txq := s.txq.eraseIdx k } := by
  have he : enabled (.txBegin k) { s with sched := r } = true :=
    enabled_txBegin_iff.mpr ⟨hbusy, servable_iff.mpr ⟨q, hq, hfirst⟩⟩
  have hq' : ({ s with sched := r } : State).txq[k]? = some q := hq
  rw [step_cons hs, runEvent_enabled he, fire, txBegin, hq']
  cases q <;> rfl

/-- Settles O4: TX_BEGIN's condition is that the request is servable, and its effect the request's instruction. -/
theorem txBeginServesRequest : Obligations.TxBeginServesRequest := by
  refine ⟨fun s r k hs => ⟨fun q hbusy hq hfirst => step_txBegin hs hbusy hq hfirst, fun h => ?_⟩,
    fun s => ⟨rfl, fun t => rfl, fun ev => rfl, fun hk => ?_, fun hk => ?_⟩⟩
  · refine step_disabled hs (Bool.eq_false_iff.mpr fun he => ?_)
    obtain ⟨hidle, hserv⟩ := enabled_txBegin_iff.mp he
    obtain ⟨q, hq, hfirst⟩ := servable_iff.mp hserv
    rcases h with hbusy | hnone | ⟨q', j, p, hq', hj, hp, hsame⟩
    · rw [hidle] at hbusy; cases hbusy
    · rw [hnone] at hq; cases hq
    · cases hq.symm.trans hq'
      exact hfirst j p hj hp hsame
  · simp only [requestInstr, hk]
  · simp only [requestInstr, hk]

/-- Settles O38: the payload has three bytes, so that the declared length is `3`. -/
theorem livenessFrame : Obligations.LivenessFrame := by
  have hdec : dec 3 = [0x33] := by decide
  have hframe (s : State) : exec .txHeartbeat s = .next { s with
      txBusy := true, txCur := some .heartbeat,
      txRest := s.cfg.hdrOut ++ [0x33] ++ [s.cfg.sep] ++ [0x63, 0x2C, 0x30] ++ s.cfg.termOut } := by
    rw [← hdec]; rfl
  refine ⟨fun s r hs hw => ?_, hframe, fun s hg => ?_⟩
  · exact step_effect hs (by simp [enabled, hw]) (.hbSent { s with sched := r } hw)
  · rw [hframe, hg]; rfl

/-- Settles O39: each row is SERIALIZER's service of its request, and the names are the configuration's. -/
theorem statusFrames : Obligations.StatusFrames := by
  refine ⟨fun s r ev hs => ?_, fun s => ?_, ?_⟩
  · exact step_effect hs rfl (.statusReq { s with sched := r } ev)
  · exact ⟨rfl, rfl, rfl, rfl, rfl, rfl, rfl, rfl⟩
  · exact ⟨rfl, rfl, rfl, rfl, rfl, rfl, rfl⟩

/-- Settles O40: the payload of TX_TEXT is the text itself. -/
theorem textFrame : Obligations.TextFrame := fun s t =>
  ⟨fun r hs => step_effect hs rfl (.textReq { s with sched := r } t), rfl⟩

/-- The declared length of a sweep's payload (`spec/40_frame_codec.md` R121). -/
theorem sweepPayload_length {l : List Sample} (h : l.length % 2 = 0) (k : CurveKind) :
    (sweepPayload k l).length = 1 + 3 * l.length / 2 := by
  rw [sweepPayload, List.length_cons, pack_length h]
  omega

/-- SERIALIZER starts a sweep frame with the bytes written out. -/
theorem sendSweep_eq {l : List Sample} (h : l.length % 2 = 0) (k : CurveKind) (s : State) :
    s.sendSweep k l = { s with
      txBusy := true, txCur := some .sweep,
      txRest := s.cfg.hdrOut ++ dec (1 + 3 * l.length / 2) ++ [s.cfg.sep] ++ (kindByte k :: pack l) ++ s.cfg.termOut } := by
  rw [← sweepPayload_length h k]; rfl

theorem requester_eq_dispatcher {q : TxRequest} : requester q = .dispatcher ↔ q = .sweep := by
  cases q <;> simp [requester]

/-- Settles O41: no other kind of request has the `Sweep` request's requester, so that the first of them is served, with all of
`cap`. -/
theorem sweepFrame : Obligations.SweepFrame := by
  refine ⟨fun s l h => ⟨?_, ?_⟩, fun s r k hs hbusy hq hfirst => ?_⟩
  · exact congrArg _ (sendSweep_eq h .vce s)
  · exact congrArg _ (sendSweep_eq h .vbe s)
  · have hstep := step_txBegin hs hbusy hq fun j p hj hp hreq =>
      hfirst j hj (hp.trans (congrArg some (requester_eq_dispatcher.mp hreq)))
    refine ⟨s.capSamples, capSamples_length s, fun i v hi hv => ?_, fun hk => ?_, fun hk => ?_⟩
    · rw [capSamples_get s hi, capEntry_of_read hv]
    · rw [hstep, requestInstr, hk]
    · rw [hstep, requestInstr, hk]

/-- Settles O42: by induction on the bytes left. -/
theorem frameIsSentWhole : Obligations.FrameIsSentWhole := by
  intro s r hbusy hs
  generalize hl : s.txRest = l at hs ⊢
  induction l generalizing s with
  | nil =>
    have hdone := step_effect (s := s) (e := .txDone) (r := r) hs (by simp [enabled, hbusy, hl])
      (.txFinished { s with sched := r } hbusy hl)
    rw [List.length_nil, core_run_succ hdone]
    simp only [Host.Core.run, hl, List.append_nil]
  | cons b l ih =>
    have hs' : s.sched = .txByte :: (List.replicate l.length .txByte ++ .txDone :: r) := hs
    have hbyte := step_effect hs' (by simp [enabled, hbusy, hl]) (.txByteSent { s with sched := _ } b l hbusy hl)
    rw [List.length_cons, core_run_succ hbyte]
    refine (ih { s with sched := _, txOut := s.txOut ++ [b], txRest := l } hbusy rfl rfl).trans ?_
    simp

end Sys2Proof.Machine

/-! SUPPORT. Single steps of the acquisition state machine, the heartbeat and reset (`spec/42_acquisition_fsm.md`,
`spec/60_exceptions.md`, `spec/70_reset_and_hazards.md`). -/

namespace Sys2Proof.Machine

open Config

/-! ### ARM_RESULT -/

theorem activeCh_vce {s : State} (h : s.reqKind = .vce) : s.activeCh = s.cfg.chVce := by simp only [State.activeCh, h]

theorem activeCh_vbe {s : State} (h : s.reqKind = .vbe) : s.activeCh = s.cfg.chVbe := by simp only [State.activeCh, h]

theorem enabled_armResult_iff {s : State} {a : ArmResult} : enabled (.armResult a) s = true ↔ s.sweepState = .arming := by
  simp [enabled]

/-- A failed ARM, by the channel it gates off (R146, R152). -/
theorem step_armFailed {s : State} {r : List Event} {a : ArmResult} {ch : Channel} (hs : s.sched = .armResult a :: r)
    (harm : s.sweepState = .arming) (ha : a ≠ .ready) (hch : s.activeCh = ch) :
    step s = .next { s with
      sched := r, dacCode0 := if ch = .ch0 then 0 else s.dacCode0, dacCode1 := if ch = .ch1 then 0 else s.dacCode1,
      ports := s.ports ++ [.dacWr ch 0], ampEn := false, statusOut := s.statusOut ++ [.errorGeneric],
      sweepState := if a = .hwFail then .faulted else .idle } := by
  have hresult : a = .hwFail ∧ (if a = .hwFail then SweepState.faulted else .idle) = .faulted ∨
      a = .timerFail ∧ (if a = .hwFail then SweepState.faulted else .idle) = .idle := by
    cases a with
    | ready => exact absurd rfl ha
    | hwFail => exact .inl ⟨rfl, rfl⟩
    | timerFail => exact .inr ⟨rfl, rfl⟩
  have hch' : State.activeCh { s with sched := r } = ch := hch
  rw [step_effect hs (enabled_armResult_iff.mpr harm) (.armFailed { s with sched := r } a _ harm hresult), hch',
    State.emitDac_eq]

/-- Settles O26: ARM_RESULT's two effects. -/
theorem armResultOutcomes : Obligations.ArmResultOutcomes := by
  refine fun s r a hs => ⟨fun harm ha => ?_, fun harm ha hk => step_armFailed hs harm ha (activeCh_vce hk),
    fun harm ha hk => step_armFailed hs harm ha (activeCh_vbe hk), fun hne => ?_⟩
  · subst ha
    exact step_effect hs (enabled_armResult_iff.mpr harm) (.armReady { s with sched := r } harm)
  · exact step_disabled hs (Bool.eq_false_iff.mpr fun he => hne (enabled_armResult_iff.mp he))

/-! ### TICK -/

/-- What a tick before the last leaves in `cap` (`spec/20_memory.md` R63). -/
theorem read_writeRun_first (m : Mem 16) (a : Nat) (w u : List Sample) (i : Nat) :
    Mem.read (Mem.writeRun (Mem.writeRun m a w) 0 u) i =
      if i < u.length then u[i]? else if a ≤ i ∧ i < a + w.length then w[i - a]? else Mem.read m i := by
  rw [Mem.read_writeRun, Mem.read_writeRun]
  simp only [Nat.zero_le, true_and, Nat.zero_add, Nat.sub_zero]

/-- Settles O27: tick 0 is its effect of each kind; with the invariant nothing is armed before it. -/
theorem firstTick : Obligations.FirstTick := by
  refine ⟨fun s r ic c w u hs ht h0 hc hw hu =>
    ⟨_, read_writeRun_first s.cap s.dmaWrIdx w u, fun g hk hg => ?_, fun hk => ?_⟩, fun s hi hr h0 => ?_⟩
  · have hcode : State.rampEntry { s with sched := r } = .ok c :=
      rampEntry_ok.mpr ⟨by simp [h0, rampLen_eq], by simpa [h0] using hc⟩
    rw [step_effect hs ht (.tickFirstVce { s with sched := r } ic c g w u ht hcode h0 hk hg hw hu),
      activeCh_vce (s := { s with sched := r }) hk, State.emitDac_eq]
    simp
  · have hcode : State.rampEntry { s with sched := r } = .ok c :=
      rampEntry_ok.mpr ⟨by simp [h0, rampLen_eq], by simpa [h0] using hc⟩
    rw [step_effect hs ht (.tickFirstVbe { s with sched := r } ic c w u ht hcode h0 hk hw hu),
      activeCh_vbe (s := { s with sched := r }) hk, State.emitDac_eq]
    simp
  · have harm : ¬ s.dmaArmed = true := fun ha => by simpa [h0] using (hi.spec.armed_running ha).2
    exact ⟨Bool.eq_false_iff.mpr harm, Bool.eq_false_iff.mpr (mt hi.adc_armed harm)⟩

/-- A tick between the first and the last, by the channel it drives (R150). -/
theorem step_tickMiddle {s : State} {r : List Event} {ic : InnerCaptures} {c : DacCode} {w : List Sample} {ch : Channel}
    (hs : s.sched = .tick ic :: r) (ht : s.timerRun = true) (low : 1 ≤ s.stepIndex.toNat)
    (high : s.stepIndex.toNat < s.cfg.rampSteps) (hc : Mem.read s.ramp s.stepIndex.toNat = some c)
    (hw : w = s.captured (ic.afterCode ++ ic.afterIndex)) (hch : s.activeCh = ch) :
    step s = .next { s with
      sched := r, dacCode0 := if ch = .ch0 then c else s.dacCode0, dacCode1 := if ch = .ch1 then c else s.dacCode1,
      cap := Mem.writeRun s.cap s.dmaWrIdx w, dmaWrIdx := s.dmaWrIdx + w.length, stepIndex := s.stepIndex + 1,
      ports := s.ports ++ [.dacWr ch c] ++ capCalls s.dmaWrIdx w } := by
  have hcode : State.rampEntry { s with sched := r } = .ok c := rampEntry_ok.mpr ⟨high.trans (Nat.lt_succ_self _), hc⟩
  have hch' : State.activeCh { s with sched := r } = ch := hch
  rw [step_effect hs ht (.tickMiddle { s with sched := r } ic c w ht hcode low high hw), hch', State.emitDac_eq]
  simp

/-- Settles O28: the middle tick is its effect, with the channel of the kind. -/
theorem middleTick : Obligations.MiddleTick := fun s _ _ _ w hs ht low high hc hw =>
  ⟨_, fun i => Mem.read_writeRun s.cap s.dmaWrIdx i w,
    fun hk => step_tickMiddle hs ht low high hc hw (activeCh_vce hk),
    fun hk => step_tickMiddle hs ht low high hc hw (activeCh_vbe hk)⟩

/-- Settles O29: the last tick is its effect of each kind. -/
theorem lastTick : Obligations.LastTick := by
  intro s r ic c w hs ht hl hc hw
  have hcode : State.rampEntry { s with sched := r } = .ok c :=
    rampEntry_ok.mpr ⟨hl.trans_lt (Nat.lt_succ_self _), by rw [hl]; exact hc⟩
  refine ⟨_, fun i => Mem.read_writeRun s.cap s.dmaWrIdx i w, fun hk => ?_, fun hk => ?_⟩
  · rw [step_effect hs ht (.tickLastVce { s with sched := r } ic c w ht hcode hl hk hw),
      activeCh_vce (s := { s with sched := r }) hk, State.emitDac_eq]
    simp
  · rw [step_effect hs ht (.tickLastVbe { s with sched := r } ic c w ht hcode hl hk hw),
      activeCh_vbe (s := { s with sched := r }) hk, State.emitDac_eq]
    simp

/-! ### CAP_WRITE -/

theorem capturing_iff {s : State} :
    s.capturing = true ↔ s.dmaArmed = true ∧ s.adcRun = true ∧ s.dmaWrIdx < s.cfg.capLen := by
  simp [State.capturing, and_assoc]

/-- Where the DMA takes nothing, it takes nothing later at the same point. -/
theorem captures_of_not_capturing {s : State} (h : s.capturing = false) (vs : List Sample) : State.captures vs s = s := by
  cases vs with
  | nil => rfl
  | cons v vs => simp [State.captures, h]

/-- Settles O33: a capture inside a STEP is CAP_WRITE's effect where that is enabled, and nothing where it is not. -/
theorem capWriteStoresSample : Obligations.CapWriteStoresSample := by
  refine ⟨fun s t v vs => ⟨rfl, fun h => ?_⟩, fun s r v hs => ⟨fun ha hr hroom => ?_, fun h => ?_⟩⟩
  · cases hc : s.capturing with
    | false =>
      rw [runEvent_disabled (e := .capWrite v) hc] at h
      cases h
      rw [captures_of_not_capturing hc, captures_of_not_capturing hc]
    | true =>
      rw [runEvent_enabled (e := .capWrite v) hc] at h
      cases h
      exact if_pos hc
  · exact ⟨_, step_effect hs (capturing_iff.mpr ⟨ha, hr, hroom⟩) (.capWrite { s with sched := r } v ha hr hroom),
      Mem.read_write_same s.cap _ v, fun i hi => Mem.read_write_other s.cap v hi⟩
  · refine step_disabled hs (Bool.eq_false_iff.mpr fun he => ?_)
    obtain ⟨ha, hr, hroom⟩ := capturing_iff.mp he
    rcases h with h | h | h
    · simp [ha] at h
    · simp [hr] at h
    · omega

/-! ### HEARTBEAT -/

theorem enabled_hbExpire_iff {s : State} : enabled .hbExpire s = true ↔ s.hbWaiting = true ∧ s.hbAck = false := by
  simp [enabled]

/-- Settles O44: the four effects of HEARTBEAT, and each event's condition. -/
theorem heartbeatWindow : Obligations.HeartbeatWindow := by
  refine fun s r => ⟨fun hs hw => step_disabled hs (by simp [enabled, hw]),
    fun hs => ⟨fun hw ha => ?_, fun h => step_disabled hs ?_⟩,
    fun hs => ⟨fun hw ha few => ?_, fun hw ha many => ?_, fun h => step_disabled hs ?_⟩⟩
  · exact step_effect hs (by simp [enabled, hw, ha]) (.hbTaken { s with sched := r } hw ha)
  · rcases h with h | h <;> simp [enabled, h]
  · exact step_effect hs (enabled_hbExpire_iff.mpr ⟨hw, ha⟩) (.hbMissed { s with sched := r } hw ha few)
  · exact step_effect hs (enabled_hbExpire_iff.mpr ⟨hw, ha⟩) (.hbLost { s with sched := r } hw ha many)
  · rcases h with h | h <;> simp [enabled, h]

/-! ### Reset -/

/-- Settles O47: reset's one effect, in every state. -/
theorem resetFromAnyState : Obligations.ResetFromAnyState := by
  intro s r hs
  refine ⟨_, step_effect hs rfl (.rst { s with sched := r }), ?_⟩
  simp [State.applyReset, State.resetWith]

/-- A check of all of a list of conditions finds none that fails. -/
theorem constraints_none_iff {g : GivenParams} {o : OpenParams} :
    (constraints g o).find? (fun c => !c.1) = none ↔ Legal g o := by
  refine ⟨legal_of_constraints, fun h => ?_⟩
  rw [List.find?_eq_none]
  simp only [constraints, List.forall_mem_cons, Bool.not_eq_true, Bool.not_eq_false', decide_eq_true_eq]
  exact ⟨h.frameCap_min, h.argCap_fits, h.hdrIn_length, h.stepUs_pos, h.sweepUs_multiple, h.rampLen_max, h.hbMissN_min,
    h.capLen_even, h.capLen_min, h.vbeTarget_le, h.gainCount_min, h.gainCount_max, h.iqDepth_min, h.frameCap_max,
    h.rampSteps_pos, h.dacMax_max, h.vfsMv_pos, h.ampMax_max, nofun⟩

/-- A configuration of numbers is accepted where its numbers fit their fields and its values are legal. -/
theorem ofRaw_ok_iff {r : RawParams} :
    (∃ p, Params.ofRaw r = .ok p) ↔ r.rangeError = none ∧ Legal r.givenParams r.openParams := by
  rw [← constraints_none_iff]
  unfold Params.ofRaw
  cases hr : r.rangeError with
  | some e => simp
  | none =>
    simp only [true_and]
    split
    · rename_i c hc; simp [hc]
    · rename_i hc; simp [hc]

theorem ite_some_eq_none {α : Type} {c : Prop} [Decidable c] {a : α} {x : Option α} :
    (if c then some a else x) = none ↔ ¬ c ∧ x = none := by split <;> simp [*]

theorem any_above_iff {l : List Nat} : l.any (fun v => decide (255 < v)) = true ↔ ¬ ∀ v, v ∈ l → v ≤ 255 := by simp

/-- The ranges of the numbers (log 30). -/
theorem rangeError_none_iff {r : RawParams} :
    r.rangeError = none ↔ (∀ v, v ∈ r.wireBytes → v ≤ 255) ∧ (∀ v, v ∈ r.gainTable → v ≤ 255) ∧ r.gainOff ≤ 255 ∧
      (r.chVce ≤ 1 ∧ r.chVbe ≤ 1) ∧ r.relayVce ≤ 1 ∧ r.relayVbe ≤ 1 ∧ r.gswVce ≤ 1 ∧ r.gswVbe ≤ 1 := by
  simp only [RawParams.rangeError, any_above_iff, ite_some_eq_none, not_not, not_or, Nat.not_lt, and_true]

/-- The wire's bytes, in the order of the parameter table. -/
theorem mem_wireBytes {r : RawParams} {v : Nat} :
    v ∈ r.wireBytes ↔ v ∈ r.hdrIn ++ r.hdrOut ++ r.termOut ++ [r.sep, r.termIn, r.argDelim] := by
  simp only [RawParams.wireBytes, List.mem_append, List.mem_cons, List.not_mem_nil, or_false]
  tauto

/-- Legal values, in the numbers they are made of. -/
theorem legal_raw_iff {r : RawParams} : Legal r.givenParams r.openParams ↔
    (7 ≤ r.frameCap ∧ r.argCap + 8 ≤ r.frameCap ∧ r.hdrIn.length = 3 ∧ 0 < r.stepUs ∧ r.sweepUs % r.stepUs = 0 ∧
      r.sweepUs / r.stepUs + 1 ≤ 255 ∧ 1 ≤ r.hbMissN ∧ r.capLen % 2 = 0 ∧ 2 ≤ r.capLen ∧ r.vbeTargetMv ≤ r.vfsMv ∧
      1 ≤ r.gainTable.length ∧ r.gainTable.length ≤ 256 ∧ 1 ≤ r.iqDepth) ∧
    r.frameCap ≤ 63 ∧ 1 ≤ r.sweepUs / r.stepUs ∧ r.dacMax ≤ 4095 ∧ 1 ≤ r.vfsMv ∧ r.vfsMv / 100 ≤ 63 := by
  have hhdr : r.givenParams.hdrIn.length = r.hdrIn.length := List.length_map _
  have hgain : r.openParams.gainCount = r.gainTable.length := List.length_map _
  constructor
  · intro h
    exact ⟨⟨h.frameCap_min, h.argCap_fits, hhdr ▸ h.hdrIn_length, h.stepUs_pos, h.sweepUs_multiple, h.rampLen_max,
      h.hbMissN_min, h.capLen_even, h.capLen_min, h.vbeTarget_le, hgain ▸ h.gainCount_min, hgain ▸ h.gainCount_max,
      h.iqDepth_min⟩, h.frameCap_max, h.rampSteps_pos, h.dacMax_max, h.vfsMv_pos, h.ampMax_max⟩
  · rintro ⟨⟨h1, h2, h3, h4, h5, h6, h7, h8, h9, h10, h11, h12, h13⟩, h14, h15, h16, h17, h18⟩
    exact ⟨h1, h2, hhdr.trans h3, h4, h5, h6, h7, h8, h9, h10, hgain.symm ▸ h11, hgain.symm ▸ h12, h13, h14, h15, h16,
      h17, h18⟩

/-- Settles O46: reset's fields are written out, and the check before it is its constraints. -/
theorem resetValues : Obligations.ResetValues := by
  refine ⟨⟨rfl, rfl, rfl, rfl, rfl, rfl, rfl, rfl, rfl, rfl, rfl, rfl, rfl, rfl, rfl, rfl, rfl, rfl, rfl, rfl, rfl, rfl,
    fun _ => ⟨rfl, rfl, rfl⟩, rfl, rfl, rfl, rfl, rfl, rfl, rfl, rfl, rfl, rfl, rfl, rfl, rfl, rfl, rfl, rfl, rfl, rfl,
    rfl, rfl, rfl, rfl⟩, fun r => ?_⟩
  rw [ofRaw_ok_iff, rangeError_none_iff, legal_raw_iff]
  simp only [mem_wireBytes]
  tauto

end Sys2Proof.Machine

/-! SUPPORT. What comes to pass in every fair run (`spec/20_memory.md` R69, `spec/42_acquisition_fsm.md` R153 to R155,
`spec/60_exceptions.md` R200): each promise is a condition that makes a duty ready and lasts until it is done. -/

namespace Sys2Proof.Machine

open Config

/-! ### What lasts -/

theorem Run.inv {st : Nat → State} {ev : Nat → Event} (h : Run st ev) (h0 : Inv (st 0)) (n : Nat) : Inv (st n) :=
  h.keeps (fun _ _ _ hi hrun => runEvent_inv hi hrun) (Nat.zero_le n) h0

/-- The completion signal lasts until it is taken (R22). -/
theorem Effect.done_cases {e : Event} {s s' : State} (h : Effect e s s') (hdone : s.done = true) :
    s'.done = true ∨ e = .drain ∨ e = .rst := by
  cases h with
  | drained => exact .inr (.inl rfl)
  | rst => exact .inr (.inr rfl)
  | tickLastVce | tickLastVbe => exact .inl rfl
  | armVbe | armFailed | tickFirstVce | tickFirstVbe | tickMiddle => exact .inl (by simpa using hdone)
  | _ => exact .inl hdone

/-- DISPATCH alone takes from `iq`; others add behind. -/
theorem Effect.iq_cases {e : Event} {s s' : State} (h : Effect e s s') :
    (∃ q, s'.iq = s.iq ++ q) ∨ e = .dispatch ∨ e = .rst := by
  cases h with
  | rxDecoded s f i => exact .inl ⟨[i], rfl⟩
  | commandDropped | commandAck | commandArgError | commandVce | commandVbe | armVce | armVbe => exact .inr (.inl rfl)
  | rst => exact .inr (.inr rfl)
  | armFailed | tickFirstVce | tickFirstVbe | tickMiddle | tickLastVce | tickLastVbe => exact .inl ⟨[], by simp⟩
  | _ => exact .inl ⟨[], (List.append_nil _).symm⟩

/-- An event that answers a next state keeps what none of its effects ends. -/
theorem runEvent_lasts {e : Event} {s s' : State} {P : State → Prop} (h : runEvent e s = .next s') (hs : P s)
    (hE : Effect e s s' → P s') : P s' := by
  rcases runEvent_effect h with ⟨-, rfl⟩ | ⟨-, hE'⟩
  · exact hs
  · exact hE hE'

/-! ### The completion signal, and the head of `iq` -/

theorem doneBy_drain_iff {e : Event} : Duty.drain.doneBy e = true ↔ e = .drain := by cases e <;> simp [Duty.doneBy]

theorem doneBy_dispatch_iff {e : Event} : Duty.dispatch.doneBy e = true ↔ e = .dispatch := by
  cases e <;> simp [Duty.doneBy]

theorem doneBy_tick (e : Event) : Duty.tick.doneBy e = e.isTick := by cases e <;> rfl


theorem drain_ready {s : State} (hi : Inv s) (hdone : s.done = true) : enabled .drain s = true := by
  have hs := hi.spec.done_draining hdone
  simp [enabled, hdone, State.dispatcherFree, hs]

theorem runEvent_drain {s s' : State} (hi : Inv s) (hdone : s.done = true) (h : runEvent .drain s = .next s') :
    s'.sweepState = .complete := by
  rw [runEvent_enabled (drain_ready hi hdone)] at h
  cases h
  rfl

/-- In a fair run a completion signal is taken, unless reset comes. -/
theorem FairRun.drains {st : Nat → State} {ev : Nat → Event} (h : FairRun st ev) (h0 : Inv (st 0)) {n : Nat}
    (hdone : (st n).done = true) : ∃ m, n ≤ m ∧
      (ev m = .rst ∨ (ev m = .drain ∧ (st m).done = true ∧ (st (m + 1)).sweepState = .complete)) := by
  obtain ⟨hrun, hfair⟩ := h
  obtain ⟨m, hm, hstop, hd⟩ := (hfair .drain).stops (P := fun m => (st m).done = true)
    (stop := fun e => e = .drain ∨ e = .rst) hdone
    (fun m _ hd => ⟨.drain, rfl, drain_ready (hrun.inv h0 m) hd⟩)
    (fun e he => .inl (doneBy_drain_iff.mp he))
    (fun m _ hd hno => runEvent_lasts (P := fun s => s.done = true) (hrun m) hd fun hE =>
      (hE.done_cases hd).resolve_right hno)
  refine ⟨m, hm, hstop.symm.imp_right fun he => ⟨he, hd, ?_⟩⟩
  exact runEvent_drain (hrun.inv h0 m) hd (he ▸ hrun m)

/-- In a fair run the head of `iq` is dispatched while the DISPATCHER stays free, unless reset comes. -/
theorem FairRun.dispatches {st : Nat → State} {ev : Nat → Event} (h : FairRun st ev) {n : Nat} (hiq : (st n).iq ≠ [])
    (hfree : ∀ m, n ≤ m → (st m).sweepState ≠ .arming ∧ (st m).sweepState ≠ .complete) :
    ∃ m, n ≤ m ∧ (ev m = .rst ∨ (ev m = .dispatch ∧ (st m).iq.head? = (st n).iq.head?)) := by
  obtain ⟨hrun, hfair⟩ := h
  obtain ⟨i, q, hq⟩ := List.exists_cons_of_ne_nil hiq
  have hne {m : Nat} (hm : (st m).iq.head? = (st n).iq.head?) : (st m).iq ≠ [] := by
    intro hnil
    simp [hnil, hq] at hm
  obtain ⟨m, hm, hstop, hhead⟩ := (hfair .dispatch).stops (P := fun m => (st m).iq.head? = (st n).iq.head?)
    (stop := fun e => e = .dispatch ∨ e = .rst) rfl
    (fun m hm hhead => ⟨.dispatch, rfl, enabled_dispatch_iff.mpr ⟨hne hhead, dispatcherFree_iff.mpr (hfree m hm)⟩⟩)
    (fun e he => .inl (doneBy_dispatch_iff.mp he))
    (fun m _ hhead hno => runEvent_lasts (P := fun s => s.iq.head? = (st n).iq.head?) (hrun m) hhead fun hE => by
      obtain ⟨p, hp⟩ := hE.iq_cases.resolve_right hno
      rw [hp, List.head?_append_of_ne_nil _ (hne hhead), hhead])
  exact ⟨m, hm, hstop.symm.imp_right fun he => ⟨he, hhead⟩⟩

/-- Settles O32: the step is the effect `drained`; a fair run serves DRAIN and DISPATCH by `drains` and `dispatches`. -/
theorem drainHandsOverTheCapture : Obligations.DrainHandsOverTheCapture := by
  refine ⟨fun s r hs => ⟨fun hdone hna hnc => ?_, fun hdone => step_disabled hs (by simp [enabled, hdone])⟩,
    fun st ev h h0 n => ⟨h.drains h0, h.dispatches⟩⟩
  have hfree : s.dispatcherFree = true := dispatcherFree_iff.mpr ⟨hna, hnc⟩
  exact step_effect hs (by simp [enabled, hdone, hfree]) (.drained { s with sched := r } hdone hfree)

/-! ### The sweep -/

/-- In `Running` no effect but a tick's, a capture's and reset's touches the sweep (R155). -/
theorem Effect.sweep_cases {e : Event} {s s' : State} (h : Effect e s s') (hi : Inv s) (hr : s.sweepState = .running)
    (htick : e.isTick = false) (hcap : ∀ v, e ≠ .capWrite v) (hne : e ≠ .rst) :
    s'.sweepState = .running ∧ s'.stepIndex = s.stepIndex ∧ s'.timerRun = s.timerRun ∧ s'.dmaArmed = s.dmaArmed ∧
    s'.adcRun = s.adcRun ∧ s'.dmaWrIdx = s.dmaWrIdx ∧ s'.cap = s.cap ∧ s'.ramp = s.ramp := by
  have hacc : ¬ s.acceptsSweep = true := by simp [acceptsSweep_iff, hr]
  cases h with
  | commandArgError s i q head accepts => exact absurd accepts hacc
  | commandVce s i q a g c head accepts => exact absurd accepts hacc
  | commandVbe s i q head accepts => exact absurd accepts hacc
  | armVce s i q head accepts => exact absurd accepts hacc
  | armVbe s i q head accepts => exact absurd accepts hacc
  | armReady s arming => simp [hr] at arming
  | armFailed s r st arming => simp [hr] at arming
  | tickFirstVce => cases htick
  | tickFirstVbe => cases htick
  | tickMiddle => cases htick
  | tickLastVce => cases htick
  | tickLastVbe => cases htick
  | capWrite s v => exact absurd rfl (hcap v)
  | drained s signalled => simp [hi.spec.done_draining signalled] at hr
  | txFinished s =>
    have hc : s.txCur ≠ some .sweep := (hi.no_sweep (by simp [hr])).2
    exact ⟨(if_neg hc).trans hr, rfl, rfl, rfl, rfl, rfl, rfl, rfl⟩
  | rst => exact absurd rfl hne
  | _ => exact ⟨hr, rfl, rfl, rfl, rfl, rfl, rfl, rfl⟩

/-- A capture leaves the sweep's state and its index alone. -/
theorem Effect.capWrite_sweep {v : Sample} {s s' : State} (h : Effect (.capWrite v) s s') :
    s'.sweepState = s.sweepState ∧ s'.stepIndex = s.stepIndex := by
  cases h
  exact ⟨rfl, rfl⟩

/-- A running sweep stays where it is until a tick or reset. -/
theorem Effect.running_lasts {e : Event} {s s' : State} (h : Effect e s s') (hi : Inv s) (hr : s.sweepState = .running)
    (hno : ¬ (e.isTick = true ∨ e = .rst)) : s'.sweepState = .running ∧ s'.stepIndex = s.stepIndex := by
  obtain ⟨htick, hne⟩ := not_or.mp hno
  by_cases hcap : ∃ v, e = .capWrite v
  · obtain ⟨v, rfl⟩ := hcap
    exact ⟨h.capWrite_sweep.1.trans hr, h.capWrite_sweep.2⟩
  · obtain ⟨hr', hs, -⟩ := h.sweep_cases hi hr (Bool.eq_false_iff.mpr htick) (fun v he => hcap ⟨v, he⟩) hne
    exact ⟨hr', hs⟩

theorem isTick_iff {e : Event} : e.isTick = true ↔ ∃ ic, e = .tick ic := by
  cases e <;> simp [Event.isTick]

/-- In a fair run an enabled tick comes while the sweep runs, at its present index, unless reset comes. -/
theorem FairRun.ticks {st : Nat → State} {ev : Nat → Event} (h : FairRun st ev) (h0 : Inv (st 0)) {n : Nat}
    (hr : (st n).sweepState = .running) : ∃ m, n ≤ m ∧ ((ev m).isTick = true ∨ ev m = .rst) ∧
      (st m).sweepState = .running ∧ (st m).stepIndex = (st n).stepIndex := by
  obtain ⟨hrun, hfair⟩ := h
  exact (hfair .tick).stops (P := fun m => (st m).sweepState = .running ∧ (st m).stepIndex = (st n).stepIndex)
    (stop := fun e => e.isTick = true ∨ e = .rst) ⟨hr, rfl⟩
    (fun m _ hm => ⟨.tick {}, rfl, ((hrun.inv h0 m).spec.running_timer hm.1).1⟩)
    (fun e he => .inl (doneBy_tick e ▸ he))
    (fun m _ hm hno => runEvent_lasts (P := fun s => s.sweepState = .running ∧ s.stepIndex = (st n).stepIndex) (hrun m) hm
      fun hE => (hE.running_lasts (hrun.inv h0 m) hm.1 hno).imp_right fun hs => hs.trans hm.2)

/-- A tick of a running sweep is the next index, or the end of the sweep with its completion signal. -/
theorem runEvent_tick {ic : InnerCaptures} {s s' : State} (hi : Inv s) (hr : s.sweepState = .running)
    (h : runEvent (.tick ic) s = .next s') :
    (s'.sweepState = .running ∧ s'.stepIndex.toNat = s.stepIndex.toNat + 1) ∨ s'.done = true := by
  have ht := (hi.spec.running_timer hr).1
  have hi' := runEvent_inv hi h
  rcases runEvent_effect h with ⟨hd, -⟩ | ⟨-, hE⟩
  · exact absurd ht (Bool.eq_false_iff.mp hd)
  rcases hE.stepIndex_cases (by nofun) with ⟨-, hf⟩ | ⟨hdi, -⟩ | ⟨-, -, hs, -⟩
  · cases hf
  · cases hdi
  · rcases hE.sweepState_cases hi (by nofun) with hsame | htr
    · exact .inl ⟨hsame.trans hr, hs⟩
    · rw [hr] at htr
      have hdr : s'.sweepState = .draining := by
        generalize s'.sweepState = x at htr
        cases htr
        rfl
      exact .inr (hi'.draining_done hdr)

/-- In a fair run a running sweep reaches `Complete`, unless reset comes: by induction on the ticks that are left. -/
theorem FairRun.completes {st : Nat → State} {ev : Nat → Event} (h : FairRun st ev) (h0 : Inv (st 0)) {n : Nat}
    (hr : (st n).sweepState = .running) : ∃ m, n ≤ m ∧ ((st m).sweepState = .complete ∨ ev m = .rst) := by
  generalize hk : 255 - (st n).stepIndex.toNat = k
  induction k using Nat.strong_induction_on generalizing n with
  | h k ih =>
    have hrun := h.1
    obtain ⟨m, hm, htick | hrst, hrm, hsm⟩ := h.ticks h0 hr
    · obtain ⟨ic, hic⟩ := isTick_iff.mp htick
      have him := hrun.inv h0 m
      rcases runEvent_tick him hrm (hic ▸ hrun m) with ⟨hr', hs'⟩ | hdone
      · have hlt : (st (m + 1)).stepIndex.toNat < 256 := (st (m + 1)).stepIndex.isLt
        rw [hsm] at hs'
        obtain ⟨m', hm', hend⟩ := ih _ (by omega) hr' rfl
        exact ⟨m', by omega, hend⟩
      · obtain ⟨m', hm', hrst | ⟨-, -, hc⟩⟩ := h.drains h0 hdone
        · exact ⟨m', by omega, .inr hrst⟩
        · exact ⟨m' + 1, by omega, .inl hc⟩
    · exact ⟨m, hm, .inr hrst⟩

/-- Settles O53: in `Running` the other effects do not touch the sweep, and the fair run's ticks carry it to its end. -/
theorem noSweepCancellation : Obligations.NoSweepCancellation := by
  refine ⟨fun s s' e hi hr h htick hcap hne => ?_, fun st ev h h0 n => ⟨fun ht => ?_, h.completes h0⟩⟩
  · rcases runEvent_effect h with ⟨-, rfl⟩ | ⟨-, hE⟩
    · exact ⟨hr, rfl, rfl, rfl, rfl, rfl, rfl, rfl⟩
    · exact hE.sweep_cases hi hr htick hcap hne
  · obtain ⟨m, hm, hstop, hrm, -⟩ := h.ticks h0 ((h.1.inv h0 n).running_of_timer ht)
    exact ⟨m, hm, hstop.symm.imp_right fun htick => ⟨htick, ((h.1.inv h0 m).spec.running_timer hrm).1⟩⟩

end Sys2Proof.Machine

/-! SUPPORT. A frame received from its first byte at the Link to the Instruction in `iq` (`spec/40_frame_codec.md` R100 to R102):
by induction on the bytes before the terminator. -/

namespace Sys2Proof.Machine

open Config

/-- A run of `m` steps and then of `n`. -/
theorem core_run_add {m : Nat} {s t : State} (n : Nat) (h : Host.Core.run Sys2Proof.core m s = .next t) :
    Host.Core.run Sys2Proof.core (m + n) s = Host.Core.run Sys2Proof.core n t := by
  induction m generalizing s with
  | zero => cases h; rw [Nat.zero_add]
  | succ m ih =>
    cases hs : step s with
    | next s1 =>
      rw [core_run_succ hs] at h
      rw [Nat.add_right_comm, core_run_succ hs, ih h]
    | fault f =>
      have hs' : Sys2Proof.core.step s = .fault f := hs
      simp only [Host.Core.run, hs'] at h
      cases h
    | refused f =>
      have hs' : Sys2Proof.core.step s = .refused f := hs
      simp only [Host.Core.run, hs'] at h
      cases h

/-- No complete frame is pending and the last byte, if any, is readable. -/
def State.incomplete (s : State) : Prop := ∃ x, s.lastByte = .ok x ∧ x ≠ some s.cfg.termIn

/-- The state in which the bytes `g` of the Link have been stored, with `rest` left at the Link. -/
def State.stored (g rest : List Byte) (r : List Event) (s : State) : State :=
  { s with
    sched := r, linkRx := rest, rxBuf := Mem.writeRun s.rxBuf s.rxLen.toNat g,
    rxLen := BitVec.ofNat 6 (s.rxLen.toNat + g.length) }

/-- RX_BYTE of a byte that ends the frame or does not fill the buffer. -/
theorem step_rxByte_stored {s : State} {r : List Event} {b : Byte} {rest : List Byte} (hs : s.sched = .rxByte :: r)
    (hl : s.linkRx = b :: rest) (hinc : s.incomplete) (room : s.rxLen.toNat < s.cfg.frameCap)
    (fits : b = s.cfg.termIn ∨ s.rxLen.toNat + 1 < s.cfg.frameCap) : step s = .next (s.stored [b] rest r) := by
  obtain ⟨x, hx, hxt⟩ := hinc
  have hfc := frameComplete_eq_false hx hxt
  have hlen : s.rxLen + 1 = BitVec.ofNat 6 (s.rxLen.toNat + 1) := by
    rw [BitVec.ofNat_add, BitVec.ofNat_toNat, BitVec.setWidth_eq]; rfl
  have hstored : s.stored [b] rest r = { s with
      sched := r, linkRx := rest, rxBuf := Mem.write s.rxBuf s.rxLen.toNat b, rxLen := s.rxLen + 1 } := by
    rw [State.stored, List.length_singleton, ← hlen]; rfl
  rw [hstored]
  exact step_effect hs (enabled_rxByte_iff.mpr ⟨by simp [hl], hfc⟩)
    (.rxStored { s with sched := r } b rest x hl hx hfc room fits)

/-- `rx_len` after bytes that fit the buffer. -/
theorem stored_rxLen {s : State} {g rest : List Byte} {r : List Event} (h : s.rxLen.toNat + g.length ≤ s.cfg.frameCap) :
    (s.stored g rest r).rxLen.toNat = s.rxLen.toNat + g.length := by
  have := s.cfg.legal.frameCap_max
  rw [State.stored, BitVec.toNat_ofNat, Nat.mod_eq_of_lt (by omega)]

/-- A stored byte that is no terminator leaves the frame incomplete. -/
theorem stored_incomplete {s : State} {b : Byte} {rest : List Byte} {r : List Event} (hb : b ≠ s.cfg.termIn)
    (room : s.rxLen.toNat < s.cfg.frameCap) : (s.stored [b] rest r).incomplete := by
  have hlen : (s.stored [b] rest r).rxLen.toNat = s.rxLen.toNat + 1 := stored_rxLen room
  refine ⟨some b, lastByte_eq_some.mpr ⟨fun h0 => ?_, ?_⟩, fun he => hb (Option.some.inj he)⟩
  · simp [h0] at hlen
  · rw [hlen, Nat.add_sub_cancel]
    exact ⟨room, Mem.read_write_same ..⟩

/-- Bytes stored one after the other are stored together. -/
theorem stored_stored {s : State} {b : Byte} {g mid rest : List Byte} {q r : List Event}
    (room : s.rxLen.toNat < s.cfg.frameCap) : (s.stored [b] mid q).stored g rest r = s.stored (b :: g) rest r := by
  have hlen : (s.stored [b] mid q).rxLen.toNat = s.rxLen.toNat + 1 := stored_rxLen room
  rw [State.stored, hlen, State.stored, List.length_cons, Nat.add_assoc, Nat.add_comm 1]
  rfl

/-- A frame that fits the buffer is stored up to its terminator, byte by byte. -/
theorem run_rxBytes {s : State} {g rest : List Byte} {r : List Event} (hterm : s.cfg.termIn ∉ g)
    (hfit : s.rxLen.toNat + g.length < s.cfg.frameCap) (hinc : s.incomplete)
    (hl : s.linkRx = g ++ [s.cfg.termIn] ++ rest) (hs : s.sched = List.replicate (g.length + 1) .rxByte ++ r) :
    Host.Core.run Sys2Proof.core (g.length + 1) s = .next (s.stored (g ++ [s.cfg.termIn]) rest r) := by
  induction g generalizing s with
  | nil => exact core_run_succ (step_rxByte_stored hs hl hinc hfit (.inl rfl))
  | cons b g ih =>
    simp only [List.mem_cons, not_or] at hterm
    simp only [List.length_cons] at hfit
    have room : s.rxLen.toNat < s.cfg.frameCap := by omega
    have hs' : s.sched = .rxByte :: (List.replicate (g.length + 1) .rxByte ++ r) := hs
    have hstep := step_rxByte_stored hs' hl hinc room (.inr (by omega))
    have hlen := stored_rxLen (s := s) (g := [b]) (rest := g ++ [s.cfg.termIn] ++ rest)
      (r := List.replicate (g.length + 1) .rxByte ++ r) room
    have htail := ih (s := s.stored [b] (g ++ [s.cfg.termIn] ++ rest) (List.replicate (g.length + 1) .rxByte ++ r)) hterm.2
      (by rw [hlen]; simp only [State.stored, List.length_singleton]; omega)
      (stored_incomplete (Ne.symm hterm.1) room) rfl rfl
    rw [List.length_cons, core_run_succ hstep]
    exact htail.trans (congrArg _ (stored_stored room))

/-- The bytes of a frame stored from an empty buffer. -/
theorem stored_frameBytes {s : State} {f rest : List Byte} {r : List Event} (h0 : s.rxLen = 0)
    (hfit : f.length ≤ s.cfg.frameCap) : (s.stored f rest r).frameBytes = .ok f := by
  have hlen := stored_rxLen (s := s) (g := f) (rest := rest) (r := r) (by simpa [h0] using hfit)
  refine Mem.getRun_ok.mpr ⟨by simp [hlen, h0], fun i hi => ⟨by simp only [State.stored]; omega, ?_⟩⟩
  simp only [State.stored, Mem.read_writeRun, h0]
  simp [hi]

/-- Settles O37: the bytes are stored up to the terminator, and RX_FRAME reads them back. -/
theorem deliveredFrameIsReceived : Obligations.DeliveredFrameIsReceived := by
  refine ⟨fun s r b hs => step_effect hs rfl (.linkRx b { s with sched := r }), fun s g l r hterm hlen h0 hl hs => ?_⟩
  have hrun := run_rxBytes hterm (by simpa [h0] using hlen) ⟨none, lastByte_of_empty h0, nofun⟩ hl hs
  have hbytes := stored_frameBytes (s := s) (f := g ++ [s.cfg.termIn]) (rest := l) (r := .rxFrame :: r) h0
    (by simpa using hlen)
  have hlast := lastByte_of_frameBytes hbytes
  rw [List.getLast?_concat] at hlast
  have hthen (t : State) (ht : step (s.stored (g ++ [s.cfg.termIn]) l (.rxFrame :: r)) = .next t) :
      Host.Core.run Sys2Proof.core (g.length + 2) s = .next t := (core_run_add 1 hrun).trans (core_run_succ ht)
  have hstored : s.stored (g ++ [s.cfg.termIn]) l (.rxFrame :: r) = { s with
      sched := .rxFrame :: r, linkRx := l, rxBuf := Mem.writeRun s.rxBuf 0 (g ++ [s.cfg.termIn]),
      rxLen := BitVec.ofNat 6 (g.length + 1) } := by
    rw [State.stored, h0]; simp
  rw [hstored] at hbytes hlast hthen
  refine ⟨Mem.writeRun s.rxBuf 0 (g ++ [s.cfg.termIn]), fun i hi room => hthen _ ?_,
    fun i hi full => ⟨hthen _ (step_rxFrame_held rfl hbytes hi full), fun j b hj => ?_⟩, fun err he => hthen _ ?_⟩
  · rw [step_rxFrame_ok rfl hlast hbytes hi room, h0]
  · obtain ⟨hlt, -⟩ := List.getElem?_eq_some_iff.mp hj
    rw [Mem.read_writeRun, if_pos ⟨Nat.zero_le j, by omega⟩, Nat.sub_zero, hj]
  · rw [step_rxFrame_error rfl hlast hbytes he, h0]

end Sys2Proof.Machine

/-! SUPPORT. One whole sweep (`spec/42_acquisition_fsm.md` R156, R157): where a sweep stands after `k` of its ticks (`SweepAt`), that
a capture keeps this and a tick leads from `k` to `k + 1`, and by induction on the events that `RAMP_LEN` ticks end it. -/

namespace Sys2Proof.Machine

open Config

/-! ### The transfers of a sweep -/

/-- The transfers with which tick 0 opens the capture (R149). -/
def openingCalls (s : State) (g : Byte) : List PortCall :=
  [.dmaStop, .dmaDrain] ++ (if s.reqKind = .vce then [.gainWr g] else []) ++ [.dmaArm s.cfg.capLen, .adcStart]

/-- The transfers with which the last tick closes it (R151). -/
def closingCalls (s : State) : List PortCall :=
  [.adcStop, .dmaDrain, .dacWr s.activeCh 0] ++ (if s.reqKind = .vce then [.gainWr s.cfg.gainOff] else [])

/-- The transfers of the tick at index `k` with code `c`, the samples' apart. -/
def tickCalls (s : State) (g : Byte) (k : Nat) (c : DacCode) : List PortCall :=
  .dacWr s.activeCh c :: ((if k = 0 then openingCalls s g else []) ++ if k = s.cfg.rampSteps then closingCalls s else [])

theorem tickCalls_first (s : State) (g : Byte) (c : DacCode) :
    tickCalls s g 0 c = .dacWr s.activeCh c :: openingCalls s g := by
  have hne : 0 ≠ s.cfg.rampSteps := (Nat.ne_of_gt s.cfg.legal.rampSteps_pos).symm
  rw [tickCalls, if_pos rfl, if_neg hne, List.append_nil]

theorem tickCalls_middle {s : State} {k : Nat} (g : Byte) (c : DacCode) (hpos : 0 < k) (hlt : k < s.cfg.rampSteps) :
    tickCalls s g k c = [.dacWr s.activeCh c] := by
  rw [tickCalls, if_neg hpos.ne', if_neg hlt.ne]
  rfl

theorem tickCalls_last (s : State) (g : Byte) (c : DacCode) :
    tickCalls s g s.cfg.rampSteps c = .dacWr s.activeCh c :: closingCalls s := by
  have hne : s.cfg.rampSteps ≠ 0 := Nat.ne_of_gt s.cfg.legal.rampSteps_pos
  rw [tickCalls, if_neg hne, if_pos rfl, List.nil_append]

/-- The transfers of the ticks below index `k`, the samples' apart. -/
def sweepCalls (s : State) (codes : List DacCode) (g : Byte) (k : Nat) : List PortCall :=
  ((codes.take k).zipIdx).flatMap fun x => tickCalls s g x.2 x.1

theorem sweepCalls_succ {s : State} {codes : List DacCode} {g : Byte} {k : Nat} {c : DacCode} (h : codes[k]? = some c) :
    sweepCalls s codes g (k + 1) = sweepCalls s codes g k ++ tickCalls s g k c := by
  have hlt : k < codes.length := (List.getElem?_eq_some_iff.mp h).1
  have hmin : min k codes.length = k := Nat.min_eq_left hlt.le
  rw [sweepCalls, List.take_add_one, h, Option.toList_some, List.zipIdx_append, List.flatMap_append]
  simp [sweepCalls, hmin]

/-- The output transfers, those of samples left out. -/
def outputs (p : List PortCall) : List PortCall := p.filter fun x => !x.isCapture

theorem outputs_append (p q : List PortCall) : outputs (p ++ q) = outputs p ++ outputs q := List.filter_append ..

theorem outputs_cons (x : PortCall) (p : List PortCall) :
    outputs (x :: p) = if x.isCapture = true then outputs p else x :: outputs p := by
  rw [outputs, List.filter_cons]
  cases x.isCapture <;> rfl

theorem outputs_capCalls (i : Nat) (w : List Sample) : outputs (capCalls i w) = [] := by
  refine List.filter_eq_nil_iff.mpr fun x hx => ?_
  obtain ⟨y, -, rfl⟩ := List.mem_map.mp hx
  exact nofun

/-- With samples among them, the transfers of a tick by their outputs. -/
theorem outputs_tick (ch : Channel) (c : DacCode) (i : Nat) (w : List Sample) (p : List PortCall) :
    outputs (.dacWr ch c :: (capCalls i w ++ p)) = .dacWr ch c :: outputs p := by
  rw [outputs_cons, outputs_append, outputs_capCalls]; rfl

/-! ### Where a sweep stands -/

/-- The sweep that began in `s`, with the table `codes` and the gain value `g`, after `k` of its ticks. -/
structure SweepAt (s : State) (codes : List DacCode) (g : Byte) (k : Nat) (t : State) : Prop where
  cfg : t.cfg = s.cfg
  ramp : t.ramp = s.ramp
  kind : t.reqKind = s.reqKind
  gain : t.reqGain = s.reqGain
  index : t.stepIndex.toNat = k
  timer : k < s.cfg.rampLen → t.timerRun = true
  closed : k = s.cfg.rampLen → t.sweepState = .draining ∧ t.done = true ∧ t.timerRun = false ∧ t.dmaArmed = false ∧
    t.adcRun = false ∧ t.ampEn = false ∧ (s.reqKind = .vce → t.gainVal = s.cfg.gainOff) ∧
    (s.activeCh = .ch0 → t.dacCode0 = 0) ∧ (s.activeCh = .ch1 → t.dacCode1 = 0)
  gain_kept : s.reqKind = .vbe → t.gainVal = s.gainVal
  dac0_kept : s.activeCh ≠ .ch0 → t.dacCode0 = s.dacCode0
  dac1_kept : s.activeCh ≠ .ch1 → t.dacCode1 = s.dacCode1
  ports : ∃ p, t.ports = s.ports ++ p ∧ outputs p = sweepCalls s codes g k

namespace SweepAt

variable {s t t' : State} {codes : List DacCode} {g : Byte} {k : Nat}

theorem start (ht : s.timerRun = true) (h0 : s.stepIndex = 0) : SweepAt s codes g 0 s where
  cfg := rfl
  ramp := rfl
  kind := rfl
  gain := rfl
  index := by simp [h0]
  timer _ := ht
  closed h := absurd h (Nat.succ_ne_zero _).symm
  gain_kept _ := rfl
  dac0_kept _ := rfl
  dac1_kept _ := rfl
  ports := ⟨[], (List.append_nil _).symm, rfl⟩

theorem activeCh (h : SweepAt s codes g k t) : t.activeCh = s.activeCh := by
  simp only [State.activeCh, h.kind, h.cfg]

/-- A capture changes `cap` and its position, and adds no output. -/
theorem captured (h : SweepAt s codes g k t) (m : Mem 16) (n i : Nat) (v : Sample) :
    SweepAt s codes g k { t with cap := m, dmaWrIdx := n, ports := t.ports ++ [.capWr i v] } :=
  { h with
    ports := by
      obtain ⟨p, hp, ho⟩ := h.ports
      have hcap : outputs [.capWr i v] = [] := rfl
      exact ⟨p ++ [.capWr i v], by simp [hp], by rw [outputs_append, hcap, List.append_nil, ho]⟩ }

/-- The transfers of the ticks so far and of one more. -/
theorem ports_succ {c : DacCode} {u : List PortCall} (h : SweepAt s codes g k t) (hc : codes[k]? = some c)
    (hu : outputs u = tickCalls s g k c) :
    ∃ p, t.ports ++ u = s.ports ++ p ∧ outputs p = sweepCalls s codes g (k + 1) := by
  obtain ⟨p, hp, ho⟩ := h.ports
  exact ⟨p ++ u, by rw [hp, List.append_assoc], by rw [outputs_append, ho, hu, sweepCalls_succ hc]⟩

theorem dac0_other (h : SweepAt s codes g k t) (c : DacCode) (hne : s.activeCh ≠ .ch0) :
    (if t.activeCh = .ch0 then c else t.dacCode0) = s.dacCode0 := by
  rw [h.activeCh, if_neg hne, h.dac0_kept hne]

theorem dac1_other (h : SweepAt s codes g k t) (c : DacCode) (hne : s.activeCh ≠ .ch1) :
    (if t.activeCh = .ch1 then c else t.dacCode1) = s.dacCode1 := by
  rw [h.activeCh, if_neg hne, h.dac1_kept hne]

/-- A tick before the last leads to the next index. -/
theorem advanced {c : DacCode} {u : List PortCall} {gv : Byte} {j : BitVec 8} (h : SweepAt s codes g k t)
    (hk : k < s.cfg.rampSteps) (hc : codes[k]? = some c) (hj : j.toNat = k + 1) (hgv : s.reqKind = .vbe → gv = t.gainVal)
    (hu : outputs u = tickCalls s g k c) (m : Mem 16) (n : Nat) (a b : Bool) :
    SweepAt s codes g (k + 1) { t.emitDac t.activeCh c with
      gainVal := gv, cap := m, dmaWrIdx := n, dmaArmed := a, adcRun := b, stepIndex := j, ports := t.ports ++ u } := by
  have hlen := rampLen_eq s.cfg.toGivenParams
  rw [State.emitDac_eq]
  exact { h with
    index := hj
    timer := fun _ => h.timer (by omega)
    closed := fun he => by omega
    gain_kept := fun hb => (hgv hb).trans (h.gain_kept hb)
    dac0_kept := h.dac0_other c
    dac1_kept := h.dac1_other c
    ports := h.ports_succ hc hu }

/-- The last tick ends the sweep. -/
theorem ended {c : DacCode} {u : List PortCall} {gv : Byte} (h : SweepAt s codes g k t) (hk : k = s.cfg.rampSteps)
    (hc : codes[k]? = some c) (hgv : gv = if s.reqKind = .vce then s.cfg.gainOff else t.gainVal)
    (hu : outputs u = tickCalls s g k c) (m : Mem 16) (n : Nat) :
    SweepAt s codes g (k + 1) { t.emitDac t.activeCh 0 with
      cap := m, dmaWrIdx := n, stepIndex := BitVec.ofNat 8 t.cfg.rampLen, adcRun := false, dmaArmed := false,
      ampEn := false, gainVal := gv, done := true, timerRun := false, sweepState := .draining, ports := t.ports ++ u } := by
  have hlen := rampLen_eq s.cfg.toGivenParams
  have hkept (hb : s.reqKind = .vbe) : gv = s.gainVal := by
    rw [hgv, hb, if_neg nofun, h.gain_kept hb]
  rw [State.emitDac_eq]
  exact { h with
    index := by rw [h.cfg, rampLen_toNat, hlen, hk]
    timer := fun hlt => by omega
    closed := fun _ => ⟨rfl, rfl, rfl, rfl, rfl, rfl, fun hv => by rw [hgv, if_pos hv],
      fun hch => if_pos (h.activeCh.trans hch), fun hch => if_pos (h.activeCh.trans hch)⟩
    gain_kept := hkept
    dac0_kept := h.dac0_other 0
    dac1_kept := h.dac1_other 0
    ports := h.ports_succ hc hu }

/-- The code that the tick at index `k` reads. -/
theorem rampEntry (h : SweepAt s codes g k t) (hlen : codes.length = s.cfg.rampLen)
    (hramp : ∀ i, i < s.cfg.rampLen → Mem.read s.ramp i = codes[i]?) (hk : k < s.cfg.rampLen) :
    ∃ c, codes[k]? = some c ∧ t.rampEntry = .ok c := by
  have hc : codes[k]? = some codes[k] := List.getElem?_eq_getElem (by omega)
  exact ⟨_, hc, rampEntry_ok.mpr ⟨by rw [h.index, h.cfg]; exact hk, by rw [h.ramp, h.index, hramp k hk, hc]⟩⟩

/-- A tick of the sweep leads from `k` ticks to `k + 1`. -/
theorem tick (h : SweepAt s codes g k t) (hlen : codes.length = s.cfg.rampLen)
    (hramp : ∀ i, i < s.cfg.rampLen → Mem.read s.ramp i = codes[i]?)
    (hg : s.reqKind = .vce → s.cfg.gainTable[s.reqGain.toNat]? = some g) (hk : k < s.cfg.rampLen) (ic : InnerCaptures) :
    ∃ t', runEvent (.tick ic) t = .next t' ∧ SweepAt s codes g (k + 1) t' := by
  obtain ⟨c, hc, hcode⟩ := h.rampEntry hlen hramp hk
  have ht := h.timer hk
  have hle : k ≤ s.cfg.rampSteps := Nat.le_of_lt_succ hk
  have hfire {t' : State} (hE : Effect (.tick ic) t t') (hs : SweepAt s codes g (k + 1) t') :
      ∃ t', runEvent (.tick ic) t = .next t' ∧ SweepAt s codes g (k + 1) t' :=
    ⟨t', runEvent_of_effect ht hE nofun, hs⟩
  rcases Nat.lt_or_eq_of_le hle with hlt | hlast
  · rcases Nat.eq_zero_or_pos k with rfl | hpos
    · have h0 : t.stepIndex = 0 := BitVec.eq_of_toNat_eq h.index
      cases hkind : s.reqKind with
      | vce =>
        refine hfire (.tickFirstVce t ic c g _ _ ht hcode h0 (h.kind.trans hkind) (by rw [h.cfg, h.gain]; exact hg hkind)
          rfl rfl) (h.advanced hlt hc rfl (by simp [hkind]) ?_ _ _ _ _)
        rw [outputs_tick, outputs_append, outputs_capCalls, tickCalls_first, h.activeCh, h.cfg, openingCalls, hkind]
        rfl
      | vbe =>
        refine hfire (.tickFirstVbe t ic c _ _ ht hcode h0 (h.kind.trans hkind) rfl rfl)
          (h.advanced hlt hc rfl (fun _ => State.emitDac_gainVal ..) ?_ _ _ _ _)
        rw [outputs_tick, outputs_append, outputs_capCalls, tickCalls_first, h.activeCh, h.cfg, openingCalls, hkind]
        rfl
    · have hj : (t.stepIndex + 1).toNat = k + 1 := by
        rw [stepIndex_succ (by rw [h.index, h.cfg]; exact hk), h.index]
      refine hfire (.tickMiddle t ic c _ ht hcode (by rw [h.index]; exact hpos) (by rw [h.index, h.cfg]; exact hlt) rfl)
        (h.advanced hlt hc hj (fun _ => State.emitDac_gainVal ..) ?_ _ _ _ _)
      rw [outputs_cons, outputs_capCalls, tickCalls_middle g c hpos hlt, h.activeCh]
      rfl
  · have hl : t.stepIndex.toNat = t.cfg.rampSteps := by rw [h.index, h.cfg, hlast]
    cases hkind : s.reqKind with
    | vce =>
      refine hfire (.tickLastVce t ic c _ ht hcode hl (h.kind.trans hkind) rfl)
        (h.ended hlast hc (by rw [if_pos hkind, h.cfg]) ?_ _ _)
      rw [outputs_tick, hlast, tickCalls_last, h.activeCh, h.cfg, closingCalls, hkind]
      rfl
    | vbe =>
      refine hfire (.tickLastVbe t ic c _ ht hcode hl (h.kind.trans hkind) rfl)
        (h.ended hlast hc (by rw [hkind, if_neg nofun, State.emitDac_gainVal]) ?_ _ _)
      rw [outputs_tick, hlast, tickCalls_last, h.activeCh, closingCalls, hkind]
      rfl

/-- CAP_WRITE keeps the sweep where it stands, enabled or not. -/
theorem capWrite (h : SweepAt s codes g k t) (v : Sample) :
    ∃ t', runEvent (.capWrite v) t = .next t' ∧ SweepAt s codes g k t' := by
  cases hc : t.capturing with
  | false => exact ⟨t, runEvent_disabled hc, h⟩
  | true => exact ⟨_, runEvent_enabled hc, h.captured _ _ _ v⟩

end SweepAt

/-- Ticks and captures, in any order, lead a sweep on by the number of the ticks. -/
theorem SweepAt.run {s : State} {codes : List DacCode} {g : Byte} (hlen : codes.length = s.cfg.rampLen)
    (hramp : ∀ i, i < s.cfg.rampLen → Mem.read s.ramp i = codes[i]?)
    (hg : s.reqKind = .vce → s.cfg.gainTable[s.reqGain.toNat]? = some g) (r : List Event) {l : List Event}
    (hl : ∀ e, e ∈ l → e.isTick = true ∨ ∃ v, e = .capWrite v) {k : Nat} {t : State} (h : SweepAt s codes g k t)
    (hk : k + l.countP Event.isTick ≤ s.cfg.rampLen) :
    ∃ t', Host.Core.run Sys2Proof.core l.length { t with sched := l ++ r } = .next ({ t' with sched := r } : State) ∧
      SweepAt s codes g (k + l.countP Event.isTick) t' := by
  induction l generalizing k t with
  | nil => exact ⟨t, rfl, h⟩
  | cons e l ih =>
    have htail : ∀ e', e' ∈ l → e'.isTick = true ∨ ∃ v, e' = .capWrite v := fun e' he' => hl e' (List.mem_cons_of_mem e he')
    have hstep {t1 : State} (h1 : runEvent e t = .next t1) :
        Host.Core.run Sys2Proof.core (e :: l).length { t with sched := e :: l ++ r } =
          Host.Core.run Sys2Proof.core l.length { t1 with sched := l ++ r } :=
      core_run_succ ((step_cons (s := { t with sched := e :: l ++ r }) rfl).trans (runEvent_sched (s := t) _ h1))
    rw [List.countP_cons] at hk ⊢
    rcases hl e List.mem_cons_self with htick | ⟨v, rfl⟩
    · obtain ⟨ic, rfl⟩ := isTick_iff.mp htick
      rw [if_pos htick] at hk ⊢
      obtain ⟨t1, h1, hs1⟩ := h.tick hlen hramp hg (by omega) ic
      rw [hstep h1, Nat.add_comm (List.countP _ l), ← Nat.add_assoc]
      exact ih htail hs1 (by omega)
    · obtain ⟨t1, h1, hs1⟩ := h.capWrite v
      rw [hstep h1]
      exact ih htail hs1 hk

/-! ### The whole sweep -/

/-- The transfers of ticks that neither open nor close the capture. -/
theorem flatMap_tickCalls_middle {s : State} (g : Byte) (l : List DacCode) {a : Nat} (ha : 1 ≤ a)
    (hl : a + l.length ≤ s.cfg.rampSteps) :
    ((l.zipIdx a).flatMap fun x => tickCalls s g x.2 x.1) = l.map (.dacWr s.activeCh) := by
  induction l generalizing a with
  | nil => rfl
  | cons c l ih =>
    simp only [List.length_cons] at hl
    rw [List.zipIdx_cons, List.flatMap_cons, ih (by omega) (by omega), tickCalls_middle g c ha (by omega)]
    rfl

/-- A table of `RAMP_LEN` codes: the first, those between, and the last, which is the one at index `S`. -/
theorem exists_first_middle_last {s : State} {codes : List DacCode} (hlen : codes.length = s.cfg.rampLen) :
    ∃ c mid d, codes = c :: (mid ++ [d]) ∧ 1 + mid.length = s.cfg.rampSteps := by
  have hpos := s.cfg.legal.rampSteps_pos
  have hsucc := rampLen_eq s.cfg.toGivenParams
  obtain _ | ⟨c, rest⟩ := codes
  · simp only [List.length_nil] at hlen
    omega
  · simp only [List.length_cons] at hlen
    have hne : rest ≠ [] := List.ne_nil_of_length_pos (by omega)
    refine ⟨c, rest.dropLast, rest.getLast hne, by rw [List.dropLast_append_getLast], ?_⟩
    rw [List.length_dropLast]
    omega

/-- The transfers of a whole sweep (R156, R157). -/
theorem sweepCalls_whole {s : State} {codes : List DacCode} (g : Byte) (hlen : codes.length = s.cfg.rampLen) :
    sweepCalls s codes g s.cfg.rampLen =
      (codes.take 1).map (.dacWr s.activeCh) ++ openingCalls s g ++ (codes.drop 1).map (.dacWr s.activeCh) ++
        closingCalls s := by
  rw [sweepCalls, ← hlen, List.take_length]
  obtain ⟨c, mid, d, rfl, hmid⟩ := exists_first_middle_last hlen
  have hmiddle := flatMap_tickCalls_middle (s := s) g mid (Nat.le_refl 1) hmid.le
  rw [List.zipIdx_cons, List.flatMap_cons, tickCalls_first, Nat.zero_add, List.zipIdx_append, List.flatMap_append, hmiddle,
    hmid, List.zipIdx_singleton, List.flatMap_singleton, tickCalls_last]
  simp

/-- Settles O31: it holds, by the induction over the events in `SweepAt.run`, a tick taking the sweep to its next index and a
capture leaving it where it stands. -/
theorem wholeSweepTrace : Obligations.WholeSweepTrace := by
  intro s l r codes g hs hl hcount ht _ h0 hlen hramp hg
  obtain ⟨t, hrun, hend⟩ := SweepAt.run hlen hramp hg r hl (SweepAt.start ht h0) (by rw [hcount, Nat.zero_add])
  rw [hcount, Nat.zero_add] at hend
  obtain ⟨hstate, hdone, htimer, hdma, hadc, hamp, hgain, hdac0, hdac1⟩ := hend.closed rfl
  obtain ⟨p, hp, hout⟩ := hend.ports
  have hstart : { s with sched := l ++ r } = s := by rw [← hs]
  rw [hstart] at hrun
  refine ⟨_, p, hrun, rfl, hstate, hdone, htimer, hend.index, hdma, hadc, hamp, hend.ramp, ?_, ?_, ?_, hp, ?_⟩
  · cases hk : s.reqKind with
    | vce => exact hgain hk
    | vbe => exact hend.gain_kept hk
  · split
    · next hch => exact hdac0 hch
    · next hch => exact hend.dac0_kept hch
  · split
    · next hch => exact hdac1 hch
    · next hch => exact hend.dac1_kept hch
  · have htrace := hout.trans (sweepCalls_whole g hlen)
    simpa only [outputs, openingCalls, closingCalls, List.append_assoc] using htrace

end Sys2Proof.Machine
